-- ==== Sys2Proof/Word.lean ====
section
/-! DEFINITION. The bit-vector types of RS64: what the spec treats as bits (00_scope.md R6, R7). -/

namespace Sys2Proof

/-- A command word or a response word: 32 bits (00_scope.md R6 `CMDW`, `RSPW`). -/
abbrev Word := BitVec 32

/-- A symbol (codeword): 6 bits, bit 5 the most significant (00_scope.md R6 `SYMW`, R7; 20_memory.md R51). -/
abbrev Sym := BitVec 6

/-- The `DATA` field of a response and the `STATUS` word: 16 bits (30_encoding.md R78, 10_state.md R30). -/
abbrev Data := BitVec 16

end Sys2Proof
end

