-- ==== Sys2Proof/Syntax.lean ====
section
/-! DEFINITION. The fifteen commands (30_encoding.md R75), one constructor per row of the opcode table, operands in
the assembler's order (R80). Each operand is the bit field that carries it (R73), so every term can be spelled as a
command word; which spellable values are legal is R74 (WellFormed.lean) and is checked when the command runs. -/

namespace Sys2Proof

/-- A command of RS64 (R2 reads "instruction" as "command"). -/
inductive Instr where
  /-- `RSNEW s, nsym, root, poly`: construct an encoder instance (40_field_and_construction.md R111). -/
  | rsnew (sel : BitVec 2) (nsym : BitVec 5) (root : BitVec 6) (poly : BitVec 8)
  /-- `RSENC s, len, base, stride`: encode a strided run of the buffer (41_encode.md R133). -/
  | rsenc (sel : BitVec 2) (len base : BitVec 8) (stride : BitVec 4)
  /-- `RSPUT base, stride`: write the shift register back, reversed (41_encode.md R134). -/
  | rsput (base : BitVec 8) (stride : BitVec 4)
  /-- `RSCMP base, stride`: compare the shift register with the buffer, reversed (41_encode.md R135). -/
  | rscmp (base : BitVec 8) (stride : BitVec 4)
  /-- `ECCPRI`: the primary part of the pass (42_ecc_pass.md R152). -/
  | eccpri
  /-- `ECCSECE mode`: the secondary even part (42_ecc_pass.md R153). -/
  | eccsece (mode : BitVec 3)
  /-- `ECCSECO mode`: the secondary odd part (42_ecc_pass.md R154). -/
  | eccseco (mode : BitVec 3)
  /-- `ECCALL mode`: the whole pass (42_ecc_pass.md R155). -/
  | eccall (mode : BitVec 3)
  /-- `ECCCHK mode`: recompute and compare the whole buffer (42_ecc_pass.md R156). -/
  | eccchk (mode : BitVec 3)
  /-- `CWST addr, val`: store one codeword (43_buffer_access.md R180). -/
  | cwst (addr : BitVec 8) (val : Sym)
  /-- `CWLD addr`: load one codeword (43_buffer_access.md R181). -/
  | cwld (addr : BitVec 8)
  /-- `RESLD k`: read one shift-register cell (41_encode.md R136). -/
  | resld (k : BitVec 5)
  /-- `TBLLD s, t, idx`: read a table entry (40_field_and_construction.md R112). -/
  | tblld (sel : BitVec 2) (t : BitVec 2) (idx : BitVec 8)
  /-- `STAT`: read the status (43_buffer_access.md R183). -/
  | stat
  /-- `CWCLR`: begin a new encode call (43_buffer_access.md R182). -/
  | cwclr
  deriving DecidableEq, Repr

end Sys2Proof
end

