-- ==== Sys2Proof/WellFormed.lean ====
section
/-! DEFINITION. Which operand values are legal by themselves (30_encoding.md R74). A command that is not well formed
is still spelled by a word, decodes, and runs to the fault R74 names for it; nothing here refuses an execution.
Legality that depends on the state (a slot, `RLEN`, a written cell) or on several operands together (`base`, `len` and
`stride`) is no part of this check. -/

namespace Sys2Proof

/-- `s` is 0, 1 or 2 (R74). -/
def slotLegal (sel : BitVec 2) : Bool := sel.toNat < 3

/-- `nsym` is 1 to 28 (R74). -/
def nsymLegal (nsym : BitVec 5) : Bool := 1 ≤ nsym.toNat && nsym.toNat ≤ 28

/-- `stride` is 1 to 15 (R74). -/
def strideLegal (stride : BitVec 4) : Bool := stride != 0#4

/-- `mode` is 2 to 6 (R74; 20_memory.md R53). -/
def modeLegal (mode : BitVec 3) : Bool := 2 ≤ mode.toNat && mode.toNat ≤ 6

/-- `t` is 0, 1 or 2 (R74). -/
def tableLegal (t : BitVec 2) : Bool := t.toNat < 3

/-- `addr` is 0 to 143 (R74). -/
def addrLegal (addr : BitVec 8) : Bool := addr.toNat ≤ 143

/-- Every operand that R74 restricts by itself has a legal value. -/
def Instr.wellFormed : Instr → Bool
  | .rsnew sel nsym _ _ => slotLegal sel && nsymLegal nsym
  | .rsenc sel _ _ stride => slotLegal sel && strideLegal stride
  | .rsput _ stride => strideLegal stride
  | .rscmp _ stride => strideLegal stride
  | .eccpri => true
  | .eccsece mode => modeLegal mode
  | .eccseco mode => modeLegal mode
  | .eccall mode => modeLegal mode
  | .eccchk mode => modeLegal mode
  | .cwst addr _ => addrLegal addr
  | .cwld addr => addrLegal addr
  | .resld _ => true
  | .tblld sel t _ => slotLegal sel && tableLegal t
  | .stat => true
  | .cwclr => true

end Sys2Proof
end

