-- ==== Sys2Proof/Decode.lean ====
section
/-! DEFINITION. The decoder, total on all 2^32 words (30_encoding.md R72 to R77, R83), then the encoder (R73, R80),
then the host's entry point `decodeTableWord`. -/

namespace Sys2Proof

/-- Why a word spells no command; both reasons make it `ILLEGAL` (60_exceptions.md R200). -/
inductive DecodeReject where
  /-- The opcode is one of R76's reserved opcodes. -/
  | reservedOpcode
  /-- The opcode is one of the fifteen, but a must-be-zero bit of its format is 1 (R77). -/
  | mustBeZero
  deriving DecidableEq, Repr

/-- Bits 31:24, the opcode `OPC` (R72). -/
def opcodeOf (w : Word) : BitVec 8 := w.extractLsb' 24 8

/-- The command `i`, if the must-be-zero bits `zeros` of its format are 0 in `w` (R73, R77). -/
def withZeros (w zeros : Word) (i : Instr) : Except DecodeReject Instr :=
  if w &&& zeros = 0#32 then .ok i else .error .mustBeZero

/-- Decode a command word. The fields stand where R73's formats C, E, P, N, M, A, L, R and T put them; `zeros` is the
part of R75's mask below the opcode. -/
def decode (w : Word) : Except DecodeReject Instr :=
  match (opcodeOf w).toNat with
  | 0x01 => withZeros w 0x0000E000#32
      (.rsnew (w.extractLsb' 22 2) (w.extractLsb' 8 5) (w.extractLsb' 16 6) (w.extractLsb' 0 8))
  | 0x02 => withZeros w 0x00300000#32
      (.rsenc (w.extractLsb' 22 2) (w.extractLsb' 0 8) (w.extractLsb' 8 8) (w.extractLsb' 16 4))
  | 0x03 => withZeros w 0x00F000FF#32 (.rsput (w.extractLsb' 8 8) (w.extractLsb' 16 4))
  | 0x04 => withZeros w 0x00F000FF#32 (.rscmp (w.extractLsb' 8 8) (w.extractLsb' 16 4))
  | 0x08 => withZeros w 0x00FFFFFF#32 .eccpri
  | 0x09 => withZeros w 0x00FFFFF8#32 (.eccsece (w.extractLsb' 0 3))
  | 0x0A => withZeros w 0x00FFFFF8#32 (.eccseco (w.extractLsb' 0 3))
  | 0x0B => withZeros w 0x00FFFFF8#32 (.eccall (w.extractLsb' 0 3))
  | 0x0C => withZeros w 0x00FFFFF8#32 (.eccchk (w.extractLsb' 0 3))
  | 0x10 => withZeros w 0x00FF00C0#32 (.cwst (w.extractLsb' 8 8) (w.extractLsb' 0 6))
  | 0x11 => withZeros w 0x00FF00FF#32 (.cwld (w.extractLsb' 8 8))
  | 0x12 => withZeros w 0x00FFFFE0#32 (.resld (w.extractLsb' 0 5))
  | 0x13 => withZeros w 0x000FFF00#32 (.tblld (w.extractLsb' 22 2) (w.extractLsb' 20 2) (w.extractLsb' 0 8))
  | 0x14 => withZeros w 0x00FFFFFF#32 .stat
  | 0x15 => withZeros w 0x00FFFFFF#32 .cwclr
  | _ => .error .reservedOpcode

/-- The word that spells a command, its bits listed from 31 down as R73's formats list them (the same word as R80's). -/
def encode : Instr → Word
  | .rsnew sel nsym root poly => 0x01#8 ++ sel ++ root ++ 0#3 ++ nsym ++ poly
  | .rsenc sel len base stride => 0x02#8 ++ sel ++ 0#2 ++ stride ++ base ++ len
  | .rsput base stride => 0x03#8 ++ 0#4 ++ stride ++ base ++ 0#8
  | .rscmp base stride => 0x04#8 ++ 0#4 ++ stride ++ base ++ 0#8
  | .eccpri => 0x08#8 ++ 0#24
  | .eccsece mode => 0x09#8 ++ 0#21 ++ mode
  | .eccseco mode => 0x0A#8 ++ 0#21 ++ mode
  | .eccall mode => 0x0B#8 ++ 0#21 ++ mode
  | .eccchk mode => 0x0C#8 ++ 0#21 ++ mode
  | .cwst addr val => 0x10#8 ++ 0#8 ++ addr ++ 0#2 ++ val
  | .cwld addr => 0x11#8 ++ 0#8 ++ addr ++ 0#8
  | .resld k => 0x12#8 ++ 0#19 ++ k
  | .tblld sel t idx => 0x13#8 ++ sel ++ t ++ 0#12 ++ idx
  | .stat => 0x14#8 ++ 0#24
  | .cwclr => 0x15#8 ++ 0#24

/-- The `match` column of R75 for a command's row. -/
def Instr.rowMatch : Instr → Word
  | .rsnew .. => 0x01000000#32
  | .rsenc .. => 0x02000000#32
  | .rsput .. => 0x03000000#32
  | .rscmp .. => 0x04000000#32
  | .eccpri => 0x08000000#32
  | .eccsece _ => 0x09000000#32
  | .eccseco _ => 0x0A000000#32
  | .eccall _ => 0x0B000000#32
  | .eccchk _ => 0x0C000000#32
  | .cwst .. => 0x10000000#32
  | .cwld _ => 0x11000000#32
  | .resld _ => 0x12000000#32
  | .tblld .. => 0x13000000#32
  | .stat => 0x14000000#32
  | .cwclr => 0x15000000#32

/-- The `mask` column of R75 for a command's row. -/
def Instr.rowMask : Instr → Word
  | .rsnew .. => 0xFF00E000#32
  | .rsenc .. => 0xFF300000#32
  | .rsput .. => 0xFFF000FF#32
  | .rscmp .. => 0xFFF000FF#32
  | .eccpri => 0xFFFFFFFF#32
  | .eccsece _ => 0xFFFFFFF8#32
  | .eccseco _ => 0xFFFFFFF8#32
  | .eccall _ => 0xFFFFFFF8#32
  | .eccchk _ => 0xFFFFFFF8#32
  | .cwst .. => 0xFFFF00C0#32
  | .cwld _ => 0xFFFF00FF#32
  | .resld _ => 0xFFFFFFE0#32
  | .tblld .. => 0xFF0FFF00#32
  | .stat => 0xFFFFFFFF#32
  | .cwclr => 0xFFFFFFFF#32

/-- The command the decoder reads from a table word of `nbits` bits: RS64 has one command length, 32 bits (R82), and
no memory holds a command, so the word itself is what the port carries. -/
def decodeTableWord (nbits w : Nat) : Option Instr :=
  if nbits ≤ 32 ∧ w < 2 ^ 32 then
    match decode (BitVec.ofNat 32 w) with
    | .ok i => some i
    | .error _ => none
  else none

end Sys2Proof
end

