-- ==== Sys2Proof/Config.lean ====
section
/-! DEFINITION. The parameters of RS64 (00_scope.md R6) and the mode table (20_memory.md R53). The spec leaves no
value free (93_implementation_defined.md, end of section 1), so this file holds no opaque constant. -/

namespace Sys2Proof.Config

/-- `N`, the document's `fieldSize`: the exponent modulus (R6; 90_conflicts.md C1). -/
def fieldN : Nat := 63

/-- `CWLEN`: the length of the codeword buffer (R6). -/
def bufferLength : Nat := 144

/-- `NSYM_MAX`: the widest ECC shift register (R6). -/
def nsymMax : Nat := 28

/-- The MaxiCode primitive polynomial x^6 + x + 1, used by `BOOTMAXI` only: `POLY` is an operand of `RSNEW`
(R6; 92_eei_decisions.md D2; 93_implementation_defined.md G1). No meaning of an instruction reads it. -/
def maxiPoly : BitVec 8 := 0x43#8

/-- The MaxiCode first-root index, used by `BOOTMAXI` only: `ROOT` is an operand of `RSNEW`
(R6; 92_eei_decisions.md D3; 93_implementation_defined.md G2). No meaning of an instruction reads it. -/
def maxiRoot : BitVec 6 := 1#6

/-- First cell of the secondary region (20_memory.md R52). -/
def secondaryBase : Nat := 20

/-- `DLEN` of the mode table: how many secondary data cells a mode has (20_memory.md R53; 90_conflicts.md C3). -/
def dataLength (mode : BitVec 3) : Nat := if mode = 5#3 then 68 else 84

/-- `SUB` of the mode table: data symbols per sub-block (R53). -/
def subLength (mode : BitVec 3) : Nat := dataLength mode / 2

/-- `NS` of the mode table: ECC symbols per sub-block (R53). -/
def subNsym (mode : BitVec 3) : BitVec 5 := if mode = 5#3 then 28#5 else 20#5

/-- The slot column of the mode table (R53). -/
def subSlot (mode : BitVec 3) : Fin 3 := if mode = 5#3 then 2 else 1

/-- `EBASE` of the mode table: the first secondary ECC cell (R53; 90_conflicts.md C2). -/
def eccBase (mode : BitVec 3) : Nat := secondaryBase + dataLength mode

end Sys2Proof.Config
end

