-- ==== Sys2Proof/Machine/State.lean ====
section
/-! DEFINITION. The whole architectural state of RS64 (10_state.md R20), the response register of its port
(30_encoding.md R70, R71), the host's side of a run (70_reset_and_hazards.md R239, R240), the fault codes
(60_exceptions.md R200), and the state after reset (R35, R231). Plain data throughout. -/

namespace Sys2Proof.Machine

/-- RS64's fault codes 1 to 8 (60_exceptions.md R200), the ones a command's own checks raise and `ERR` records. These
are the unit's EXCEPTIONS: taking one is a next state (Ops.lean, `State.raise`), it does not stop the model. Code 9,
`HALTED`, records nothing and is `State.answerHalted`. -/
inductive FaultCode where
  /-- 1: reserved opcode, or a 1 in a must-be-zero bit. -/
  | illegal
  /-- 2: the polynomial does not yield the field size 63. -/
  | construction
  /-- 3: an operand value that is illegal by itself. -/
  | badParam
  /-- 4: the slot the command needs is empty or holds the wrong symbol count. -/
  | notBuilt
  /-- 5: a buffer address above 143, or a table index beyond its table. -/
  | addrRange
  /-- 6: a read of a cell that holds no value. -/
  | unwritten
  /-- 7: `mode` is 0, 1 or 7. -/
  | badMode
  /-- 8: `RSNEW` on a constructed slot. -/
  | alreadyBuilt
  deriving DecidableEq, Repr

/-- The two tables of an encoder instance (10_state.md R22 to R24). -/
structure Tables where
  /-- `LOG`, indexed 0 to 63; entry 0 holds no value (R23). -/
  log : Vector (Option Sym) 64
  /-- `ALOG`, indexed 0 to 62 (R24). -/
  alog : Vector Sym 63
  deriving DecidableEq, Repr

/-- A constructed encoder instance (10_state.md R22). -/
structure Encoder extends Tables where
  /-- `.POLY`: the primitive polynomial; bit `i` is the coefficient of `x^i`. No command reads it back (R22). -/
  poly : BitVec 7
  /-- `.NSYM`: the ECC symbol count, 1 to 28. -/
  nsym : BitVec 5
  /-- `.ROOT`: the first-root index as given to `RSNEW`. No command reads it back (R22). -/
  root : BitVec 6
  /-- `.N`: the constant 63, the document's `fieldSize`. -/
  n : Nat
  /-- `.GEN`: the `NSYM + 1` generator coefficients, `GEN[0]` first (R25). -/
  gen : List Sym
  deriving DecidableEq, Repr

/-- The written cells of the codeword buffer `CW`, as (address, symbol) pairs with rising addresses; an address that
is not listed reads as `none` (10_state.md R32, 20_memory.md R50, R58). -/
abbrev Memory := List (Nat × Sym)

/-- What the host drives on the unit's input ports in one cycle (30_encoding.md R70). -/
structure PortIn where
  /-- `rst`. -/
  rst : Bool
  /-- `cmd_valid`. -/
  cmdValid : Bool
  /-- `cmd_data`. -/
  cmdData : Word
  /-- `rsp_ready`. -/
  rspReady : Bool
  deriving DecidableEq, Repr

/-- The state of the machine: R20's whole architectural state, the response register, and the host's side of a run. -/
structure State where
  /-- `SLOT[0..2]` (R21). -/
  slots : Vector (Option Encoder) 3
  /-- `RES[0..27]`, the ECC shift register (R26). -/
  res : Vector (Option Sym) 28
  /-- `RLEN`, how many cells of `RES` hold a result (R27). -/
  rlen : BitVec 5
  /-- `MATCH`, the unit's only flag (R29). -/
  matchFlag : Bool
  /-- `ERR`, the sticky fault code; non-zero means halted (R31). -/
  err : BitVec 4
  /-- `CW[0..143]`, the codeword buffer (R32). -/
  cw : Memory
  /-- The response word the unit is presenting and the host has not taken: `rsp_valid` and `rsp_data` (R70, R71). -/
  rsp : Option Word
  /-- THE MODEL'S OWN: what the host will drive on the input ports, cycle by cycle; it carries the host's finite list
  of command words (10_state.md R33, 70_reset_and_hazards.md R239). The unit never writes it. -/
  host : List PortIn
  /-- THE MODEL'S OWN: the response words the host has taken, oldest first: the result of the run (R239). The unit
  never reads it. -/
  taken : List Word
  deriving DecidableEq, Repr

/-- Why the model would stop a step with a fault. RS64's own faults are not here: taking one is a next state
(60_exceptions.md R203). -/
inductive Fault where
  /-- A unit whose state has not been through `rst`: the spec leaves it unspecified and has a model give such a launch
  no meaning (70_reset_and_hazards.md R230; 93_implementation_defined.md U7). Raised by no step, because a `State`
  stands only for a unit that has been through reset; safe. -/
  | beforeFirstReset
  deriving DecidableEq, Repr

/-- Why the model would refuse an instruction. -/
inductive Refusal where
  /-- An instruction with no meaning yet, by its mnemonic. Raised by no arm: all fifteen commands have their meaning;
  safe. -/
  | notModelled (mnemonic : String)
  deriving DecidableEq, Repr

/-- The state after reset (10_state.md R35, 70_reset_and_hazards.md R231), with no response waiting (R230), and a host
that drives nothing and has taken nothing. -/
def State.reset : State where
  slots := Vector.replicate 3 none
  res := Vector.replicate 28 none
  rlen := 0#5
  matchFlag := false
  err := 0#4
  cw := []
  rsp := none
  host := []
  taken := []

end Sys2Proof.Machine
end

