-- ==== Sys2Proof/Machine/Ops.lean ====
section
/-! DEFINITION. The named operations over the state: the codeword buffer, the shift register, the response word,
TAKING A FAULT (60_exceptions.md R203, R204) and leaving the halted state (reset, R205, R230), and the frame every
command runs in. -/

namespace Sys2Proof.Machine

/-! ## The codeword buffer -/

/-- The canonical form: addresses strictly rising, each 0 to 143. No entry can equal what an unlisted address reads
as, because an unlisted address reads as `none`. -/
abbrev Memory.wf (m : Memory) : Prop := m.Pairwise (fun x y => x.1 < y.1) ∧ ∀ c ∈ m, c.1 < 144

/-- The content of cell `a`: a symbol, or `none` if nothing has written it (00_scope.md R8 `CW[a]`). -/
def Memory.read : Memory → Nat → Option Sym
  | [], _ => none
  | (b, v) :: m, a => if a = b then some v else Memory.read m a

/-- Replace cell `a` and set its written mark (20_memory.md R59). -/
def Memory.write : Memory → Nat → Sym → Memory
  | [], a, v => [(a, v)]
  | (b, y) :: m, a, v =>
    if a < b then (a, v) :: (b, y) :: m
    else if a = b then (a, v) :: m
    else (b, y) :: Memory.write m a v

/-- The cells `base + i*stride`, `0 ≤ i < count`, in rising `i` (20_memory.md R56). -/
def Memory.cells (m : Memory) (base stride count : Nat) : List (Option Sym) :=
  (List.range count).map fun i => m.read (base + i * stride)

/-- Write a list of symbols at `base`, `base + stride`, and so on, the head first (20_memory.md R56). -/
def Memory.writeRun (m : Memory) (base stride : Nat) : List Sym → Memory
  | [] => m
  | v :: vs => Memory.writeRun (m.write base v) (base + stride) stride vs

/-- The values of a list of cells, if none of them is `none`. -/
def allWritten : List (Option Sym) → Option (List Sym)
  | [] => some []
  | none :: _ => none
  | some v :: cs => (allWritten cs).map (v :: ·)

/-- `MemRead(a, 1)` (00_scope.md R8). -/
def memRead (s : State) (a : Nat) : Except FaultCode Sym :=
  if 143 < a then .error .addrRange
  else match s.cw.read a with
    | none => .error .unwritten
    | some v => .ok v

/-- `MemWrite(a, 1, v)` (00_scope.md R8). -/
def memWrite (s : State) (a : Nat) (v : Sym) : Except FaultCode State :=
  if 143 < a then .error .addrRange
  else .ok { s with cw := s.cw.write a v }

/-! ## The shift register and the slots -/

/-- `RES[k]`; a `k` above 27 is no cell and holds no value (10_state.md R26, 41_encode.md R136). -/
def State.resCell (s : State) (k : Nat) : Option Sym := if h : k < 28 then s.res[k] else none

/-- The 28 cells that hold the list `r` from cell 0 up, and `none` above it. -/
def resultCells (r : List Sym) : Vector (Option Sym) 28 :=
  ⟨((List.range 28).map fun k => r[k]?).toArray, by simp⟩

/-- `RES[0..NSYM-1] <- r`, the other cells `none`, `RLEN <- NSYM` (41_encode.md R133, 42_ecc_pass.md R157). -/
def State.setResult (s : State) (nsym : BitVec 5) (r : List Sym) : State :=
  { s with res := resultCells r, rlen := nsym }

/-- `RES[0], ..., RES[RLEN-1]`, if every one of them holds a value (10_state.md R27). -/
def State.result (s : State) : Option (List Sym) :=
  allWritten ((List.range s.rlen.toNat).map s.resCell)

/-- `SLOT[i] <- I` (40_field_and_construction.md R111). -/
def State.setSlot (s : State) (i : Fin 3) (I : Encoder) : State :=
  { s with slots := s.slots.set i (some I) }

/-- Every `CW` and `RES` cell `none`, `RLEN` and `MATCH` 0 (43_buffer_access.md R182). -/
def State.clearCall (s : State) : State :=
  { s with cw := [], res := Vector.replicate 28 none, rlen := 0#5, matchFlag := false }

/-! ## The response word -/

/-- A response word: `FAULT` in 31:28, zero in 27:16, `DATA` in 15:0 (30_encoding.md R78). -/
def responseWord (fault : BitVec 4) (data : Data) : Word := fault ++ 0#12 ++ data

/-- Present a response word to the host (30_encoding.md R71). -/
def State.respond (s : State) (w : Word) : State := { s with rsp := some w }

/-- The response of a command that completed: `FAULT = 0` and its `DATA` (30_encoding.md R78, R79). -/
def State.complete (s : State) (data : Data) : State := s.respond (responseWord 0#4 data)

/-! ## Taking a fault, and the halted state -/

/-- The code a fault records and reports (60_exceptions.md R200). -/
def FaultCode.code : FaultCode → BitVec 4
  | .illegal => 1#4
  | .construction => 2#4
  | .badParam => 3#4
  | .notBuilt => 4#4
  | .addrRange => 5#4
  | .unwritten => 6#4
  | .badMode => 7#4
  | .alreadyBuilt => 8#4

/-- TAKING A FAULT (R203): no architectural state changes except `ERR`; the response is the fault code with `DATA = 0`.
There is no handler address, saved state or mode to change (R203). -/
def State.raise (s : State) (f : FaultCode) : State :=
  { s with err := f.code }.respond (responseWord f.code 0#16)

/-- The answer of a halted unit: fault code 9, `HALTED`, with `DATA = 0`; nothing changes, `ERR` included (R204). -/
def State.answerHalted (s : State) : State := s.respond (responseWord 9#4 0#16)

/-- THE ONLY WAY OUT of the halted state (R205): `rst` puts the unit in the state after reset, abandons a command and
withdraws a waiting response (70_reset_and_hazards.md R230). The host's own lists are not the unit's and stay. -/
def State.takeReset (s : State) : State := { State.reset with host := s.host, taken := s.taken }

/-- The unit is halted while `ERR` is not 0 (10_state.md R31). -/
def State.isHalted (s : State) : Bool := s.err != 0#4

/-- The frame of every command but `STAT`: a halted unit answers `HALTED` and changes nothing (R204); otherwise the
command's checks and effect, `body`, run on the state; a fault discards all the body did and is taken on the state
before it (R203: a command that faults writes nothing but `ERR`). -/
def command (s : State) (body : Except FaultCode (State × Data)) : Host.Outcome State Fault Refusal :=
  if s.isHalted then .next s.answerHalted
  else match body with
    | .ok (t, data) => .next (t.complete data)
    | .error f => .next (s.raise f)

/-- A word that spells no command: `ILLEGAL`, unless the unit is halted (60_exceptions.md R202 levels 1 and 2). -/
def State.rejectWord (s : State) : State :=
  if s.isHalted then s.answerHalted else s.raise .illegal

end Sys2Proof.Machine
end

