-- ==== Sys2Proof/Machine/Field.lean ====
section
/-! DEFINITION. Arithmetic in GF(64) by tables, the construction of an encoder instance, and the encode algorithm
`Lfsr` (40_field_and_construction.md R100 to R109; 41_encode.md R131). -/

namespace Sys2Proof.Machine

/-! ## Field arithmetic -/

/-- A symbol as an index of `LOG`. -/
def symIndex (a : Sym) : Fin 64 := a.toFin

/-- `ALOG[e mod 63]` (R102). -/
def Tables.alogMod (t : Tables) (e : Nat) : Sym := t.alog[e % 63]'(Nat.mod_lt e (by decide))

/-- `LOG[a]` as an exponent. Only read for a non-zero `a` (10_state.md R23), where every table that R104 builds holds
a value; a table with a hole there is built by no command, and stands here for 0. -/
def Tables.logNat (t : Tables) (a : Sym) : Nat :=
  match t.log[symIndex a] with
  | some e => e.toNat
  | none => 0

/-- `a` times `alpha^e`; a zero short-circuits (R102, R103, R109). -/
def Tables.scale (t : Tables) (e : Nat) (a : Sym) : Sym :=
  if a = 0#6 then 0#6 else t.alogMod (t.logNat a + e)

/-- The field product `gfmul` (R103): the zero test comes first. -/
def Tables.gfmul (t : Tables) (a b : Sym) : Sym :=
  if a = 0#6 ∨ b = 0#6 then 0#6 else t.alogMod (t.logNat a + t.logNat b)

/-! ## The tables -/

/-- `p <- p << 1; if p[6] = 1 then p <- p ^ poly`: multiplication by alpha (R104, R106). -/
def timesAlpha (poly : BitVec 8) (p : Sym) : Sym :=
  let q : BitVec 7 := p ++ 0#1
  if q.getLsbD 6 then (q ^^^ poly.setWidth 7).setWidth 6 else q.setWidth 6

/-- The loop of R104, `n` steps to go, at exponent `v` with `p = alpha^v`. `none` is a `require` that fails. -/
def tableLoop (poly : BitVec 8) : Nat → Nat → Sym → Tables → Option Tables
  | 0, _, p, t => if p = 1#6 then some t else none
  | n + 1, v, p, t =>
    if p ≠ 0#6 ∧ t.log[symIndex p] = none then
      tableLoop poly n (v + 1) (timesAlpha poly p)
        { log := t.log.set (symIndex p) (some (BitVec.ofNat 6 v)), alog := t.alog.setIfInBounds v p }
    else none

/-- The tables of R104 for a polynomial, `none` where construction fails (R105): the highest set bit must be bit 6
and the powers of alpha must run through all 63 non-zero elements and come back to 1. -/
def buildTables (poly : BitVec 8) : Option Tables :=
  if poly.extractLsb' 6 2 = 1#2 then
    tableLoop poly 63 0 1#6 { log := Vector.replicate 64 none, alog := Vector.replicate 63 0#6 }
  else none

/-! ## The generator polynomial -/

/-- One step of R109: `g` holds the `i` coefficients of the product of the first `i - 1` factors; multiply in
`(x + alpha^idx)`. -/
def genStep (t : Tables) (idx : Nat) (g : List Sym) : List Sym :=
  List.zipWith (· ^^^ ·) (g.map (t.scale idx)) (0#6 :: g) ++ [1#6]

/-- The loop of R109, `n` roots to go, the next one `alpha^idx`; `idx` is not reduced. -/
def genLoop (t : Tables) : Nat → Nat → List Sym → List Sym
  | 0, _, g => g
  | n + 1, idx, g => genLoop t n (idx + 1) (genStep t idx g)

/-- `GEN[0..NSYM]` (R108, R109). -/
def generator (t : Tables) (nsym root : Nat) : List Sym := genLoop t nsym root [1#6]

/-- The instance `RSNEW` builds, `none` where construction fails (R111). -/
def construct (poly : BitVec 8) (nsym : BitVec 5) (root : BitVec 6) : Option Encoder :=
  match buildTables poly with
  | none => none
  | some t => some
      { toTables := t, poly := poly.setWidth 7, nsym := nsym, root := root, n := Config.fieldN,
        gen := generator t nsym.toNat root.toNat }

/-! ## The encode algorithm -/

/-- `GEN[0..NSYM-1]`, the feedback taps (10_state.md R25). -/
def Encoder.taps (I : Encoder) : List Sym := I.gen.take I.nsym.toNat

/-- One data symbol of R131: XOR it into the top cell, then shift up and add the scaled feedback. All cells are
computed from the old ones, as the descending loop does. -/
def Encoder.shift (I : Encoder) (r : List Sym) (d : Sym) : List Sym :=
  let m := r.getLastD 0#6 ^^^ d
  List.zipWith (fun below g => below ^^^ I.gfmul m g) (0#6 :: r) I.taps

/-- `Lfsr(I, d)` (R131): the register starts at all zeros. -/
def Encoder.lfsr (I : Encoder) (d : List Sym) : List Sym :=
  d.foldl I.shift (List.replicate I.nsym.toNat 0#6)

end Sys2Proof.Machine
end

