-- ==== Sys2Proof/Machine/Operands.lean ====
section
/-! DEFINITION. The operand forms the commands share: a slot number, a strided run of the buffer, a table entry, a
mode (30_encoding.md R74; 20_memory.md R57, R58). -/

namespace Sys2Proof.Machine

/-- The slot an `s` field selects; 3 selects none (R74). -/
def slotIndex (sel : BitVec 2) : Option (Fin 3) :=
  if h : sel.toNat < 3 then some ⟨sel.toNat, h⟩ else none

/-- The range check of a run, on the highest address it would touch, vacuous for no symbols; computed on unbounded
integers (20_memory.md R57; 40_field_and_construction.md R113). -/
def runInRange (base stride count : Nat) : Bool := count = 0 || base + (count - 1) * stride ≤ 143

/-- The symbols of a run: `ADDR_RANGE` is checked before any access, then every cell must be written
(20_memory.md R57, R58). -/
def readRun (m : Memory) (base stride count : Nat) : Except FaultCode (List Sym) :=
  if runInRange base stride count then
    match allWritten (m.cells base stride count) with
    | some d => .ok d
    | none => .error .unwritten
  else .error .addrRange

/-- One entry of an instance's tables, with its index check (40_field_and_construction.md R112). -/
def tableEntry (I : Encoder) (t : BitVec 2) (idx : Nat) : Except FaultCode Sym :=
  match t.toNat with
  | 0 =>
    if h : idx < 64 then
      match I.log[idx] with
      | some e => .ok e
      | none => .error .unwritten
    else .error .addrRange
  | 1 => if h : idx < 63 then .ok I.alog[idx] else .error .addrRange
  | 2 =>
    if I.nsym.toNat < idx then .error .addrRange
    else match I.gen[idx]? with
      | some g => .ok g
      | none => .error .unwritten
  | _ => .error .badParam

end Sys2Proof.Machine
end

