-- ==== Sys2Proof/Machine/Flags.lean ====
section
/-! DEFINITION. The flag `MATCH` (10_state.md R29) and the view `STATUS` (R30). -/

namespace Sys2Proof.Machine

/-- Whether the stored ECC cells equal the computed ECC symbols `r`, top cell first: every compared cell counts
(41_encode.md R135, 42_ecc_pass.md R157). -/
def eccEqual (stored r : List Sym) : Bool := stored == r.reverse

/-- `MATCH <- b` (R29). -/
def State.setMatch (s : State) (b : Bool) : State := { s with matchFlag := b }

/-- `zext_16` of one bit (30_encoding.md R79). -/
def bitData (b : Bool) : Data := (BitVec.ofBool b).setWidth 16

/-- `BUILT<i>`: slot `i` is constructed (R30). -/
def State.built (s : State) (i : Fin 3) : Bool := s.slots[i].isSome

/-- `STATUS` (R30): `ERR` in 3:0, `MATCH` in 4, `BUILT0..2` in 5 to 7, `RLEN` in 12:8, zero in 15:13. -/
def State.status (s : State) : Data :=
  0#3 ++ s.rlen ++ BitVec.ofBool (s.built 2) ++ BitVec.ofBool (s.built 1) ++ BitVec.ofBool (s.built 0)
    ++ BitVec.ofBool s.matchFlag ++ s.err

end Sys2Proof.Machine
end

