-- ==== Sys2Proof/Machine/Access.lean ====
section
/-! DEFINITION. Host access to the buffer and the status: `CWST`, `CWLD`, `CWCLR`, `STAT`
(43_buffer_access.md R180 to R183). -/

namespace Sys2Proof.Machine

/-- `CWST addr, val` (R180). -/
def execCwst (addr : BitVec 8) (val : Sym) (s : State) : Host.Outcome State Fault Refusal :=
  command s <|
    match memWrite s addr.toNat val with
    | .error f => .error f
    | .ok t => .ok (t, 0#16)

/-- `CWLD addr` (R181). -/
def execCwld (addr : BitVec 8) (s : State) : Host.Outcome State Fault Refusal :=
  command s <|
    match memRead s addr.toNat with
    | .error f => .error f
    | .ok v => .ok (s, v.setWidth 16)

/-- `CWCLR` (R182). -/
def execCwclr (s : State) : Host.Outcome State Fault Refusal :=
  command s (.ok (s.clearCall, 0#16))

/-- `STAT` (R183): completes whether or not the unit is halted. -/
def execStat (s : State) : Host.Outcome State Fault Refusal := .next (s.complete s.status)

end Sys2Proof.Machine
end

