-- ==== Sys2Proof/Machine/Construct.lean ====
section
/-! DEFINITION. `RSNEW` and `TBLLD` (40_field_and_construction.md R111, R112). -/

namespace Sys2Proof.Machine

/-- `RSNEW s, nsym, root, poly` (R111): checks in R111's order, then the slot. -/
def execRsnew (sel : BitVec 2) (nsym : BitVec 5) (root : BitVec 6) (poly : BitVec 8) (s : State) :
    Host.Outcome State Fault Refusal :=
  command s <|
    match slotIndex sel with
    | none => .error .badParam
    | some i =>
      if !nsymLegal nsym then .error .badParam
      else if s.built i then .error .alreadyBuilt
      else match construct poly nsym root with
        | none => .error .construction
        | some I => .ok (s.setSlot i I, 0#16)

/-- `TBLLD s, t, idx` (R112): no effect on state, the entry as `DATA`. -/
def execTblld (sel t : BitVec 2) (idx : BitVec 8) (s : State) : Host.Outcome State Fault Refusal :=
  command s <|
    match slotIndex sel with
    | none => .error .badParam
    | some i =>
      if !tableLegal t then .error .badParam
      else match s.slots[i] with
        | none => .error .notBuilt
        | some I =>
          match tableEntry I t idx.toNat with
          | .error f => .error f
          | .ok e => .ok (s, e.setWidth 16)

end Sys2Proof.Machine
end

