-- ==== Sys2Proof/Machine/Encode.lean ====
section
/-! DEFINITION. The shift-register commands `RSENC`, `RSPUT`, `RSCMP`, `RESLD` (41_encode.md R133 to R136). -/

namespace Sys2Proof.Machine

/-- The result to write or compare and its range check, shared by `RSPUT` and `RSCMP` (R134, R135): `stride = 0`,
then `RLEN = 0`, then the highest address. -/
def resultRun (s : State) (base stride : Nat) : Except FaultCode (List Sym) :=
  if stride = 0 then .error .badParam
  else if s.rlen = 0#5 then .error .unwritten
  else if !runInRange base stride s.rlen.toNat then .error .addrRange
  else match s.result with
    | some r => .ok r
    | none => .error .unwritten

/-- `RSENC s, len, base, stride` (R133). -/
def execRsenc (sel : BitVec 2) (len base : BitVec 8) (stride : BitVec 4) (s : State) :
    Host.Outcome State Fault Refusal :=
  command s <|
    match slotIndex sel with
    | none => .error .badParam
    | some i =>
      if !strideLegal stride then .error .badParam
      else match s.slots[i] with
        | none => .error .notBuilt
        | some I =>
          match readRun s.cw base.toNat stride.toNat len.toNat with
          | .error f => .error f
          | .ok d => .ok (s.setResult I.nsym (I.lfsr d), 0#16)

/-- `RSPUT base, stride` (R134): `CW[base + j*stride] <- RES[RLEN-1-j]`. -/
def execRsput (base : BitVec 8) (stride : BitVec 4) (s : State) : Host.Outcome State Fault Refusal :=
  command s <|
    match resultRun s base.toNat stride.toNat with
    | .error f => .error f
    | .ok r => .ok ({ s with cw := s.cw.writeRun base.toNat stride.toNat r.reverse }, 0#16)

/-- `RSCMP base, stride` (R135): all `RLEN` cells are read, even after a mismatch. -/
def execRscmp (base : BitVec 8) (stride : BitVec 4) (s : State) : Host.Outcome State Fault Refusal :=
  command s <|
    match resultRun s base.toNat stride.toNat with
    | .error f => .error f
    | .ok r =>
      match readRun s.cw base.toNat stride.toNat s.rlen.toNat with
      | .error f => .error f
      | .ok stored => .ok (s.setMatch (eccEqual stored r), bitData (eccEqual stored r))

/-- `RESLD k` (R136): `k ≥ RLEN` is `UNWRITTEN`. -/
def execResld (k : BitVec 5) (s : State) : Host.Outcome State Fault Refusal :=
  command s <|
    if s.rlen.toNat ≤ k.toNat then .error .unwritten
    else match s.resCell k.toNat with
      | none => .error .unwritten
      | some v => .ok (s, v.setWidth 16)

end Sys2Proof.Machine
end

