-- ==== Sys2Proof/Machine/Pass.lean ====
section
/-! DEFINITION. The Error-Correction Pass (42_ecc_pass.md R150 to R157): `ECCPRI`, `ECCSECE`, `ECCSECO`, `ECCALL`,
`ECCCHK`. -/

namespace Sys2Proof.Machine

/-- A part of the pass: one row of R151. -/
structure Part where
  /-- The slot that serves it. -/
  slot : Fin 3
  /-- The ECC symbol count its slot must hold. -/
  nsym : BitVec 5
  /-- `L`, how many data symbols it has. -/
  len : Nat
  /-- Address of data symbol 0. -/
  dataBase : Nat
  /-- Address of ECC cell 0. -/
  eccBase : Nat
  /-- Address step between successive cells. -/
  stride : Nat
  deriving DecidableEq, Repr

/-- The primary part: the same in every mode (R151; 90_conflicts.md C5). -/
def primaryPart : Part := { slot := 0, nsym := 10#5, len := 10, dataBase := 0, eccBase := 10, stride := 1 }

/-- The secondary even part of a mode (R151, 20_memory.md R53, R54). -/
def evenPart (mode : BitVec 3) : Part :=
  { slot := Config.subSlot mode, nsym := Config.subNsym mode, len := Config.subLength mode,
    dataBase := Config.secondaryBase, eccBase := Config.eccBase mode, stride := 2 }

/-- The secondary odd part of a mode (R151, 20_memory.md R53, R54). -/
def oddPart (mode : BitVec 3) : Part :=
  { slot := Config.subSlot mode, nsym := Config.subNsym mode, len := Config.subLength mode,
    dataBase := Config.secondaryBase + 1, eccBase := Config.eccBase mode + 1, stride := 2 }

/-- The instance that makes a part ready: its slot is constructed with the required count (R151). -/
def partEncoder (s : State) (p : Part) : Except FaultCode Encoder :=
  match s.slots[p.slot] with
  | none => .error .notBuilt
  | some I => if I.nsym = p.nsym then .ok I else .error .notBuilt

/-- `Part(p, write)` (R157): the state after it, and `partmatch`. -/
def runPart (write : Bool) (p : Part) (s : State) : Except FaultCode (State × Bool) :=
  match partEncoder s p with
  | .error f => .error f
  | .ok I =>
    match readRun s.cw p.dataBase p.stride p.len with
    | .error f => .error f
    | .ok d =>
      let r := I.lfsr d
      let t := s.setResult I.nsym r
      if write then .ok ({ t with cw := t.cw.writeRun p.eccBase p.stride r.reverse }, true)
      else match readRun t.cw p.eccBase p.stride I.nsym.toNat with
        | .error f => .error f
        | .ok stored => .ok (t, eccEqual stored r)

/-- The parts one after another; the combined `partmatch` is 1 when all are (R155, R156). -/
def runParts (write : Bool) : List Part → State → Except FaultCode (State × Bool)
  | [], s => .ok (s, true)
  | p :: ps, s =>
    match runPart write p s with
    | .error f => .error f
    | .ok (t, b) =>
      match runParts write ps t with
      | .error f => .error f
      | .ok (u, c) => .ok (u, b && c)

/-- Whether a part is ready (R151). -/
def partReady (s : State) (p : Part) : Bool :=
  match partEncoder s p with
  | .ok _ => true
  | .error _ => false

/-- The parts of one pass command: every part must be ready before any cell is looked at (60_exceptions.md R202), and
the parts are committed together (R157). -/
def passParts (write : Bool) (ps : List Part) (s : State) : Except FaultCode (State × Bool) :=
  if ps.all (partReady s) then runParts write ps s else .error .notBuilt

/-- A pass command that writes: `DATA = 0`, `MATCH` unchanged (R152 to R155). -/
def writingPass (ps : List Part) (s : State) : Except FaultCode (State × Data) :=
  match passParts true ps s with
  | .error f => .error f
  | .ok (t, _) => .ok (t, 0#16)

/-- The three parts of a mode in the order primary, even, odd (R155; 92_eei_decisions.md D26). -/
def allParts (mode : BitVec 3) : List Part := [primaryPart, evenPart mode, oddPart mode]

/-- `ECCPRI` (R152). -/
def execEccpri (s : State) : Host.Outcome State Fault Refusal :=
  command s (writingPass [primaryPart] s)

/-- `ECCSECE mode` (R153). -/
def execEccsece (mode : BitVec 3) (s : State) : Host.Outcome State Fault Refusal :=
  command s <| if !modeLegal mode then .error .badMode else writingPass [evenPart mode] s

/-- `ECCSECO mode` (R154). -/
def execEccseco (mode : BitVec 3) (s : State) : Host.Outcome State Fault Refusal :=
  command s <| if !modeLegal mode then .error .badMode else writingPass [oddPart mode] s

/-- `ECCALL mode` (R155). -/
def execEccall (mode : BitVec 3) (s : State) : Host.Outcome State Fault Refusal :=
  command s <| if !modeLegal mode then .error .badMode else writingPass (allParts mode) s

/-- `ECCCHK mode` (R156). -/
def execEccchk (mode : BitVec 3) (s : State) : Host.Outcome State Fault Refusal :=
  command s <|
    if !modeLegal mode then .error .badMode
    else match passParts false (allParts mode) s with
      | .error f => .error f
      | .ok (t, b) => .ok (t.setMatch b, bitData b)

end Sys2Proof.Machine
end

