-- ==== Sys2Proof/Machine/Dispatch.lean ====
section
/-! DEFINITION. The meaning of every command (30_encoding.md R75): one arm per constructor. -/

namespace Sys2Proof.Machine

def exec (i : Instr) (s : State) : Host.Outcome State Fault Refusal :=
  match i with
  | .rsnew sel nsym root poly => Sys2Proof.Machine.execRsnew sel nsym root poly s
  | .rsenc sel len base stride => Sys2Proof.Machine.execRsenc sel len base stride s
  | .rsput base stride => Sys2Proof.Machine.execRsput base stride s
  | .rscmp base stride => Sys2Proof.Machine.execRscmp base stride s
  | .eccpri => Sys2Proof.Machine.execEccpri s
  | .eccsece mode => Sys2Proof.Machine.execEccsece mode s
  | .eccseco mode => Sys2Proof.Machine.execEccseco mode s
  | .eccall mode => Sys2Proof.Machine.execEccall mode s
  | .eccchk mode => Sys2Proof.Machine.execEccchk mode s
  | .cwst addr val => Sys2Proof.Machine.execCwst addr val s
  | .cwld addr => Sys2Proof.Machine.execCwld addr s
  | .resld k => Sys2Proof.Machine.execResld k s
  | .tblld sel t idx => Sys2Proof.Machine.execTblld sel t idx s
  | .stat => Sys2Proof.Machine.execStat s
  | .cwclr => Sys2Proof.Machine.execCwclr s

end Sys2Proof.Machine
end

