-- ==== Sys2Proof/Machine/Port.lean ====
section
/-! DEFINITION. The command and response ports and their handshake (30_encoding.md R70, R71) and the `rst` input
(70_reset_and_hazards.md R230). The delay between issue and response is not modelled (R238): a command is issued and
its response presented in one step. -/

namespace Sys2Proof.Machine

/-- `cmd_ready`: 0 while `rst` is 1 (R230), and 0 from a command's issue until its response is taken (R71). -/
def State.cmdReady (s : State) (p : PortIn) : Bool := !p.rst && s.rsp.isNone

/-- `rsp_valid`: 0 while `rst` is 1 (R230); otherwise a response word is waiting (R71). -/
def State.rspValid (s : State) (p : PortIn) : Bool := !p.rst && s.rsp.isSome

/-- A response is taken in a cycle where `rsp_valid` and `rsp_ready` are both 1 (R71). -/
def State.takeResponse (s : State) : State :=
  match s.rsp with
  | some w => { s with rsp := none, taken := s.taken ++ [w] }
  | none => s

/-- What a cycle at the ports does. -/
inductive PortEvent where
  /-- No command is issued; the state after the cycle. -/
  | quiet (s : State)
  /-- This command word is issued (R71), to the unit in this state. -/
  | issued (w : Word) (s : State)
  deriving DecidableEq, Repr

/-- One cycle at the ports. A host that drives nothing leaves the unit idle, keeping all its state (60_exceptions.md
R209). `rst` has priority over everything (R230); a response is taken when both sides are ready; a command is issued
when `cmd_valid` and `cmd_ready` are both 1 (R71). -/
def portCycle (s : State) : PortEvent :=
  match s.host with
  | [] => .quiet s
  | p :: rest =>
    let t := { s with host := rest }
    if p.rst then .quiet t.takeReset
    else if t.rspValid p && p.rspReady then .quiet t.takeResponse
    else if t.cmdReady p && p.cmdValid then .issued p.cmdData t
    else .quiet t

/-- The host presents a command word, ready to take a response. -/
def PortIn.present (w : Word) : PortIn := { rst := false, cmdValid := true, cmdData := w, rspReady := true }

/-- The host presents nothing and takes a waiting response. -/
def PortIn.take : PortIn := { rst := false, cmdValid := false, cmdData := 0#32, rspReady := true }

/-- The host holds `rst` at 1 for a cycle. -/
def PortIn.reset : PortIn := { rst := true, cmdValid := false, cmdData := 0#32, rspReady := false }

/-- The cycles in which a host issues a list of command words, each after it has taken the response to the one before
(70_reset_and_hazards.md R239). -/
def hostProgram : List Word → List PortIn
  | [] => []
  | w :: ws => PortIn.present w :: PortIn.take :: hostProgram ws

end Sys2Proof.Machine
end

