-- ==== Sys2Proof/Machine/Step.lean ====
section
/-! DEFINITION. One step of the machine: one cycle at the ports, in which at most one whole command runs
(70_reset_and_hazards.md R238), and where the host's next command word is placed. -/

namespace Sys2Proof.Machine

/-- One step. A cycle that issues a word runs the command it spells, or answers that it spells none. -/
def step (s : State) : Host.Outcome State Fault Refusal :=
  match portCycle s with
  | .quiet t => .next t
  | .issued w t =>
    match decode w with
    | .ok i => exec i t
    | .error _ => .next t.rejectWord

/-- The next cycle presents the command word whose bits are `w` to a unit that has no response waiting. -/
def State.withFetchWord (s : State) (_nbits w : Nat) : State :=
  { s with rsp := none, host := PortIn.present (BitVec.ofNat 32 w) :: s.host }

end Sys2Proof.Machine
end

