-- ==== Sys2Proof/Machine/Assembler.lean ====
section
/-! DEFINITION. The assembler's lines and pseudo-instructions (30_encoding.md R80, R81). No step reads this file: the
assembler is the host's, and what reaches the unit is the command word. -/

namespace Sys2Proof.Machine

/-- An operand as a line spells it: a numeral, or a table's name (`LOG`, `ALOG`, `GEN` stand for 0, 1, 2). -/
inductive AsmOperand where
  | num (n : Nat)
  | table (n : Nat)
  deriving DecidableEq, Repr

/-- An operand that fits its field; any other is refused (R80). -/
def fitField (w n : Nat) : Option (BitVec w) := if n < 2 ^ w then some (BitVec.ofNat w n) else none

/-- `BOOT poly, root` (R81): the three instances of 10, 20 and 28 ECC symbols. -/
def bootSequence (poly : BitVec 8) (root : BitVec 6) : List Instr :=
  [.rsnew 0#2 10#5 root poly, .rsnew 1#2 20#5 root poly, .rsnew 2#2 28#5 root poly]

/-- `BOOTMAXI` (R81, 70_reset_and_hazards.md R232): `BOOT` with the MaxiCode values. -/
def bootMaxi : List Instr := bootSequence Config.maxiPoly Config.maxiRoot

/-- `CHKPRI` (R81): the primary round-trip property as two commands. -/
def chkPri : List Instr := [.rsenc 0#2 10#8 0#8 1#4, .rscmp 10#8 1#4]

/-- `CWST addr, val` with its operands checked against their fields. -/
def asmCwst (addr val : Nat) : Option Instr := do return .cwst (← fitField 8 addr) (← fitField 6 val)

/-- `CWFILL base, stride, count, val` (R81): `CWST base + i*stride, val` for each `i` below `count`. -/
def cwFill (base stride val : Nat) : Nat → Option (List Instr)
  | 0 => some []
  | count + 1 => do return (← asmCwst base val) :: (← cwFill (base + stride) stride val count)

/-- The commands a line stands for (R80, R81): `none` where the mnemonic is unknown, the operands are too many or too
few, or one does not fit its field. A legal spelling that will fault is not refused. -/
def assemble (mnemonic : String) (ops : List AsmOperand) : Option (List Instr) :=
  match mnemonic, ops with
  | "RSNEW", [.num s, .num nsym, .num root, .num poly] => do
      return [.rsnew (← fitField 2 s) (← fitField 5 nsym) (← fitField 6 root) (← fitField 8 poly)]
  | "RSENC", [.num s, .num len, .num base, .num stride] => do
      return [.rsenc (← fitField 2 s) (← fitField 8 len) (← fitField 8 base) (← fitField 4 stride)]
  | "RSPUT", [.num base, .num stride] => do return [.rsput (← fitField 8 base) (← fitField 4 stride)]
  | "RSCMP", [.num base, .num stride] => do return [.rscmp (← fitField 8 base) (← fitField 4 stride)]
  | "ECCPRI", [] => some [.eccpri]
  | "ECCSECE", [.num mode] => do return [.eccsece (← fitField 3 mode)]
  | "ECCSECO", [.num mode] => do return [.eccseco (← fitField 3 mode)]
  | "ECCALL", [.num mode] => do return [.eccall (← fitField 3 mode)]
  | "ECCCHK", [.num mode] => do return [.eccchk (← fitField 3 mode)]
  | "CWST", [.num addr, .num val] => do return [← asmCwst addr val]
  | "CWLD", [.num addr] => do return [.cwld (← fitField 8 addr)]
  | "RESLD", [.num k] => do return [.resld (← fitField 5 k)]
  | "TBLLD", [.num s, .num t, .num idx] => do
      return [.tblld (← fitField 2 s) (← fitField 2 t) (← fitField 8 idx)]
  | "TBLLD", [.num s, .table t, .num idx] => do
      return [.tblld (← fitField 2 s) (← fitField 2 t) (← fitField 8 idx)]
  | "STAT", [] => some [.stat]
  | "CWCLR", [] => some [.cwclr]
  | "BOOT", [.num poly, .num root] => do return bootSequence (← fitField 8 poly) (← fitField 6 root)
  | "BOOTMAXI", [] => some bootMaxi
  | "CWFILL", [.num base, .num stride, .num count, .num val] => cwFill base stride val count
  | "CHKPRI", [] => some chkPri
  | _, _ => none

/-- The value of a digit character in a base. -/
def digitValue (base : Nat) (c : Char) : Option Nat :=
  let n := c.toNat
  let v :=
    if 48 ≤ n ∧ n ≤ 57 then n - 48
    else if 65 ≤ n ∧ n ≤ 70 then n - 55
    else if 97 ≤ n ∧ n ≤ 102 then n - 87
    else 16
  if v < base then some v else none

/-- The value of a string of digits in a base, after the digits that make `acc`. -/
def digitsValue (base : Nat) : Nat → List Char → Option Nat
  | acc, [] => some acc
  | acc, c :: cs => do digitsValue base (acc * base + (← digitValue base c)) cs

/-- A numeral, decimal or `0x` hexadecimal, or a table's name (R80). -/
def asmOperand : List Char → Option AsmOperand
  | ['L', 'O', 'G'] => some (.table 0)
  | ['A', 'L', 'O', 'G'] => some (.table 1)
  | ['G', 'E', 'N'] => some (.table 2)
  | '0' :: 'x' :: c :: cs => (digitsValue 16 0 (c :: cs)).map .num
  | c :: cs => (digitsValue 10 0 (c :: cs)).map .num
  | [] => none

/-- The characters of a line without its comment, which `;` starts (R80). -/
def dropComment (line : List Char) : List Char := line.takeWhile (· != ';')

/-- The characters without spaces at either end. -/
def trimBlanks (cs : List Char) : List Char :=
  ((cs.dropWhile (· == ' ')).reverse.dropWhile (· == ' ')).reverse

/-- The operands of a line, separated by commas (R80). -/
def asmOperands (cs : List Char) : Option (List AsmOperand) :=
  if trimBlanks cs = [] then some [] else (cs.splitOn ',').mapM fun o => asmOperand (trimBlanks o)

/-- The commands one line of text stands for; a line with nothing but blanks and a comment stands for none (R80). -/
def assembleLine (line : List Char) : Option (List Instr) :=
  let code := trimBlanks (dropComment line)
  if code = [] then some []
  else do assemble (String.ofList (code.takeWhile (· != ' '))) (← asmOperands (code.dropWhile (· != ' ')))

/-- The command words of a list of commands. -/
def words (is : List Instr) : List Word := is.map encode

end Sys2Proof.Machine
end

