-- ==== Sys2Proof/Safety.lean ====
section
/-! DEFINITION. What a sound state is (the invariants the spec states of the unit's state), what one step may change,
syndromes, and what a run that passes is, in the terms the statements use. -/

namespace Sys2Proof.Machine

/-- An encoder instance as `RSNEW` leaves it (10_state.md R22; 40_field_and_construction.md R111): a legal symbol count, and all its
fields those that construction gives for its `POLY`, `NSYM` and `ROOT`. -/
def Encoder.sound (I : Encoder) : Bool :=
  nsymLegal I.nsym && (construct (I.poly.setWidth 8) I.nsym I.root == some I)

/-- R27's invariant: `RLEN` is at most 28, and `RES[k]` is a value exactly when `k < RLEN`. -/
abbrev State.resultSound (s : State) : Prop :=
  s.rlen.toNat ≤ 28 ∧ ∀ k : Fin 28, s.res[k].isSome = decide (k.val < s.rlen.toNat)

/-- A response word of R78's form with a code of R200: bits 27:16 are 0, the code is at most 9, and `DATA` is 0 when
the code is not 0. -/
def responseSound (w : Word) : Bool :=
  w.extractLsb' 16 12 == 0#12 && (w.extractLsb' 28 4).toNat ≤ 9 &&
    (w.extractLsb' 28 4 == 0#4 || w.extractLsb' 0 16 == 0#16)

/-- The invariant of the unit's state: the buffer in its canonical form with no cell outside 0 to 143 (20_memory.md
R50), R27's invariant of the shift register, a fault code of R200 in `ERR` (never 9, R200; never 10 to 15), every
constructed slot sound, and response words of R78's form. -/
structure State.Inv (s : State) : Prop where
  cw : s.cw.wf
  result : s.resultSound
  err : s.err.toNat ≤ 8
  slots : ∀ (i : Fin 3) (I : Encoder), s.slots[i] = some I → I.sound = true
  rsp : ∀ w, s.rsp = some w → responseSound w = true
  taken : ∀ w ∈ s.taken, responseSound w = true

/-- The next cycle holds `rst` at 1. -/
def State.resetNext (s : State) : Bool :=
  match s.host with
  | [] => false
  | p :: _ => p.rst

/-- The response a command gives: the state it leaves presents this word. -/
def answers (o : Host.Outcome State Fault Refusal) (w : Word) : Prop :=
  ∃ t, o = .next t ∧ t.rsp = some w

/-- A command that faults with code `f` on an un-halted unit, as 60_exceptions.md R203 has it: the state before it with
`ERR` set and the response `FAULT = f`, `DATA = 0`. -/
def faultsWith (o : Host.Outcome State Fault Refusal) (s : State) (f : FaultCode) : Prop :=
  o = .next { s with err := f.code, rsp := some (f.code ++ 0#28) }

/-- A block of symbols as a polynomial in falling powers, evaluated at a field element by Horner's rule
(40_field_and_construction.md R114). -/
def Encoder.blockAt (I : Encoder) (c : List Sym) (x : Sym) : Sym :=
  c.foldl (fun acc v => I.gfmul acc x ^^^ v) 0#6

/-- The syndrome `S_j = c(alpha^(ROOT+j))` of a block (R114). -/
def Encoder.syndrome (I : Encoder) (c : List Sym) (j : Nat) : Sym :=
  I.blockAt c (I.alogMod (I.root.toNat + j))

/-! ## Table-free arithmetic, to hold the tables against -/

/-- The carry-less product of two symbols as polynomials over GF(2), not reduced. -/
def carrylessProduct (a b : Sym) : BitVec 12 :=
  (List.range 6).foldl (fun acc i => if b.getLsbD i then acc ^^^ (a.setWidth 12 <<< i) else acc) 0#12

/-- The remainder of a polynomial of degree at most 11 by one of degree 6. -/
def reduceBy (poly : BitVec 7) (q : BitVec 12) : Sym :=
  ((List.range 6).foldl
    (fun acc i => if acc.getLsbD (11 - i) then acc ^^^ (poly.setWidth 12 <<< (5 - i)) else acc) q).setWidth 6

/-- The product of two polynomials over the field of `I`, coefficient of `x^0` first. -/
def Encoder.polyMul (I : Encoder) : List Sym → List Sym → List Sym
  | [], _ => []
  | [c], g => g.map (I.gfmul c)
  | c :: cs, g => List.zipWithAll (fun x y => x.getD 0#6 ^^^ y.getD 0#6) (g.map (I.gfmul c)) (0#6 :: I.polyMul cs g)

/-! ## Runs -/

/-- The host is given a list of command words to issue (70_reset_and_hazards.md R239). -/
def State.load (s : State) (ws : List Word) : State := { s with host := hostProgram ws }

/-- A run (70_reset_and_hazards.md R239): each word is issued after the response to the one before was taken, two
cycles a word; the run ends when the list is exhausted. -/
def runWords (s : State) (ws : List Word) : Host.Outcome State Fault Refusal :=
  Sys2Proof.core.run (2 * ws.length) (s.load ws)

/-- `MATCH` is 1 in the state a run ends in. -/
def endsInMatch (o : Host.Outcome State Fault Refusal) : Bool :=
  match o with
  | .next u => u.matchFlag
  | _ => false

/-- R240's convention: a run of the words `ws` from the state after reset passes when every response has `FAULT = 0`
and, where the test says so, `MATCH = 1`. The test says so by `matchAt`: for each number `k` in it, `MATCH` is 1 after
the first `k` commands (the whole list, if it has no more than `k`). That this is how a test says so is the model's
reading (log entry 15). -/
def runPasses (ws : List Word) (matchAt : List Nat) : Bool :=
  match runWords State.reset ws with
  | .next t => (t.taken.all fun w => w.extractLsb' 28 4 == 0#4) &&
      matchAt.all fun k => endsInMatch (runWords State.reset (ws.take k))
  | _ => false

/-- The `match` and `mask` columns of R75, in the table's order. -/
def opcodeRows : List (Word × Word) :=
  [(0x01000000#32, 0xFF00E000#32), (0x02000000#32, 0xFF300000#32), (0x03000000#32, 0xFFF000FF#32),
   (0x04000000#32, 0xFFF000FF#32), (0x08000000#32, 0xFFFFFFFF#32), (0x09000000#32, 0xFFFFFFF8#32),
   (0x0A000000#32, 0xFFFFFFF8#32), (0x0B000000#32, 0xFFFFFFF8#32), (0x0C000000#32, 0xFFFFFFF8#32),
   (0x10000000#32, 0xFFFF00C0#32), (0x11000000#32, 0xFFFF00FF#32), (0x12000000#32, 0xFFFFFFE0#32),
   (0x13000000#32, 0xFF0FFF00#32), (0x14000000#32, 0xFFFFFFFF#32), (0x15000000#32, 0xFFFFFFFF#32)]

/-- The six polynomials that construction accepts (40_field_and_construction.md R105). -/
def acceptedPolys : List (BitVec 8) := [0x43#8, 0x5B#8, 0x61#8, 0x67#8, 0x6D#8, 0x73#8]

end Sys2Proof.Machine
end

