-- ==== Sys2Proof/Certificates/Slice0/Obligations.lean ====
section
/-! DEFINITION. The statements for the provers, in the order of spec/: decoding, the ports and reset, faults and the
halted state, what each command writes, construction, encode, the pass, host access, runs. -/

open Sys2Proof Sys2Proof.Machine

/-! ## Decoding (30_encoding.md) -/

/-- Every command is read back from the word that spells it: no operand bit of an encoding is dropped. -/
def Obligations.DecodeReadsBackEveryEncodedCommand : Prop :=
  ∀ i : Instr, decode (encode i) = .ok i

/-- A word that decodes is the word its command is spelled by: no two words spell one command, so every must-be-zero
bit counts (R77, R82). -/
def Obligations.EncodeGivesBackEveryDecodedWord : Prop :=
  ∀ (w : Word) (i : Instr), decode w = .ok i → encode i = w

/-- R73's fields and R75's table: a word spells a command, with the operands its format's bits hold, exactly when
`(w & mask) = match`. -/
def Obligations.DecodeFollowsTheOpcodeTable : Prop :=
  ∀ w : Word,
    (w &&& 0xFF00E000#32 = 0x01000000#32 ↔ decode w = .ok
      (.rsnew (w.extractLsb' 22 2) (w.extractLsb' 8 5) (w.extractLsb' 16 6) (w.extractLsb' 0 8))) ∧
    (w &&& 0xFF300000#32 = 0x02000000#32 ↔ decode w = .ok
      (.rsenc (w.extractLsb' 22 2) (w.extractLsb' 0 8) (w.extractLsb' 8 8) (w.extractLsb' 16 4))) ∧
    (w &&& 0xFFF000FF#32 = 0x03000000#32 ↔ decode w = .ok (.rsput (w.extractLsb' 8 8) (w.extractLsb' 16 4))) ∧
    (w &&& 0xFFF000FF#32 = 0x04000000#32 ↔ decode w = .ok (.rscmp (w.extractLsb' 8 8) (w.extractLsb' 16 4))) ∧
    (w &&& 0xFFFFFFFF#32 = 0x08000000#32 ↔ decode w = .ok .eccpri) ∧
    (w &&& 0xFFFFFFF8#32 = 0x09000000#32 ↔ decode w = .ok (.eccsece (w.extractLsb' 0 3))) ∧
    (w &&& 0xFFFFFFF8#32 = 0x0A000000#32 ↔ decode w = .ok (.eccseco (w.extractLsb' 0 3))) ∧
    (w &&& 0xFFFFFFF8#32 = 0x0B000000#32 ↔ decode w = .ok (.eccall (w.extractLsb' 0 3))) ∧
    (w &&& 0xFFFFFFF8#32 = 0x0C000000#32 ↔ decode w = .ok (.eccchk (w.extractLsb' 0 3))) ∧
    (w &&& 0xFFFF00C0#32 = 0x10000000#32 ↔ decode w = .ok (.cwst (w.extractLsb' 8 8) (w.extractLsb' 0 6))) ∧
    (w &&& 0xFFFF00FF#32 = 0x11000000#32 ↔ decode w = .ok (.cwld (w.extractLsb' 8 8))) ∧
    (w &&& 0xFFFFFFE0#32 = 0x12000000#32 ↔ decode w = .ok (.resld (w.extractLsb' 0 5))) ∧
    (w &&& 0xFF0FFF00#32 = 0x13000000#32 ↔ decode w = .ok
      (.tblld (w.extractLsb' 22 2) (w.extractLsb' 20 2) (w.extractLsb' 0 8))) ∧
    (w &&& 0xFFFFFFFF#32 = 0x14000000#32 ↔ decode w = .ok .stat) ∧
    (w &&& 0xFFFFFFFF#32 = 0x15000000#32 ↔ decode w = .ok .cwclr)

/-- R80: the word of each command is its row's constant with each operand shifted to its place. -/
def Obligations.EncodeIsTheAssemblersWord : Prop :=
  (∀ (s : BitVec 2) (nsym : BitVec 5) (root : BitVec 6) (poly : BitVec 8), encode (.rsnew s nsym root poly) =
    0x01000000#32 ||| s.setWidth 32 <<< 22 ||| root.setWidth 32 <<< 16 ||| nsym.setWidth 32 <<< 8 ||| poly.setWidth 32) ∧
  (∀ (s : BitVec 2) (len base : BitVec 8) (stride : BitVec 4), encode (.rsenc s len base stride) =
    0x02000000#32 ||| s.setWidth 32 <<< 22 ||| stride.setWidth 32 <<< 16 ||| base.setWidth 32 <<< 8 ||| len.setWidth 32) ∧
  (∀ (base : BitVec 8) (stride : BitVec 4),
    encode (.rsput base stride) = 0x03000000#32 ||| stride.setWidth 32 <<< 16 ||| base.setWidth 32 <<< 8 ∧
    encode (.rscmp base stride) = 0x04000000#32 ||| stride.setWidth 32 <<< 16 ||| base.setWidth 32 <<< 8) ∧
  (∀ mode : BitVec 3, encode (.eccsece mode) = 0x09000000#32 ||| mode.setWidth 32 ∧
    encode (.eccseco mode) = 0x0A000000#32 ||| mode.setWidth 32 ∧
    encode (.eccall mode) = 0x0B000000#32 ||| mode.setWidth 32 ∧
    encode (.eccchk mode) = 0x0C000000#32 ||| mode.setWidth 32) ∧
  (∀ (addr : BitVec 8) (val : Sym),
    encode (.cwst addr val) = 0x10000000#32 ||| addr.setWidth 32 <<< 8 ||| val.setWidth 32 ∧
    encode (.cwld addr) = 0x11000000#32 ||| addr.setWidth 32 <<< 8) ∧
  (∀ k : BitVec 5, encode (.resld k) = 0x12000000#32 ||| k.setWidth 32) ∧
  (∀ (s t : BitVec 2) (idx : BitVec 8), encode (.tblld s t idx) =
    0x13000000#32 ||| s.setWidth 32 <<< 22 ||| t.setWidth 32 <<< 20 ||| idx.setWidth 32) ∧
  encode .eccpri = 0x08000000#32 ∧ encode .stat = 0x14000000#32 ∧ encode .cwclr = 0x15000000#32

/-- R83: a word matches at most one row of R75; it decodes exactly when it matches one; and a word that matches none
faults `ILLEGAL` when it is issued to a unit that is not halted. -/
def Obligations.EveryWordMatchesOneRowOrFaultsIllegal : Prop :=
  ∀ w : Word, (opcodeRows.filter fun r => w &&& r.2 == r.1).length ≤ 1 ∧
    ((∃ i, decode w = .ok i) ↔ (opcodeRows.filter fun r => w &&& r.2 == r.1).length = 1) ∧
    ((opcodeRows.filter fun r => w &&& r.2 == r.1).length = 0 →
      ∀ (s : State) (p : PortIn) (rest : List PortIn),
        s.host = p :: rest → p.rst = false → p.cmdValid = true → p.cmdData = w → s.rsp = none → s.err = 0#4 →
        step s = .next { s with host := rest, err := 1#4, rsp := some 0x10000000#32 })

/-- A few words written out from R73's formats and R80's table. A sanity statement on fixed words. -/
def Obligations.DecodeSampleWords : Prop :=
  decode 0x01010A43#32 = .ok (.rsnew 0#2 10#5 1#6 0x43#8) ∧
  decode 0x02821422#32 = .ok (.rsenc 2#2 34#8 20#8 2#4) ∧
  decode 0x03025800#32 = .ok (.rsput 88#8 2#4) ∧
  decode 0x0B000004#32 = .ok (.eccall 4#3) ∧
  decode 0x10001421#32 = .ok (.cwst 20#8 33#6) ∧
  decode 0x13A0001C#32 = .ok (.tblld 2#2 2#2 28#8) ∧
  decode 0x12000020#32 = .error .mustBeZero ∧
  decode 0x00000000#32 = .error .reservedOpcode

/-- R76: a word whose opcode spells no command faults `ILLEGAL` when it is issued to a unit that is not halted. The
all-zero and the all-ones word are such words. -/
def Obligations.ReservedOpcodeFaultsIllegal : Prop :=
  ∀ (s : State) (p : PortIn) (rest : List PortIn),
    s.host = p :: rest → p.rst = false → p.cmdValid = true → s.rsp = none → s.err = 0#4 →
    (let opc := (p.cmdData.extractLsb' 24 8).toNat
     opc = 0x00 ∨ (0x05 ≤ opc ∧ opc ≤ 0x07) ∨ (0x0D ≤ opc ∧ opc ≤ 0x0F) ∨ 0x16 ≤ opc) →
    step s = .next { s with host := rest, err := 1#4, rsp := some 0x10000000#32 }

/-- R77: a word whose opcode is that of the command `i`, but which does not have R75's `match` under its `mask`,
faults `ILLEGAL` when it is issued to a unit that is not halted. -/
def Obligations.MustBeZeroBitFaultsIllegal : Prop :=
  ∀ (s : State) (p : PortIn) (rest : List PortIn) (i : Instr),
    s.host = p :: rest → p.rst = false → p.cmdValid = true → s.rsp = none → s.err = 0#4 →
    p.cmdData.extractLsb' 24 8 = i.rowMatch.extractLsb' 24 8 → p.cmdData &&& i.rowMask ≠ i.rowMatch →
    step s = .next { s with host := rest, err := 1#4, rsp := some 0x10000000#32 }

/-! ## The ports, reset and the step (30_encoding.md R70, R71; 10_state.md R35; 70_reset_and_hazards.md) -/

/-- A cycle that issues a word which decodes runs the command it spells, on the state whose host has moved past that
cycle. -/
def Obligations.StepRunsTheDecodedCommand : Prop :=
  ∀ (s : State) (p : PortIn) (rest : List PortIn) (i : Instr),
    s.host = p :: rest → p.rst = false → p.cmdValid = true → s.rsp = none → decode p.cmdData = .ok i →
    step s = exec i { s with host := rest }

/-- A waiting response holds `cmd_ready` at 0 until the host takes it: no command is issued, and the word goes to the
host when `rsp_ready` is 1 (R71). That `cmd_ready` is still 0, and no command is issued, in the very cycle in which the
response is taken is the model's reading of R71 (DEDUCED, log entry 12). A cycle with no command presented leaves the unit as it is, and so does
a host whose list is at its end, which the model takes for an idle host (its choice, log entry 1). -/
def Obligations.ResponseIsTakenBeforeTheNextCommand : Prop :=
  ∀ (s : State) (p : PortIn) (rest : List PortIn), s.host = p :: rest → p.rst = false →
    (∀ w, s.rsp = some w → s.cmdReady p = false ∧ s.rspValid p = true ∧
      (p.rspReady = true → step s = .next { s with host := rest, rsp := none, taken := s.taken ++ [w] }) ∧
      (p.rspReady = false → step s = .next { s with host := rest })) ∧
    (s.rsp = none → s.cmdReady p = true ∧ s.rspValid p = false ∧
      (p.cmdValid = false → step s = .next { s with host := rest })) ∧
    step { s with host := [] } = .next { s with host := [] }

/-- Every command, whatever its operands and the state, answers exactly one response word, and moves no list of the
host's. -/
def Obligations.EveryCommandAnswersOneResponse : Prop :=
  ∀ (i : Instr) (s : State), ∃ (t : State) (w : Word),
    exec i s = .next t ∧ t.rsp = some w ∧ t.host = s.host ∧ t.taken = s.taken

/-- R78 on a unit that was not halted: `FAULT` is the code the command left in `ERR` (0 if it completed), bits 27:16
are 0, and `DATA` is 0 when `FAULT` is not 0. On a halted unit `FAULT` is 9 with `DATA = 0`, but for `STAT`, which
completes. -/
def Obligations.ResponseWordHasItsForm : Prop :=
  ∀ (i : Instr) (s t : State) (w : Word), exec i s = .next t → t.rsp = some w →
    w.extractLsb' 16 12 = 0#12 ∧ (w.extractLsb' 28 4 ≠ 0#4 → w.extractLsb' 0 16 = 0#16) ∧
    (s.err = 0#4 → w.extractLsb' 28 4 = t.err) ∧
    (s.err ≠ 0#4 → w.extractLsb' 28 4 = if i = .stat then 0#4 else 9#4)

/-- R35 and R231: every piece of state after reset, `STATUS`, and the first response to a `STAT`. -/
def Obligations.StateAfterReset : Prop :=
  (∀ i : Fin 3, State.reset.slots[i] = none) ∧ (∀ k, State.reset.resCell k = none) ∧
  State.reset.rlen = 0#5 ∧ State.reset.matchFlag = false ∧ State.reset.err = 0#4 ∧
  (∀ a, State.reset.cw.read a = none) ∧ State.reset.status = 0x0000#16 ∧
  exec .stat State.reset = .next { State.reset with rsp := some 0x00000000#32 }

/-- `rst` has priority over everything: while it is 1 the unit takes no command and shows no response, a waiting
response is withdrawn, and the unit is left in the state after reset (R230). The two lists are the host's and stay (log
entry 1). -/
def Obligations.ResetHasPriority : Prop :=
  ∀ (s : State) (p : PortIn) (rest : List PortIn), s.host = p :: rest → p.rst = true →
    s.cmdReady p = false ∧ s.rspValid p = false ∧
    step s = .next { State.reset with host := rest, taken := s.taken }

/-- The invariant of Safety.lean holds after reset. -/
def Obligations.ResetIsSound : Prop := State.reset.Inv

/-- Every step keeps the invariant: the buffer stays in its canonical form and inside 0 to 143, `RES[k]` is a value
exactly when `k < RLEN` (R27), `ERR` is a code of R200 that is recorded, every constructed slot is what construction gives
(R22), and every response word has R78's form. -/
def Obligations.StepKeepsTheInvariant : Prop :=
  ∀ s t : State, s.Inv → step s = .next t → t.Inv

/-! ## Faults and the halted state (60_exceptions.md) -/

/-- R203, over every word at once: if a word issued to a unit that is not halted leaves `ERR` non-zero, then `ERR`
holds a code 1 to 8, nothing else of the unit's state changed, the response is that code with `DATA = 0`, and the unit is
halted. -/
def Obligations.FaultChangesOnlyErr : Prop :=
  ∀ (s t : State) (p : PortIn) (rest : List PortIn),
    s.host = p :: rest → p.rst = false → p.cmdValid = true → s.rsp = none → s.err = 0#4 →
    step s = .next t → t.err ≠ 0#4 →
    1 ≤ t.err.toNat ∧ t.err.toNat ≤ 8 ∧ t.isHalted = true ∧
      t = { s with host := rest, err := t.err, rsp := some (t.err ++ 0#28) }

/-- R204: a halted unit answers `HALTED` to every word but exactly `0x14000000`, which it answers with `STATUS`, and
nothing else of the unit changes. -/
def Obligations.HaltedUnitAnswersOnlyStat : Prop :=
  ∀ (s : State) (p : PortIn) (rest : List PortIn),
    s.host = p :: rest → p.rst = false → p.cmdValid = true → s.rsp = none → s.err ≠ 0#4 →
    step s = .next { s with host := rest, rsp := some (
      if p.cmdData = 0x14000000#32 then 0#16 ++ s.status else 0x90000000#32) }

/-- R205: a step of a halted unit changes none of its state and answers nothing but `HALTED` and `STATUS`, unless the
cycle holds `rst` at 1; that step leaves the halted state, and empties the slots and the buffer. -/
def Obligations.OnlyResetLeavesTheHaltedState : Prop :=
  ∀ s t : State, s.err ≠ 0#4 → step s = .next t →
    (s.resetNext = false → t.err = s.err ∧ t.slots = s.slots ∧ t.res = s.res ∧ t.rlen = s.rlen ∧
      t.matchFlag = s.matchFlag ∧ t.cw = s.cw ∧
      (t.rsp = s.rsp ∨ t.rsp = none ∨ t.rsp = some 0x90000000#32 ∨ t.rsp = some (0#16 ++ s.status))) ∧
    (s.resetNext = true → t.err = 0#4 ∧ (∀ i : Fin 3, t.slots[i] = none) ∧ ∀ a, t.cw.read a = none)

/-- R200's column "raised by": which commands can leave which code in `ERR`. No command that decodes raises `ILLEGAL`. -/
def Obligations.FaultCodesAreRaisedOnlyByTheirCommands : Prop :=
  ∀ (i : Instr) (s t : State), s.err = 0#4 → exec i s = .next t →
    t.err ≠ 1#4 ∧
    (t.err = 2#4 → ∃ sel nsym root poly, i = .rsnew sel nsym root poly) ∧
    (t.err = 3#4 → match i with
      | .rsnew .. | .rsenc .. | .rsput .. | .rscmp .. | .tblld .. => True | _ => False) ∧
    (t.err = 4#4 → match i with
      | .rsenc .. | .tblld .. | .eccpri | .eccsece _ | .eccseco _ | .eccall _ | .eccchk _ => True | _ => False) ∧
    (t.err = 5#4 → match i with
      | .rsenc .. | .rsput .. | .rscmp .. | .cwst .. | .cwld _ | .tblld .. => True | _ => False) ∧
    (t.err = 6#4 → match i with
      | .rsenc .. | .rsput .. | .rscmp .. | .resld _ | .cwld _ | .tblld .. | .eccpri | .eccsece _ | .eccseco _
      | .eccall _ | .eccchk _ => True | _ => False) ∧
    (t.err = 7#4 → match i with
      | .eccsece _ | .eccseco _ | .eccall _ | .eccchk _ => True | _ => False) ∧
    (t.err = 8#4 → ∃ sel nsym root poly, i = .rsnew sel nsym root poly)

/-- An operand value that R74 calls illegal by itself faults on a unit that is not halted, with the code R74 names:
`BAD_MODE` for a mode, `ADDR_RANGE` for an address of `CWST` or `CWLD`, `BAD_PARAM` for the rest. -/
def Obligations.IllegalOperandValueFaults : Prop :=
  ∀ (i : Instr) (s : State), s.err = 0#4 → i.wellFormed = false →
    faultsWith (exec i s) s (match i with
      | .eccsece _ | .eccseco _ | .eccall _ | .eccchk _ => .badMode
      | .cwst .. | .cwld _ => .addrRange
      | _ => .badParam)

/-! ## What each command writes (10_state.md) -/

/-- Only `RSNEW` writes a slot; only the encoding commands and `CWCLR` write `RES` and `RLEN` (R26); only `RSCMP`,
`ECCCHK` and `CWCLR` write `MATCH` (R29); only `CWST`, `RSPUT`, the writing pass commands and `CWCLR` write `CW`. -/
def Obligations.EachCommandWritesOnlyItsOwnState : Prop :=
  ∀ (i : Instr) (s t : State), exec i s = .next t →
    (match i with | .rsnew .. => True | _ => t.slots = s.slots) ∧
    (match i with
      | .rsenc .. | .eccpri | .eccsece _ | .eccseco _ | .eccall _ | .eccchk _ | .cwclr => True
      | _ => t.res = s.res ∧ t.rlen = s.rlen) ∧
    (match i with | .rscmp .. | .eccchk _ | .cwclr => True | _ => t.matchFlag = s.matchFlag) ∧
    (match i with
      | .cwst .. | .rsput .. | .eccpri | .eccsece _ | .eccseco _ | .eccall _ | .cwclr => True
      | _ => t.cw = s.cw)

/-- R36: a constructed slot keeps its instance through every step in which `rst` is 0; a second `RSNEW` on it faults
`ALREADY_BUILT`; `rst` empties it. -/
def Obligations.ConstructedSlotIsImmutable : Prop :=
  ∀ (s t : State) (i : Fin 3) (I : Encoder), s.slots[i] = some I →
    (step s = .next t → s.resetNext = false → t.slots[i] = some I) ∧
    (step s = .next t → s.resetNext = true → t.slots[i] = none) ∧
    (∀ sel nsym root poly, s.err = 0#4 → sel.toNat = i.val → 1 ≤ nsym.toNat → nsym.toNat ≤ 28 →
      faultsWith (exec (.rsnew sel nsym root poly) s) s .alreadyBuilt)

/-- No address has a side effect on read (R59): `CWLD`, `RESLD`, `TBLLD` and `STAT` that complete change nothing but
the response, and issued again give the same response. -/
def Obligations.ReadsHaveNoSideEffect : Prop :=
  ∀ (i : Instr) (s t : State), exec i s = .next t → t.err = s.err →
    (match i with | .cwld _ | .resld _ | .tblld .. | .stat => True | _ => False) →
    t = { s with rsp := t.rsp } ∧ exec i t = .next t

/-! ## Construction (40_field_and_construction.md) -/

/-- R105: construction accepts exactly six of the 256 values `poly` can spell. A finite table, on fixed words. -/
def Obligations.ConstructionAcceptsSixPolynomials : Prop :=
  ∀ poly : BitVec 8, (buildTables poly).isSome = decide (poly ∈ acceptedPolys)

/-- `RSNEW` completes (R111): a legal count, an empty slot and an accepted polynomial give an instance of that
polynomial, count and first root in that slot and nothing else; its `ALOG` is the powers of alpha, `LOG` their
inverse with no entry for 0 (R104), and its generator is monic with one coefficient more than symbols (R25). The
instance is sound: every field, `GEN` among them, is what construction gives for these operands (R109), so the laws of
sound instances, the roots of the generator among them, hold of it. -/
def Obligations.RsnewConstructsAnInstance : Prop :=
  ∀ (sel : BitVec 2) (nsym : BitVec 5) (root : BitVec 6) (poly : BitVec 8) (s : State) (i : Fin 3),
    s.err = 0#4 → sel.toNat = i.val → 1 ≤ nsym.toNat → nsym.toNat ≤ 28 → s.slots[i] = none → poly ∈ acceptedPolys →
    ∃ I : Encoder,
      exec (.rsnew sel nsym root poly) s =
        .next { s with slots := s.slots.set i (some I), rsp := some 0x00000000#32 } ∧
      I.poly = poly.setWidth 7 ∧ I.nsym = nsym ∧ I.root = root ∧ I.n = 63 ∧
      I.alog[0] = 1#6 ∧ (∀ e (h : e + 1 < 63), I.alog[e + 1] = timesAlpha poly I.alog[e]) ∧
      I.log[0] = none ∧ (∀ e (h : e < 63), I.log[symIndex I.alog[e]] = some (BitVec.ofNat 6 e)) ∧
      I.gen.length = nsym.toNat + 1 ∧ I.gen[nsym.toNat]? = some 1#6 ∧ I.sound = true

/-- `RSNEW`'s checks in R111's order: slot 3 or an illegal count, then a slot already built, then construction. -/
def Obligations.RsnewFaultsInOrder : Prop :=
  ∀ (sel : BitVec 2) (nsym : BitVec 5) (root : BitVec 6) (poly : BitVec 8) (s : State), s.err = 0#4 →
    (sel = 3#2 ∨ nsym.toNat = 0 ∨ 28 < nsym.toNat → faultsWith (exec (.rsnew sel nsym root poly) s) s .badParam) ∧
    (∀ i : Fin 3, sel.toNat = i.val → 1 ≤ nsym.toNat → nsym.toNat ≤ 28 →
      ((∃ I, s.slots[i] = some I) → faultsWith (exec (.rsnew sel nsym root poly) s) s .alreadyBuilt) ∧
      (s.slots[i] = none → poly ∉ acceptedPolys → faultsWith (exec (.rsnew sel nsym root poly) s) s .construction))

/-- R106's laws of a sound instance: the tables are inverse bijections with the values R106 lists; multiplying by 2 is
the shift and reduction; `gfmul` is commutative and associative, distributes over `^`, has identity 1 and inverses,
and equals the carry-less product reduced modulo `POLY`. -/
def Obligations.InstanceLaws : Prop :=
  ∀ I : Encoder, I.sound = true →
    (∀ a : Sym, a ≠ 0#6 → ∃ e : Sym, I.log[symIndex a] = some e ∧ e.toNat < 63 ∧ I.alogMod e.toNat = a) ∧
    (∀ e, e < 63 → I.alogMod e ≠ 0#6 ∧ I.log[symIndex (I.alogMod e)] = some (BitVec.ofNat 6 e)) ∧
    I.alogMod 0 = 1#6 ∧ I.alogMod 1 = 2#6 ∧ I.log[symIndex 1#6] = some 0#6 ∧ I.log[symIndex 2#6] = some 1#6 ∧
    (∀ e, I.alogMod (e + 1) = I.gfmul (I.alogMod e) 2#6) ∧
    (∀ a : Sym, I.gfmul a 2#6 = timesAlpha (I.poly.setWidth 8) a) ∧
    (∀ a b : Sym, I.gfmul a b = I.gfmul b a) ∧
    (∀ a b c : Sym, I.gfmul (I.gfmul a b) c = I.gfmul a (I.gfmul b c)) ∧
    (∀ a b c : Sym, I.gfmul a (b ^^^ c) = I.gfmul a b ^^^ I.gfmul a c) ∧
    (∀ a : Sym, I.gfmul a 1#6 = a) ∧
    (∀ a : Sym, a ≠ 0#6 → I.gfmul a (I.alogMod (63 - I.logNat a)) = 1#6) ∧
    (∀ a b : Sym, I.gfmul a b = reduceBy I.poly (carrylessProduct a b))

/-- The generator of a sound instance (R108): `NSYM + 1` coefficients, monic, `GEN[0]` not 0, and 0 at each of the
`NSYM` consecutive powers of alpha from `alpha^ROOT`. -/
def Obligations.GeneratorVanishesAtItsRoots : Prop :=
  ∀ I : Encoder, I.sound = true →
    I.gen.length = I.nsym.toNat + 1 ∧ I.gen[I.nsym.toNat]? = some 1#6 ∧ I.gen[0]? ≠ some 0#6 ∧
    ∀ j, j < I.nsym.toNat → I.blockAt I.gen.reverse (I.alogMod (I.root.toNat + j)) = 0#6

/-- The generator coefficients of R110's 10-symbol MaxiCode instance. Fixed numbers from the spec's list. -/
def Obligations.MaxiCodeGeneratorOfTenSymbols : Prop :=
  (construct 0x43#8 10#5 1#6).map (·.gen) =
    some [46#6, 44#6, 49#6, 3#6, 2#6, 57#6, 42#6, 39#6, 28#6, 31#6, 1#6]

/-- `TBLLD` completes on a sound instance for every index of a table that holds a value (R112): the entry,
zero-extended, and no effect on state. -/
def Obligations.TblldReadsTheTableEntry : Prop :=
  ∀ (sel t : BitVec 2) (idx : BitVec 8) (s : State) (i : Fin 3) (I : Encoder),
    s.err = 0#4 → sel.toNat = i.val → s.slots[i] = some I → I.sound = true →
    (∀ h : idx.toNat < 64, t = 0#2 → idx ≠ 0#8 → ∃ e : Sym, I.log[idx.toNat] = some e ∧
      exec (.tblld sel t idx) s = .next { s with rsp := some (0#26 ++ e) }) ∧
    (∀ h : idx.toNat < 63, t = 1#2 →
      exec (.tblld sel t idx) s = .next { s with rsp := some (0#26 ++ I.alog[idx.toNat]) }) ∧
    (t = 2#2 → idx.toNat ≤ I.nsym.toNat → ∃ g : Sym, I.gen[idx.toNat]? = some g ∧
      exec (.tblld sel t idx) s = .next { s with rsp := some (0#26 ++ g) })

/-- `TBLLD`'s checks in R112's order: slot 3 or table 3, an empty slot, an index beyond the table, `LOG[0]`. -/
def Obligations.TblldFaultsInOrder : Prop :=
  ∀ (sel t : BitVec 2) (idx : BitVec 8) (s : State), s.err = 0#4 →
    (sel = 3#2 ∨ t = 3#2 → faultsWith (exec (.tblld sel t idx) s) s .badParam) ∧
    (∀ i : Fin 3, sel.toNat = i.val → t ≠ 3#2 →
      (s.slots[i] = none → faultsWith (exec (.tblld sel t idx) s) s .notBuilt) ∧
      (∀ I, s.slots[i] = some I →
        ((t = 0#2 ∧ 63 < idx.toNat) ∨ (t = 1#2 ∧ 62 < idx.toNat) ∨ (t = 2#2 ∧ I.nsym.toNat < idx.toNat) →
          faultsWith (exec (.tblld sel t idx) s) s .addrRange) ∧
        (I.sound = true → t = 0#2 → idx = 0#8 → faultsWith (exec (.tblld sel t idx) s) s .unwritten)))

/-! ## Encode (41_encode.md) -/

/-- R132's small laws of `Lfsr` on a sound instance: it gives `NSYM` symbols for every list; empty and zero input
give zeros; an impulse gives the taps; it is linear and scales; leading zeros do not matter. -/
def Obligations.LfsrLaws : Prop :=
  ∀ I : Encoder, I.sound = true →
    (∀ d, (I.lfsr d).length = I.nsym.toNat) ∧
    I.lfsr [] = List.replicate I.nsym.toNat 0#6 ∧
    (∀ n, I.lfsr (List.replicate n 0#6) = List.replicate I.nsym.toNat 0#6) ∧
    (∀ n, I.lfsr (List.replicate n 0#6 ++ [1#6]) = I.gen.take I.nsym.toNat) ∧
    (∀ a b : List Sym, a.length = b.length →
      I.lfsr (List.zipWith (· ^^^ ·) a b) = List.zipWith (· ^^^ ·) (I.lfsr a) (I.lfsr b)) ∧
    (∀ (c : Sym) (d : List Sym), I.lfsr (d.map (I.gfmul c)) = (I.lfsr d).map (I.gfmul c)) ∧
    (∀ d, I.lfsr (0#6 :: d) = I.lfsr d)

/-- The remainder law of R132: the data symbols followed by `Lfsr`'s result, top cell first, are a multiple of the
generator polynomial (listed here from the coefficient of `x^0` up), and the result has degree below `NSYM`: it is the
remainder of `d(x)*x^NSYM` by `g(x)`. -/
def Obligations.EncodedBlockIsAMultipleOfTheGenerator : Prop :=
  ∀ (I : Encoder) (d : List Sym), I.sound = true → d ≠ [] →
    (I.lfsr d).length = I.nsym.toNat ∧
    ∃ q : List Sym, q.length = d.length ∧ I.polyMul q I.gen = I.lfsr d ++ d.reverse

/-- `RSENC` completes (R133): a constructed slot, a non-zero stride, a run inside the buffer (vacuous for no symbols)
and written cells `d`; `RES[k]` becomes `Lfsr(I, d)[k]` and the cells from `NSYM` up `none`, `RLEN` becomes `NSYM`, and
nothing else changes. -/
def Obligations.RsencEncodesARun : Prop :=
  ∀ (sel : BitVec 2) (len base : BitVec 8) (stride : BitVec 4) (s : State) (i : Fin 3) (I : Encoder) (d : List Sym),
    s.err = 0#4 → sel.toNat = i.val → s.slots[i] = some I → stride ≠ 0#4 →
    (len = 0#8 ∨ base.toNat + (len.toNat - 1) * stride.toNat ≤ 143) →
    d.length = len.toNat → (∀ j, j < len.toNat → s.cw.read (base.toNat + j * stride.toNat) = d[j]?) →
    ∃ t, exec (.rsenc sel len base stride) s = .next t ∧
      t = { s with res := t.res, rlen := I.nsym, rsp := some 0x00000000#32 } ∧
      (∀ k : Fin 28, k.val < I.nsym.toNat → t.res[k] = (I.lfsr d)[k.val]?) ∧
      (∀ k : Fin 28, I.nsym.toNat ≤ k.val → t.res[k] = none)

/-- `RSENC`'s checks in R133's order: slot 3 or stride 0, an empty slot, the highest address above 143, a cell that
is `none`. -/
def Obligations.RsencFaultsInOrder : Prop :=
  ∀ (sel : BitVec 2) (len base : BitVec 8) (stride : BitVec 4) (s : State), s.err = 0#4 →
    (sel = 3#2 ∨ stride = 0#4 → faultsWith (exec (.rsenc sel len base stride) s) s .badParam) ∧
    (∀ i : Fin 3, sel.toNat = i.val → stride ≠ 0#4 →
      (s.slots[i] = none → faultsWith (exec (.rsenc sel len base stride) s) s .notBuilt) ∧
      (s.slots[i] ≠ none → 0 < len.toNat →
        (143 < base.toNat + (len.toNat - 1) * stride.toNat →
          faultsWith (exec (.rsenc sel len base stride) s) s .addrRange) ∧
        (base.toNat + (len.toNat - 1) * stride.toNat ≤ 143 →
          (∃ j, j < len.toNat ∧ s.cw.read (base.toNat + j * stride.toNat) = none) →
          faultsWith (exec (.rsenc sel len base stride) s) s .unwritten)))

/-- `RSPUT` completes (R134) on a state whose `RES` holds a result: cell `base + j*stride` becomes `RES[RLEN-1-j]`,
every other cell of the buffer and everything else is unchanged. -/
def Obligations.RsputWritesTheResultReversed : Prop :=
  ∀ (base : BitVec 8) (stride : BitVec 4) (s : State),
    s.err = 0#4 → s.resultSound → stride ≠ 0#4 → s.rlen ≠ 0#5 →
    base.toNat + (s.rlen.toNat - 1) * stride.toNat ≤ 143 →
    ∃ t, exec (.rsput base stride) s = .next t ∧ t = { s with cw := t.cw, rsp := some 0x00000000#32 } ∧
      (∀ j, j < s.rlen.toNat → t.cw.read (base.toNat + j * stride.toNat) = s.resCell (s.rlen.toNat - 1 - j)) ∧
      (∀ a, (∀ j, j < s.rlen.toNat → a ≠ base.toNat + j * stride.toNat) → t.cw.read a = s.cw.read a)

/-- `RSCMP` completes (R135, R211): `MATCH` becomes 1 exactly when every compared cell `base + j*stride` holds
`RES[RLEN-1-j]`; the response carries it; a mismatch is no fault; nothing else changes. -/
def Obligations.RscmpSetsMatch : Prop :=
  ∀ (base : BitVec 8) (stride : BitVec 4) (s : State),
    s.err = 0#4 → s.resultSound → stride ≠ 0#4 → s.rlen ≠ 0#5 →
    base.toNat + (s.rlen.toNat - 1) * stride.toNat ≤ 143 →
    (∀ j, j < s.rlen.toNat → s.cw.read (base.toNat + j * stride.toNat) ≠ none) →
    ∃ b : Bool, exec (.rscmp base stride) s =
        .next { s with matchFlag := b, rsp := some (0#31 ++ BitVec.ofBool b) } ∧
      (b = true ↔ ∀ j, j < s.rlen.toNat →
        s.cw.read (base.toNat + j * stride.toNat) = s.resCell (s.rlen.toNat - 1 - j))

/-- `RSPUT`'s and `RSCMP`'s checks in R134's and R135's order: stride 0, no result, the highest address above 143, and
for `RSCMP` a compared cell that is `none`. -/
def Obligations.RsputAndRscmpFaultInOrder : Prop :=
  ∀ (base : BitVec 8) (stride : BitVec 4) (s : State), s.err = 0#4 →
    (∀ i ∈ [Instr.rsput base stride, Instr.rscmp base stride],
      (stride = 0#4 → faultsWith (exec i s) s .badParam) ∧
      (stride ≠ 0#4 → s.rlen = 0#5 → faultsWith (exec i s) s .unwritten) ∧
      (stride ≠ 0#4 → s.rlen ≠ 0#5 → 143 < base.toNat + (s.rlen.toNat - 1) * stride.toNat →
        faultsWith (exec i s) s .addrRange)) ∧
    (stride ≠ 0#4 → s.rlen ≠ 0#5 → base.toNat + (s.rlen.toNat - 1) * stride.toNat ≤ 143 →
      (∃ j, j < s.rlen.toNat ∧ s.cw.read (base.toNat + j * stride.toNat) = none) →
      faultsWith (exec (.rscmp base stride) s) s .unwritten)

/-- `RESLD` (R136): below `RLEN` it completes with the cell, zero-extended, and no effect on state; from `RLEN` up it
faults `UNWRITTEN`. -/
def Obligations.ResldReadsTheCell : Prop :=
  ∀ (k : BitVec 5) (s : State), s.err = 0#4 →
    (s.resultSound → k.toNat < s.rlen.toNat → ∃ v : Sym, s.resCell k.toNat = some v ∧
      exec (.resld k) s = .next { s with rsp := some (0#26 ++ v) }) ∧
    (s.rlen.toNat ≤ k.toNat → faultsWith (exec (.resld k) s) s .unwritten)

/-! ## The Error-Correction Pass (42_ecc_pass.md) -/

/-- `ECCPRI` completes (R152): with the 10-symbol instance in slot 0 and `CW[0..9] = d` it writes the parity of `d`,
top cell first, to `CW[10..19]`, leaves it in `RES`, sets `RLEN` to 10, and changes nothing else. -/
def Obligations.EccpriEncodesThePrimaryBlock : Prop :=
  ∀ (s : State) (I : Encoder) (d : List Sym),
    s.err = 0#4 → s.slots[(0 : Fin 3)] = some I → I.sound = true → I.nsym = 10#5 →
    d.length = 10 → (∀ j, j < 10 → s.cw.read j = d[j]?) →
    ∃ t, exec .eccpri s = .next t ∧
      t = { s with cw := t.cw, res := t.res, rlen := 10#5, rsp := some 0x00000000#32 } ∧
      (∀ j, j < 10 → t.cw.read (10 + j) = (I.lfsr d)[9 - j]?) ∧
      (∀ a, a < 10 ∨ 20 ≤ a → t.cw.read a = s.cw.read a) ∧
      (∀ k : Fin 28, t.res[k] = (I.lfsr d)[k.val]?)

/-- `ECCSECE` completes (R153), in every mode 2 to 6: with the mode's instance in its slot and the even data cells
`d` it writes the parity, top cell first, to the even cells from 104 (88 in mode 5) up, and changes nothing else but
`RES` and `RLEN`. -/
def Obligations.EccseceEncodesTheEvenSubBlock : Prop :=
  ∀ (mode : BitVec 3) (s : State) (I : Encoder) (d : List Sym) (slot : Fin 3) (ns sub ebase : Nat),
    2 ≤ mode.toNat → mode.toNat ≤ 6 →
    (mode = 5#3 → slot = 2 ∧ ns = 28 ∧ sub = 34 ∧ ebase = 88) →
    (mode ≠ 5#3 → slot = 1 ∧ ns = 20 ∧ sub = 42 ∧ ebase = 104) →
    s.err = 0#4 → s.slots[slot] = some I → I.sound = true → I.nsym.toNat = ns →
    d.length = sub → (∀ j, j < sub → s.cw.read (20 + 2 * j) = d[j]?) →
    ∃ t, exec (.eccsece mode) s = .next t ∧
      t = { s with cw := t.cw, res := t.res, rlen := I.nsym, rsp := some 0x00000000#32 } ∧
      (∀ j, j < ns → t.cw.read (ebase + 2 * j) = (I.lfsr d)[ns - 1 - j]?) ∧
      (∀ a, (∀ j, j < ns → a ≠ ebase + 2 * j) → t.cw.read a = s.cw.read a) ∧
      (∀ k : Fin 28, t.res[k] = (I.lfsr d)[k.val]?)

/-- `ECCSECO` completes (R154): as `ECCSECE`, one address higher. -/
def Obligations.EccsecoEncodesTheOddSubBlock : Prop :=
  ∀ (mode : BitVec 3) (s : State) (I : Encoder) (d : List Sym) (slot : Fin 3) (ns sub ebase : Nat),
    2 ≤ mode.toNat → mode.toNat ≤ 6 →
    (mode = 5#3 → slot = 2 ∧ ns = 28 ∧ sub = 34 ∧ ebase = 89) →
    (mode ≠ 5#3 → slot = 1 ∧ ns = 20 ∧ sub = 42 ∧ ebase = 105) →
    s.err = 0#4 → s.slots[slot] = some I → I.sound = true → I.nsym.toNat = ns →
    d.length = sub → (∀ j, j < sub → s.cw.read (21 + 2 * j) = d[j]?) →
    ∃ t, exec (.eccseco mode) s = .next t ∧
      t = { s with cw := t.cw, res := t.res, rlen := I.nsym, rsp := some 0x00000000#32 } ∧
      (∀ j, j < ns → t.cw.read (ebase + 2 * j) = (I.lfsr d)[ns - 1 - j]?) ∧
      (∀ a, (∀ j, j < ns → a ≠ ebase + 2 * j) → t.cw.read a = s.cw.read a) ∧
      (∀ k : Fin 28, t.res[k] = (I.lfsr d)[k.val]?)

/-- `ECCALL` completes (R155): with both instances in place and the data cells of the three parts written (`dp`, `de`,
`dd`) it writes every ECC cell of the mode, changes no other cell, leaves the odd part's result in `RES`, and changes
nothing else. -/
def Obligations.EccallEncodesTheWholeBuffer : Prop :=
  ∀ (mode : BitVec 3) (s : State) (P I : Encoder) (dp de dd : List Sym) (slot : Fin 3) (ns sub ebase : Nat),
    2 ≤ mode.toNat → mode.toNat ≤ 6 →
    (mode = 5#3 → slot = 2 ∧ ns = 28 ∧ sub = 34 ∧ ebase = 88) →
    (mode ≠ 5#3 → slot = 1 ∧ ns = 20 ∧ sub = 42 ∧ ebase = 104) →
    s.err = 0#4 → s.slots[(0 : Fin 3)] = some P → P.sound = true → P.nsym = 10#5 →
    s.slots[slot] = some I → I.sound = true → I.nsym.toNat = ns →
    dp.length = 10 → (∀ j, j < 10 → s.cw.read j = dp[j]?) →
    de.length = sub → (∀ j, j < sub → s.cw.read (20 + 2 * j) = de[j]?) →
    dd.length = sub → (∀ j, j < sub → s.cw.read (21 + 2 * j) = dd[j]?) →
    ∃ t, exec (.eccall mode) s = .next t ∧
      t = { s with cw := t.cw, res := t.res, rlen := I.nsym, rsp := some 0x00000000#32 } ∧
      (∀ j, j < 10 → t.cw.read (10 + j) = (P.lfsr dp)[9 - j]?) ∧
      (∀ j, j < ns → t.cw.read (ebase + 2 * j) = (I.lfsr de)[ns - 1 - j]?) ∧
      (∀ j, j < ns → t.cw.read (ebase + 1 + 2 * j) = (I.lfsr dd)[ns - 1 - j]?) ∧
      (∀ a, a < 10 ∨ (20 ≤ a ∧ a < ebase) ∨ 144 ≤ a → t.cw.read a = s.cw.read a) ∧
      (∀ k : Fin 28, t.res[k] = (I.lfsr dd)[k.val]?)

/-- `ECCCHK` completes (R156, R211): with both instances in place, the data cells written and every ECC cell of the
mode written, `MATCH` becomes 1 exactly when every ECC cell holds the recomputed symbol; the response carries it; the
buffer is unchanged, and `RES` and `RLEN` hold the odd part's result. -/
def Obligations.EccchkComparesTheWholeBuffer : Prop :=
  ∀ (mode : BitVec 3) (s : State) (P I : Encoder) (dp de dd : List Sym) (slot : Fin 3) (ns sub ebase : Nat),
    2 ≤ mode.toNat → mode.toNat ≤ 6 →
    (mode = 5#3 → slot = 2 ∧ ns = 28 ∧ sub = 34 ∧ ebase = 88) →
    (mode ≠ 5#3 → slot = 1 ∧ ns = 20 ∧ sub = 42 ∧ ebase = 104) →
    s.err = 0#4 → s.slots[(0 : Fin 3)] = some P → P.sound = true → P.nsym = 10#5 →
    s.slots[slot] = some I → I.sound = true → I.nsym.toNat = ns →
    dp.length = 10 → (∀ j, j < 10 → s.cw.read j = dp[j]?) →
    de.length = sub → (∀ j, j < sub → s.cw.read (20 + 2 * j) = de[j]?) →
    dd.length = sub → (∀ j, j < sub → s.cw.read (21 + 2 * j) = dd[j]?) →
    (∀ a, (10 ≤ a ∧ a < 20) ∨ (ebase ≤ a ∧ a < 144) → s.cw.read a ≠ none) →
    ∃ (t : State) (b : Bool), exec (.eccchk mode) s = .next t ∧
      t = { s with res := t.res, rlen := I.nsym, matchFlag := b, rsp := some (0#31 ++ BitVec.ofBool b) } ∧
      (∀ k : Fin 28, t.res[k] = (I.lfsr dd)[k.val]?) ∧
      (b = true ↔ (∀ j, j < 10 → s.cw.read (10 + j) = (P.lfsr dp)[9 - j]?) ∧
        (∀ j, j < ns → s.cw.read (ebase + 2 * j) = (I.lfsr de)[ns - 1 - j]?) ∧
        (∀ j, j < ns → s.cw.read (ebase + 1 + 2 * j) = (I.lfsr dd)[ns - 1 - j]?))

/-- The pass commands' checks in order (R152 to R156, R202): an illegal mode, then for all parts a slot that is empty
or holds another count, then for all parts a data cell that is `none` (for `ECCCHK` an ECC cell too). -/
def Obligations.PassCommandsFaultInOrder : Prop :=
  ∀ (mode : BitVec 3) (s : State) (slot : Fin 3) (ns : Nat), s.err = 0#4 →
    (mode = 5#3 → slot = 2 ∧ ns = 28) → (mode ≠ 5#3 → slot = 1 ∧ ns = 20) →
    let primaryReady := ∃ I, s.slots[(0 : Fin 3)] = some I ∧ I.nsym.toNat = 10
    let secondaryReady := ∃ I, s.slots[slot] = some I ∧ I.nsym.toNat = ns
    let legal := 2 ≤ mode.toNat ∧ mode.toNat ≤ 6
    let missing := fun (a n st : Nat) => ∃ j, j < n ∧ s.cw.read (a + st * j) = none
    let sub := if mode = 5#3 then 34 else 42
    (¬ legal → ∀ i ∈ [Instr.eccsece mode, .eccseco mode, .eccall mode, .eccchk mode],
      faultsWith (exec i s) s .badMode) ∧
    (¬ primaryReady → faultsWith (exec .eccpri s) s .notBuilt) ∧
    (legal → ¬ secondaryReady → ∀ i ∈ [Instr.eccsece mode, .eccseco mode, .eccall mode, .eccchk mode],
      faultsWith (exec i s) s .notBuilt) ∧
    (legal → ¬ primaryReady → ∀ i ∈ [Instr.eccall mode, .eccchk mode], faultsWith (exec i s) s .notBuilt) ∧
    (primaryReady → missing 0 10 1 → faultsWith (exec .eccpri s) s .unwritten) ∧
    (legal → secondaryReady → missing 20 sub 2 → faultsWith (exec (.eccsece mode) s) s .unwritten) ∧
    (legal → secondaryReady → missing 21 sub 2 → faultsWith (exec (.eccseco mode) s) s .unwritten) ∧
    (legal → primaryReady → secondaryReady → missing 0 10 1 ∨ missing 20 sub 2 ∨ missing 21 sub 2 →
      ∀ i ∈ [Instr.eccall mode, .eccchk mode], faultsWith (exec i s) s .unwritten) ∧
    (legal → primaryReady → secondaryReady → missing 10 10 1 ∨ missing (144 - 2 * ns) (2 * ns) 1 →
      faultsWith (exec (.eccchk mode) s) s .unwritten)

/-- R157: a pass command on one part gives the same state as `RSENC` over the part's data and then `RSPUT` over its
ECC cells. -/
def Obligations.PassPartIsRsencThenRsput : Prop :=
  ∀ (mode : BitVec 3) (s t : State), s.Inv → s.err = 0#4 → t.err = 0#4 →
    let slot := if mode = 5#3 then 2#2 else 1#2
    let sub := if mode = 5#3 then 34#8 else 42#8
    let ebase := if mode = 5#3 then 88#8 else 104#8
    (exec .eccpri s = .next t →
      ∃ u, exec (.rsenc 0#2 10#8 0#8 1#4) s = .next u ∧ exec (.rsput 10#8 1#4) u = .next t) ∧
    (exec (.eccsece mode) s = .next t →
      ∃ u, exec (.rsenc slot sub 20#8 2#4) s = .next u ∧ exec (.rsput ebase 2#4) u = .next t) ∧
    (exec (.eccseco mode) s = .next t →
      ∃ u, exec (.rsenc slot sub 21#8 2#4) s = .next u ∧ exec (.rsput (ebase + 1#8) 2#4) u = .next t)

/-- R155's equivalence: the state after `ECCALL mode` equals the state after `ECCPRI ; ECCSECE mode ; ECCSECO mode`,
provided none of them faults. -/
def Obligations.EccallEqualsTheThreeParts : Prop :=
  ∀ (mode : BitVec 3) (s s1 s2 s3 : State), s.err = 0#4 →
    exec .eccpri s = .next s1 → s1.err = 0#4 →
    exec (.eccsece mode) s1 = .next s2 → s2.err = 0#4 →
    exec (.eccseco mode) s2 = .next s3 → s3.err = 0#4 →
    exec (.eccall mode) s = .next s3

/-- R156's law: immediately after a completed `ECCALL mode`, `ECCCHK mode` completes with `MATCH = 1` and changes
nothing else. -/
def Obligations.EccchkMatchesAfterEccall : Prop :=
  ∀ (mode : BitVec 3) (s t : State), s.Inv → s.err = 0#4 → exec (.eccall mode) s = .next t → t.err = 0#4 →
    exec (.eccchk mode) t = .next { t with matchFlag := true, rsp := some 0x00000001#32 }

/-- R156's law: if after a completed `ECCALL mode` any one of the 144 cells is changed to a different value,
`ECCCHK mode` completes with `MATCH = 0`. -/
def Obligations.EccchkDetectsAnyChangedCell : Prop :=
  ∀ (mode : BitVec 3) (s t : State) (a : Nat) (v : Sym),
    s.Inv → s.err = 0#4 → exec (.eccall mode) s = .next t → t.err = 0#4 → a < 144 → t.cw.read a ≠ some v →
    ∃ u, exec (.eccchk mode) { t with cw := t.cw.write a v } = .next u ∧
      u.err = 0#4 ∧ u.matchFlag = false ∧ u.rsp = some 0x00000000#32

/-- R158: the three parts of one mode commute as far as `CW` is concerned. -/
def Obligations.PassPartsCommute : Prop :=
  ∀ (mode : BitVec 3) (s s1 s2 : State) (a b : Instr),
    a ∈ [Instr.eccpri, .eccsece mode, .eccseco mode] → b ∈ [Instr.eccpri, .eccsece mode, .eccseco mode] →
    s.Inv → s.err = 0#4 → exec a s = .next s1 → s1.err = 0#4 → exec b s1 = .next s2 → s2.err = 0#4 →
    ∃ u1 u2, exec b s = .next u1 ∧ u1.err = 0#4 ∧ exec a u1 = .next u2 ∧ u2.err = 0#4 ∧ u2.cw = s2.cw

/-- R159: after a completed `ECCALL mode` the three blocks hold values in all their cells, each is a multiple of its
instance's generator polynomial (listed here from the coefficient of `x^0` up), and all its syndromes are 0: 10 of the
primary block, 20 (28 in mode 5) of the even and of the odd block. -/
def Obligations.SyndromesVanishAfterEccall : Prop :=
  ∀ (mode : BitVec 3) (s t : State) (slot : Fin 3), s.Inv → s.err = 0#4 →
    exec (.eccall mode) s = .next t → t.err = 0#4 →
    (mode = 5#3 → slot = 2) → (mode ≠ 5#3 → slot = 1) →
    ∃ (P I : Encoder) (cp ce cd : List Sym),
      t.slots[(0 : Fin 3)] = some P ∧ t.slots[slot] = some I ∧
      cp.length = 20 ∧ ce.length = 62 ∧ cd.length = 62 ∧
      (∀ j, j < 20 → t.cw.read j = cp[j]?) ∧
      (∀ j, j < 62 → t.cw.read (20 + 2 * j) = ce[j]?) ∧ (∀ j, j < 62 → t.cw.read (21 + 2 * j) = cd[j]?) ∧
      (∃ q, P.polyMul q P.gen = cp.reverse) ∧ (∃ q, I.polyMul q I.gen = ce.reverse) ∧
      (∃ q, I.polyMul q I.gen = cd.reverse) ∧
      P.nsym = 10#5 ∧ I.nsym = (if mode = 5#3 then 28#5 else 20#5) ∧
      (∀ j, j < P.nsym.toNat → P.syndrome cp j = 0#6) ∧
      (∀ j, j < I.nsym.toNat → I.syndrome ce j = 0#6 ∧ I.syndrome cd j = 0#6)

/-! ## Host access (43_buffer_access.md) and the status word -/

/-- `CWST` (R180): at an address 0 to 143 it completes, that cell takes the value, every other cell and everything else
is unchanged; above 143 it faults `ADDR_RANGE`. -/
def Obligations.CwstStoresOneCell : Prop :=
  ∀ (addr : BitVec 8) (val : Sym) (s : State), s.err = 0#4 →
    (addr.toNat ≤ 143 → ∃ t, exec (.cwst addr val) s = .next t ∧
      t = { s with cw := t.cw, rsp := some 0x00000000#32 } ∧ t.cw.read addr.toNat = some val ∧
      (∀ a, a ≠ addr.toNat → t.cw.read a = s.cw.read a)) ∧
    (143 < addr.toNat → faultsWith (exec (.cwst addr val) s) s .addrRange)

/-- `CWLD` (R181): a written cell at an address 0 to 143 is returned, zero-extended, with no effect on state; an
unwritten one faults `UNWRITTEN`; above 143 it faults `ADDR_RANGE`. -/
def Obligations.CwldLoadsOneCell : Prop :=
  ∀ (addr : BitVec 8) (s : State), s.err = 0#4 →
    (∀ v, addr.toNat ≤ 143 → s.cw.read addr.toNat = some v →
      exec (.cwld addr) s = .next { s with rsp := some (0#26 ++ v) }) ∧
    (addr.toNat ≤ 143 → s.cw.read addr.toNat = none → faultsWith (exec (.cwld addr) s) s .unwritten) ∧
    (143 < addr.toNat → faultsWith (exec (.cwld addr) s) s .addrRange)

/-- A stored codeword is what the next load of its address returns, and no other address's load changes
(20_memory.md R60). -/
def Obligations.LoadAfterStore : Prop :=
  ∀ (a b : BitVec 8) (val : Sym) (s t : State), s.err = 0#4 → a.toNat ≤ 143 → exec (.cwst a val) s = .next t →
    exec (.cwld a) t = .next { t with rsp := some (0#26 ++ val) } ∧
    (a ≠ b → ∀ u v w, exec (.cwld b) s = .next u → exec (.cwld b) t = .next v → (u.rsp = some w ↔ v.rsp = some w))

/-- `CWCLR` (R182) completes on a unit that is not halted: every cell of `CW` and `RES` becomes `none`, `RLEN` and
`MATCH` 0; the slots and `ERR` are unchanged. -/
def Obligations.CwclrBeginsAFreshCall : Prop :=
  ∀ s : State, s.err = 0#4 → ∃ t, exec .cwclr s = .next t ∧
    t = { s with cw := t.cw, res := t.res, rlen := 0#5, matchFlag := false, rsp := some 0x00000000#32 } ∧
    (∀ a, t.cw.read a = none) ∧ (∀ k, t.resCell k = none)

/-- `STAT` (R183) completes in every state, halted or not, with `STATUS` as its `DATA` and no effect on state. -/
def Obligations.StatAnswersTheStatus : Prop :=
  ∀ s : State, exec .stat s = .next { s with rsp := some (0#16 ++ s.status) }

/-- R30: the fields of `STATUS`, and their value at reset. -/
def Obligations.StatusWordFields : Prop :=
  ∀ s : State, s.status.extractLsb' 0 4 = s.err ∧ s.status.getLsbD 4 = s.matchFlag ∧
    s.status.getLsbD 5 = s.slots[(0 : Fin 3)].isSome ∧ s.status.getLsbD 6 = s.slots[(1 : Fin 3)].isSome ∧
    s.status.getLsbD 7 = s.slots[(2 : Fin 3)].isSome ∧ s.status.extractLsb' 8 5 = s.rlen ∧
    s.status.extractLsb' 13 3 = 0#3 ∧ State.reset.status = 0#16

/-! ## Runs (70_reset_and_hazards.md R239) -/

/-- A run ends with exactly one taken response for each word, in order of issue, whatever the words: a fault does not
end it (R239). The responses stand after those taken before, and those of a longer list are those of its first words
followed by those of the run of the rest: the k-th word's response is the k-th taken. A run's host is ready in every
cycle, two cycles a word (the model's choice, log entry 1). -/
def Obligations.RunAnswersEveryWordInOrder : Prop :=
  ∀ (s : State) (ws vs : List Word), s.rsp = none →
    ∃ (t u : State) (rs qs : List Word), runWords s ws = .next t ∧ t.rsp = none ∧ t.host = [] ∧
      rs.length = ws.length ∧ t.taken = s.taken ++ rs ∧
      runWords s (ws ++ vs) = .next u ∧ runWords t vs = .next u ∧
      qs.length = vs.length ∧ u.taken = s.taken ++ rs ++ qs

/-- R240's convention, in terms of the unit's state: a run from reset passes exactly when it ends with `ERR = 0` (no
command faulted, R31) and `MATCH` is 1 after each number of commands at which the test asks for it. How a test asks
for it is the model's reading (log entry 15). -/
def Obligations.RunPassesExactlyWhenNoCommandFaults : Prop :=
  ∀ (ws : List Word) (matchAt : List Nat), runPasses ws matchAt = true ↔
    ∃ t, runWords State.reset ws = .next t ∧ t.err = 0#4 ∧
      ∀ k ∈ matchAt, ∃ u, runWords State.reset (ws.take k) = .next u ∧ u.matchFlag = true
end

