-- ==== Sys2Proof/Laws/State.lean ====
section
/-! SUPPORT. What each named update of the state does to each field: one lemma per field per update, true by `rfl`. -/

namespace Sys2Proof.Machine

@[simp] theorem State.setResult_slots (s : State) (nsym : BitVec 5) (r : List Sym) : (s.setResult nsym r).slots = s.slots := rfl
@[simp] theorem State.setResult_res (s : State) (nsym : BitVec 5) (r : List Sym) : (s.setResult nsym r).res = resultCells r := rfl
@[simp] theorem State.setResult_rlen (s : State) (nsym : BitVec 5) (r : List Sym) : (s.setResult nsym r).rlen = nsym := rfl
@[simp] theorem State.setResult_matchFlag (s : State) (nsym : BitVec 5) (r : List Sym) : (s.setResult nsym r).matchFlag = s.matchFlag := rfl
@[simp] theorem State.setResult_err (s : State) (nsym : BitVec 5) (r : List Sym) : (s.setResult nsym r).err = s.err := rfl
@[simp] theorem State.setResult_cw (s : State) (nsym : BitVec 5) (r : List Sym) : (s.setResult nsym r).cw = s.cw := rfl
@[simp] theorem State.setResult_rsp (s : State) (nsym : BitVec 5) (r : List Sym) : (s.setResult nsym r).rsp = s.rsp := rfl
@[simp] theorem State.setResult_host (s : State) (nsym : BitVec 5) (r : List Sym) : (s.setResult nsym r).host = s.host := rfl
@[simp] theorem State.setResult_taken (s : State) (nsym : BitVec 5) (r : List Sym) : (s.setResult nsym r).taken = s.taken := rfl

@[simp] theorem State.setSlot_slots (s : State) (i : Fin 3) (I : Encoder) : (s.setSlot i I).slots = s.slots.set i (some I) := rfl
@[simp] theorem State.setSlot_res (s : State) (i : Fin 3) (I : Encoder) : (s.setSlot i I).res = s.res := rfl
@[simp] theorem State.setSlot_rlen (s : State) (i : Fin 3) (I : Encoder) : (s.setSlot i I).rlen = s.rlen := rfl
@[simp] theorem State.setSlot_matchFlag (s : State) (i : Fin 3) (I : Encoder) : (s.setSlot i I).matchFlag = s.matchFlag := rfl
@[simp] theorem State.setSlot_err (s : State) (i : Fin 3) (I : Encoder) : (s.setSlot i I).err = s.err := rfl
@[simp] theorem State.setSlot_cw (s : State) (i : Fin 3) (I : Encoder) : (s.setSlot i I).cw = s.cw := rfl
@[simp] theorem State.setSlot_rsp (s : State) (i : Fin 3) (I : Encoder) : (s.setSlot i I).rsp = s.rsp := rfl
@[simp] theorem State.setSlot_host (s : State) (i : Fin 3) (I : Encoder) : (s.setSlot i I).host = s.host := rfl
@[simp] theorem State.setSlot_taken (s : State) (i : Fin 3) (I : Encoder) : (s.setSlot i I).taken = s.taken := rfl

@[simp] theorem State.clearCall_slots (s : State) : s.clearCall.slots = s.slots := rfl
@[simp] theorem State.clearCall_res (s : State) : s.clearCall.res = Vector.replicate 28 none := rfl
@[simp] theorem State.clearCall_rlen (s : State) : s.clearCall.rlen = 0#5 := rfl
@[simp] theorem State.clearCall_matchFlag (s : State) : s.clearCall.matchFlag = false := rfl
@[simp] theorem State.clearCall_err (s : State) : s.clearCall.err = s.err := rfl
@[simp] theorem State.clearCall_cw (s : State) : s.clearCall.cw = [] := rfl
@[simp] theorem State.clearCall_rsp (s : State) : s.clearCall.rsp = s.rsp := rfl
@[simp] theorem State.clearCall_host (s : State) : s.clearCall.host = s.host := rfl
@[simp] theorem State.clearCall_taken (s : State) : s.clearCall.taken = s.taken := rfl

@[simp] theorem State.setMatch_slots (s : State) (b : Bool) : (s.setMatch b).slots = s.slots := rfl
@[simp] theorem State.setMatch_res (s : State) (b : Bool) : (s.setMatch b).res = s.res := rfl
@[simp] theorem State.setMatch_rlen (s : State) (b : Bool) : (s.setMatch b).rlen = s.rlen := rfl
@[simp] theorem State.setMatch_matchFlag (s : State) (b : Bool) : (s.setMatch b).matchFlag = b := rfl
@[simp] theorem State.setMatch_err (s : State) (b : Bool) : (s.setMatch b).err = s.err := rfl
@[simp] theorem State.setMatch_cw (s : State) (b : Bool) : (s.setMatch b).cw = s.cw := rfl
@[simp] theorem State.setMatch_rsp (s : State) (b : Bool) : (s.setMatch b).rsp = s.rsp := rfl
@[simp] theorem State.setMatch_host (s : State) (b : Bool) : (s.setMatch b).host = s.host := rfl
@[simp] theorem State.setMatch_taken (s : State) (b : Bool) : (s.setMatch b).taken = s.taken := rfl

@[simp] theorem State.respond_slots (s : State) (w : Word) : (s.respond w).slots = s.slots := rfl
@[simp] theorem State.respond_res (s : State) (w : Word) : (s.respond w).res = s.res := rfl
@[simp] theorem State.respond_rlen (s : State) (w : Word) : (s.respond w).rlen = s.rlen := rfl
@[simp] theorem State.respond_matchFlag (s : State) (w : Word) : (s.respond w).matchFlag = s.matchFlag := rfl
@[simp] theorem State.respond_err (s : State) (w : Word) : (s.respond w).err = s.err := rfl
@[simp] theorem State.respond_cw (s : State) (w : Word) : (s.respond w).cw = s.cw := rfl
@[simp] theorem State.respond_rsp (s : State) (w : Word) : (s.respond w).rsp = some w := rfl
@[simp] theorem State.respond_host (s : State) (w : Word) : (s.respond w).host = s.host := rfl
@[simp] theorem State.respond_taken (s : State) (w : Word) : (s.respond w).taken = s.taken := rfl

@[simp] theorem State.complete_slots (s : State) (d : Data) : (s.complete d).slots = s.slots := rfl
@[simp] theorem State.complete_res (s : State) (d : Data) : (s.complete d).res = s.res := rfl
@[simp] theorem State.complete_rlen (s : State) (d : Data) : (s.complete d).rlen = s.rlen := rfl
@[simp] theorem State.complete_matchFlag (s : State) (d : Data) : (s.complete d).matchFlag = s.matchFlag := rfl
@[simp] theorem State.complete_err (s : State) (d : Data) : (s.complete d).err = s.err := rfl
@[simp] theorem State.complete_cw (s : State) (d : Data) : (s.complete d).cw = s.cw := rfl
@[simp] theorem State.complete_rsp (s : State) (d : Data) : (s.complete d).rsp = some (responseWord 0#4 d) := rfl
@[simp] theorem State.complete_host (s : State) (d : Data) : (s.complete d).host = s.host := rfl
@[simp] theorem State.complete_taken (s : State) (d : Data) : (s.complete d).taken = s.taken := rfl

@[simp] theorem State.raise_slots (s : State) (f : FaultCode) : (s.raise f).slots = s.slots := rfl
@[simp] theorem State.raise_res (s : State) (f : FaultCode) : (s.raise f).res = s.res := rfl
@[simp] theorem State.raise_rlen (s : State) (f : FaultCode) : (s.raise f).rlen = s.rlen := rfl
@[simp] theorem State.raise_matchFlag (s : State) (f : FaultCode) : (s.raise f).matchFlag = s.matchFlag := rfl
@[simp] theorem State.raise_err (s : State) (f : FaultCode) : (s.raise f).err = f.code := rfl
@[simp] theorem State.raise_cw (s : State) (f : FaultCode) : (s.raise f).cw = s.cw := rfl
@[simp] theorem State.raise_rsp (s : State) (f : FaultCode) : (s.raise f).rsp = some (responseWord f.code 0#16) := rfl
@[simp] theorem State.raise_host (s : State) (f : FaultCode) : (s.raise f).host = s.host := rfl
@[simp] theorem State.raise_taken (s : State) (f : FaultCode) : (s.raise f).taken = s.taken := rfl

@[simp] theorem State.answerHalted_slots (s : State) : s.answerHalted.slots = s.slots := rfl
@[simp] theorem State.answerHalted_res (s : State) : s.answerHalted.res = s.res := rfl
@[simp] theorem State.answerHalted_rlen (s : State) : s.answerHalted.rlen = s.rlen := rfl
@[simp] theorem State.answerHalted_matchFlag (s : State) : s.answerHalted.matchFlag = s.matchFlag := rfl
@[simp] theorem State.answerHalted_err (s : State) : s.answerHalted.err = s.err := rfl
@[simp] theorem State.answerHalted_cw (s : State) : s.answerHalted.cw = s.cw := rfl
@[simp] theorem State.answerHalted_rsp (s : State) : s.answerHalted.rsp = some 0x90000000#32 := rfl
@[simp] theorem State.answerHalted_host (s : State) : s.answerHalted.host = s.host := rfl
@[simp] theorem State.answerHalted_taken (s : State) : s.answerHalted.taken = s.taken := rfl

@[simp] theorem State.takeReset_slots (s : State) : s.takeReset.slots = State.reset.slots := rfl
@[simp] theorem State.takeReset_res (s : State) : s.takeReset.res = State.reset.res := rfl
@[simp] theorem State.takeReset_rlen (s : State) : s.takeReset.rlen = 0#5 := rfl
@[simp] theorem State.takeReset_matchFlag (s : State) : s.takeReset.matchFlag = false := rfl
@[simp] theorem State.takeReset_err (s : State) : s.takeReset.err = 0#4 := rfl
@[simp] theorem State.takeReset_cw (s : State) : s.takeReset.cw = [] := rfl
@[simp] theorem State.takeReset_rsp (s : State) : s.takeReset.rsp = none := rfl
@[simp] theorem State.takeReset_host (s : State) : s.takeReset.host = s.host := rfl
@[simp] theorem State.takeReset_taken (s : State) : s.takeReset.taken = s.taken := rfl

@[simp] theorem State.load_slots (s : State) (ws : List Word) : (s.load ws).slots = s.slots := rfl
@[simp] theorem State.load_res (s : State) (ws : List Word) : (s.load ws).res = s.res := rfl
@[simp] theorem State.load_rlen (s : State) (ws : List Word) : (s.load ws).rlen = s.rlen := rfl
@[simp] theorem State.load_matchFlag (s : State) (ws : List Word) : (s.load ws).matchFlag = s.matchFlag := rfl
@[simp] theorem State.load_err (s : State) (ws : List Word) : (s.load ws).err = s.err := rfl
@[simp] theorem State.load_cw (s : State) (ws : List Word) : (s.load ws).cw = s.cw := rfl
@[simp] theorem State.load_rsp (s : State) (ws : List Word) : (s.load ws).rsp = s.rsp := rfl
@[simp] theorem State.load_host (s : State) (ws : List Word) : (s.load ws).host = hostProgram ws := rfl
@[simp] theorem State.load_taken (s : State) (ws : List Word) : (s.load ws).taken = s.taken := rfl

@[simp] theorem State.withFetchWord_slots (s : State) (n w : Nat) : (s.withFetchWord n w).slots = s.slots := rfl
@[simp] theorem State.withFetchWord_res (s : State) (n w : Nat) : (s.withFetchWord n w).res = s.res := rfl
@[simp] theorem State.withFetchWord_rlen (s : State) (n w : Nat) : (s.withFetchWord n w).rlen = s.rlen := rfl
@[simp] theorem State.withFetchWord_matchFlag (s : State) (n w : Nat) : (s.withFetchWord n w).matchFlag = s.matchFlag := rfl
@[simp] theorem State.withFetchWord_err (s : State) (n w : Nat) : (s.withFetchWord n w).err = s.err := rfl
@[simp] theorem State.withFetchWord_cw (s : State) (n w : Nat) : (s.withFetchWord n w).cw = s.cw := rfl
@[simp] theorem State.withFetchWord_rsp (s : State) (n w : Nat) : (s.withFetchWord n w).rsp = none := rfl
@[simp] theorem State.withFetchWord_host (s : State) (n w : Nat) : (s.withFetchWord n w).host = PortIn.present (BitVec.ofNat 32 w) :: s.host := rfl
@[simp] theorem State.withFetchWord_taken (s : State) (n w : Nat) : (s.withFetchWord n w).taken = s.taken := rfl

/-- Cell `k` of a shift register that holds the list `r`. -/
@[simp] theorem resultCells_getElem (r : List Sym) (k : Nat) (h : k < 28) : (resultCells r)[k] = r[k]? := by
  simp [resultCells]

end Sys2Proof.Machine
end

