-- ==== Sys2Proof/Laws/Memory.lean ====
section
/-! SUPPORT. The codeword buffer: a read after a write, and the canonical form, which every memory operation keeps. -/

namespace Sys2Proof.Machine

@[simp] theorem Memory.read_nil (a : Nat) : Memory.read [] a = none := rfl

/-- A cell just written reads as what was written. -/
theorem Memory.read_write_self (m : Memory) (a : Nat) (v : Sym) : (m.write a v).read a = some v := by
  induction m with
  | nil => simp [Memory.write, Memory.read]
  | cons c m ih =>
    obtain ⟨b, y⟩ := c
    by_cases h1 : a < b
    · simp [Memory.write, h1, Memory.read]
    · by_cases h2 : a = b
      · simp [Memory.write, h2, Memory.read]
      · simp [Memory.write, h1, h2, Memory.read, ih]

/-- A write leaves every other cell alone. -/
theorem Memory.read_write_ne (m : Memory) {a b : Nat} (v : Sym) (h : b ≠ a) : (m.write a v).read b = m.read b := by
  induction m with
  | nil => simp [Memory.write, Memory.read, h]
  | cons c m ih =>
    obtain ⟨d, y⟩ := c
    by_cases h1 : a < d
    · simp [Memory.write, h1, Memory.read, h]
    · by_cases h2 : a = d
      · subst h2
        simp [Memory.write, Memory.read, h]
      · simp [Memory.write, h1, h2, Memory.read, ih]

theorem Memory.read_write (m : Memory) (a b : Nat) (v : Sym) :
    (m.write a v).read b = if b = a then some v else m.read b := by
  by_cases h : b = a
  · subst h; simp [Memory.read_write_self]
  · simp [h, Memory.read_write_ne]

/-- An entry of a written memory is the one written or an old one. -/
theorem Memory.mem_write {m : Memory} {a : Nat} {v : Sym} {c : Nat × Sym} (h : c ∈ m.write a v) :
    c = (a, v) ∨ c ∈ m := by
  induction m with
  | nil => simpa [Memory.write] using h
  | cons x m ih =>
    obtain ⟨b, y⟩ := x
    by_cases h1 : a < b
    · simpa [Memory.write, h1] using h
    · by_cases h2 : a = b
      · subst h2
        simp only [Memory.write, lt_irrefl, if_true, if_false, List.mem_cons] at h
        rcases h with h | h
        · exact .inl h
        · right; simp [h]
      · simp only [Memory.write, h1, h2, if_false, List.mem_cons] at h
        rcases h with h | h
        · right; simp [h]
        · rcases ih h with h | h
          · exact .inl h
          · right; simp [h]

/-- A write inside the buffer keeps the canonical form. -/
theorem Memory.wf_write {m : Memory} {a : Nat} (v : Sym) (hm : m.wf) (ha : a < 144) : (m.write a v).wf := by
  refine ⟨?_, fun c hc => ?_⟩
  · have hs := hm.1
    clear hm
    induction m with
    | nil => simp [Memory.write]
    | cons x m ih =>
      obtain ⟨b, y⟩ := x
      rw [List.pairwise_cons] at hs
      by_cases h1 : a < b
      · simp only [Memory.write, h1, if_true, List.pairwise_cons]
        exact ⟨fun c hc => by
          rcases List.mem_cons.1 hc with rfl | hc
          · exact h1
          · exact lt_trans h1 (hs.1 c hc), hs⟩
      · by_cases h2 : a = b
        · subst h2
          simp only [Memory.write, lt_irrefl, if_true, if_false, List.pairwise_cons]
          exact ⟨fun c hc => hs.1 c hc, hs.2⟩
        · simp only [Memory.write, h1, h2, if_false, List.pairwise_cons]
          refine ⟨fun c hc => ?_, ih hs.2⟩
          rcases Memory.mem_write hc with rfl | hc
          · show b < a
            omega
          · exact hs.1 c hc
  · rcases Memory.mem_write hc with rfl | hc
    · exact ha
    · exact hm.2 c hc

theorem Memory.wf_nil : Memory.wf [] := ⟨List.Pairwise.nil, by simp⟩

/-- The buffer after reset, and after `CWCLR`, has the form. -/
theorem State.reset_cw_wf : State.reset.cw.wf := Memory.wf_nil

theorem State.clearCall_cw_wf (s : State) : s.clearCall.cw.wf := Memory.wf_nil

/-- Below the first address of a canonical memory nothing is written. -/
theorem Memory.read_of_forall_ne {m : Memory} {a : Nat} (h : ∀ c ∈ m, c.1 ≠ a) : m.read a = none := by
  induction m with
  | nil => rfl
  | cons x m ih =>
    obtain ⟨b, y⟩ := x
    have hb : a ≠ b := fun e => h (b, y) (by simp) e.symm
    simp [Memory.read, hb, ih fun c hc => h c (by simp [hc])]

/-- A canonical memory holds nothing outside 0 to 143. -/
theorem Memory.read_eq_none_of_wf {m : Memory} {a : Nat} (h : m.wf) (ha : 144 ≤ a) : m.read a = none :=
  Memory.read_of_forall_ne fun c hc e => by have := h.2 c hc; omega

/-- Canonical memories that read the same are the same data. -/
theorem Memory.ext_of_wf {m n : Memory} (hm : m.wf) (hn : n.wf) (h : ∀ a, m.read a = n.read a) : m = n := by
  replace hm := hm.1
  replace hn := hn.1
  induction m generalizing n with
  | nil =>
    cases n with
    | nil => rfl
    | cons y n => have := h y.1; simp [Memory.read] at this
  | cons x m ih =>
    obtain ⟨a, v⟩ := x
    rw [List.pairwise_cons] at hm
    cases n with
    | nil => have := h a; simp [Memory.read] at this
    | cons y n =>
      obtain ⟨b, w⟩ := y
      rw [List.pairwise_cons] at hn
      have hab : a = b := by
        by_contra hne
        rcases Nat.lt_or_gt_of_ne hne with hlt | hlt
        · have h1 := h a
          have : Memory.read n a = none :=
            Memory.read_of_forall_ne fun c hc e => by have := hn.1 c hc; simp at this; omega
          simp [Memory.read, hne, this] at h1
        · have h1 := h b
          have : Memory.read m b = none :=
            Memory.read_of_forall_ne fun c hc e => by have := hm.1 c hc; simp at this; omega
          simp [Memory.read, Ne.symm hne, this] at h1
      subst hab
      have hv : v = w := by have := h a; simpa [Memory.read] using this
      subst hv
      congr 1
      refine ih (fun c => ?_) hm.2 hn.2
      by_cases hc : c = a
      · subst hc
        rw [Memory.read_of_forall_ne fun d hd e => by have := hm.1 d hd; simp at this; omega,
          Memory.read_of_forall_ne fun d hd e => by have := hn.1 d hd; simp at this; omega]
      · have := h c
        simpa [Memory.read, hc] using this

/-! ## Runs of cells -/

/-- A cell of a run just written holds its symbol (distinct addresses, so a positive stride). -/
theorem Memory.read_writeRun_mem (m : Memory) (base : Nat) {stride : Nat} (hs : 0 < stride) (vs : List Sym) {j : Nat}
    (hj : j < vs.length) : (m.writeRun base stride vs).read (base + j * stride) = vs[j]? := by
  induction vs generalizing m base j with
  | nil => simp at hj
  | cons v vs ih =>
    cases j with
    | zero =>
      simp only [Memory.writeRun, Nat.zero_mul, Nat.add_zero, List.getElem?_cons_zero]
      suffices h : ∀ (ws : List Sym) (n : Memory) (b : Nat), base < b → (n.writeRun b stride ws).read base = n.read base by
        rw [h _ _ _ (by omega), Memory.read_write_self]
      intro ws
      induction ws with
      | nil => intros; rfl
      | cons w ws ih2 =>
        intro n b hb
        rw [Memory.writeRun, ih2 _ _ (by omega), Memory.read_write_ne _ _ (by omega)]
    | succ j =>
      have e : base + (j + 1) * stride = (base + stride) + j * stride := by rw [Nat.succ_mul]; omega
      rw [e, Memory.writeRun, ih _ _ (by simpa using hj)]
      simp

/-- A run's write leaves every cell outside the run alone. -/
theorem Memory.read_writeRun_other (m : Memory) (base stride : Nat) (vs : List Sym) (a : Nat)
    (h : ∀ j, j < vs.length → a ≠ base + j * stride) : (m.writeRun base stride vs).read a = m.read a := by
  induction vs generalizing m base with
  | nil => rfl
  | cons v vs ih =>
    rw [Memory.writeRun, ih, Memory.read_write_ne]
    · simpa using h 0 (by simp)
    · intro j hj e
      refine h (j + 1) (by simpa using hj) ?_
      rw [e, Nat.succ_mul]; omega

/-- A run's write inside the buffer keeps the canonical form. -/
theorem Memory.wf_writeRun {m : Memory} (hm : m.wf) (base stride : Nat) (vs : List Sym)
    (h : ∀ j, j < vs.length → base + j * stride < 144) : (m.writeRun base stride vs).wf := by
  induction vs generalizing m base with
  | nil => exact hm
  | cons v vs ih =>
    refine ih (Memory.wf_write v hm (by simpa using h 0 (by simp))) _ fun j hj => ?_
    have := h (j + 1) (by simpa using hj)
    rw [Nat.succ_mul] at this
    omega

theorem Memory.cells_length (m : Memory) (base stride count : Nat) : (m.cells base stride count).length = count := by
  simp [Memory.cells]

theorem Memory.cells_getElem? (m : Memory) (base stride : Nat) {count j : Nat} (h : j < count) :
    (m.cells base stride count)[j]? = some (m.read (base + j * stride)) := by
  simp [Memory.cells, h]

/-- Runs that read the same cell by cell are the same. -/
theorem Memory.cells_congr {m n : Memory} {base stride count : Nat}
    (h : ∀ j, j < count → m.read (base + j * stride) = n.read (base + j * stride)) :
    m.cells base stride count = n.cells base stride count := by
  unfold Memory.cells
  exact List.map_congr_left fun j hj => h j (List.mem_range.1 hj)

/-! ## Lists of cells -/

/-- All cells of a list hold values exactly when the list is the values', each marked written. -/
theorem allWritten_eq_some {cs : List (Option Sym)} {vs : List Sym} : allWritten cs = some vs ↔ cs = vs.map some := by
  induction cs generalizing vs with
  | nil => cases vs <;> simp [allWritten]
  | cons c cs ih =>
    cases c with
    | none => cases vs <;> simp [allWritten]
    | some v =>
      cases vs with
      | nil => simp [allWritten]
      | cons w vs =>
        simp only [allWritten, Option.map_eq_some_iff, List.map_cons, List.cons.injEq, Option.some.injEq]
        constructor
        · rintro ⟨us, hu, rfl, rfl⟩
          exact ⟨rfl, ih.1 hu⟩
        · rintro ⟨rfl, h⟩
          exact ⟨vs, ih.2 h, rfl, rfl⟩

/-- Not all cells hold values exactly when one of them is `none`. -/
theorem allWritten_eq_none {cs : List (Option Sym)} : allWritten cs = none ↔ none ∈ cs := by
  induction cs with
  | nil => simp [allWritten]
  | cons c cs ih => cases c <;> simp [allWritten, ih]

end Sys2Proof.Machine
end

