-- ==== Sys2Proof/Laws/Ops.lean ====
section
/-! SUPPORT. One lemma for each shared operation that says all it can do: the frame `command`, taking a fault, runs of
the buffer, the result in the shift register, slots. -/

namespace Sys2Proof.Machine

/-! ## The frame of a command, and taking a fault -/

theorem isHalted_eq_false {s : State} (h : s.err = 0#4) : s.isHalted = false := by simp [State.isHalted, h]

theorem isHalted_eq_true {s : State} (h : s.err ≠ 0#4) : s.isHalted = true := by simp [State.isHalted, h]

/-- Every fault code is 1 to 8. -/
theorem FaultCode.code_range (f : FaultCode) : 1 ≤ f.code.toNat ∧ f.code.toNat ≤ 8 := by cases f <;> decide

theorem FaultCode.code_ne_zero (f : FaultCode) : f.code ≠ 0#4 := by cases f <;> decide

theorem FaultCode.code_injective {f g : FaultCode} (h : f.code = g.code) : f = g := by
  cases f <;> cases g <;> first | rfl | exact absurd h (by decide)

/-- Taking a fault, whole. -/
theorem raise_eq (s : State) (f : FaultCode) :
    s.raise f = { s with err := f.code, rsp := some (f.code ++ 0#28) } := by
  cases f <;> rfl

/-- A completed command's response word, whole. -/
theorem complete_eq (s : State) (d : Data) : s.complete d = { s with rsp := some (0#16 ++ d) } := by
  have : responseWord 0#4 d = 0#16 ++ d := BitVec.eq_of_toNat_eq (by simp [responseWord])
  simp [State.complete, State.respond, this]

theorem command_ok {s t : State} {d : Data} {body : Except FaultCode (State × Data)} (h : s.err = 0#4)
    (hb : body = .ok (t, d)) : command s body = .next (t.complete d) := by
  simp [command, isHalted_eq_false h, hb]

theorem command_error {s : State} {f : FaultCode} {body : Except FaultCode (State × Data)} (h : s.err = 0#4)
    (hb : body = .error f) : command s body = .next (s.raise f) := by
  simp [command, isHalted_eq_false h, hb]

/-- A command whose body faults, in the statements' words. -/
theorem command_faultsWith {s : State} {f : FaultCode} {body : Except FaultCode (State × Data)} (h : s.err = 0#4)
    (hb : body = .error f) : faultsWith (command s body) s f := by
  rw [faultsWith, command_error h hb, raise_eq]

theorem command_halted {s : State} {body : Except FaultCode (State × Data)} (h : s.err ≠ 0#4) :
    command s body = .next s.answerHalted := by
  simp [command, isHalted_eq_true h]

/-- All a command can do: answer `HALTED`, complete with its body's state, or take its body's fault. -/
theorem command_cases {s u : State} {body : Except FaultCode (State × Data)} (h : command s body = .next u) :
    (s.err ≠ 0#4 ∧ u = s.answerHalted) ∨
    (s.err = 0#4 ∧ ∃ t d, body = .ok (t, d) ∧ u = t.complete d) ∨
    (s.err = 0#4 ∧ ∃ f, body = .error f ∧ u = s.raise f) := by
  by_cases he : s.err = 0#4
  · cases hb : body with
    | ok p =>
      obtain ⟨t, d⟩ := p
      rw [command_ok he hb] at h
      exact .inr (.inl ⟨he, t, d, rfl, (Host.Outcome.next.inj h).symm⟩)
    | error f =>
      rw [command_error he hb] at h
      exact .inr (.inr ⟨he, f, rfl, (Host.Outcome.next.inj h).symm⟩)
  · rw [command_halted he] at h
    exact .inl ⟨he, (Host.Outcome.next.inj h).symm⟩

/-- A command answers a next state, always. -/
theorem command_next (s : State) (body : Except FaultCode (State × Data)) : ∃ u, command s body = .next u := by
  unfold command
  split
  · exact ⟨_, rfl⟩
  · split <;> exact ⟨_, rfl⟩

/-- A command that leaves `ERR` at 0 completed. -/
theorem command_completed {s u : State} {body : Except FaultCode (State × Data)} (h : command s body = .next u)
    (hs : s.err = 0#4) (hu : u.err = 0#4) : ∃ t d, body = .ok (t, d) ∧ u = t.complete d := by
  rcases command_cases h with ⟨he, _⟩ | ⟨_, t, d, hb, rfl⟩ | ⟨_, f, _, rfl⟩
  · exact absurd hs he
  · exact ⟨t, d, hb, rfl⟩
  · exact absurd hu f.code_ne_zero

/-! ## Operand forms -/

theorem runInRange_iff {base stride count : Nat} :
    runInRange base stride count = true ↔ count = 0 ∨ base + (count - 1) * stride ≤ 143 := by
  simp [runInRange]

/-- Every address of a run in range is an address of the buffer. -/
theorem runInRange_lt {base stride count j : Nat} (h : runInRange base stride count = true) (hj : j < count) :
    base + j * stride < 144 := by
  rcases runInRange_iff.1 h with h | h
  · omega
  · have : j * stride ≤ (count - 1) * stride := Nat.mul_le_mul_right _ (by omega)
    omega

/-- Reading a run, whole: the list it gives is what the cells hold. -/
theorem readRun_eq_ok {m : Memory} {base stride count : Nat} {d : List Sym} :
    readRun m base stride count = .ok d ↔
      runInRange base stride count = true ∧ d.length = count ∧ ∀ j, j < count → m.read (base + j * stride) = d[j]? := by
  unfold readRun
  by_cases hr : runInRange base stride count = true
  · simp only [hr, if_true, true_and]
    have key : allWritten (m.cells base stride count) = some d ↔
        d.length = count ∧ ∀ j, j < count → m.read (base + j * stride) = d[j]? := by
      rw [allWritten_eq_some]
      constructor
      · intro h
        have hl : d.length = count := by
          rw [← Memory.cells_length m base stride count, h, List.length_map]
        refine ⟨hl, fun j hj => ?_⟩
        have := Memory.cells_getElem? m base stride hj
        rw [h, List.getElem?_map, List.getElem?_eq_getElem (by omega)] at this
        rw [List.getElem?_eq_getElem (by omega)]
        simpa using this.symm
      · rintro ⟨hl, h⟩
        apply List.ext_getElem?
        intro j
        by_cases hj : j < count
        · rw [Memory.cells_getElem? m base stride hj, h j hj, List.getElem?_map,
            List.getElem?_eq_getElem (by omega)]
          rfl
        · rw [List.getElem?_eq_none (by rw [Memory.cells_length]; omega),
            List.getElem?_eq_none (by rw [List.length_map]; omega)]
    rw [← key]
    split <;> simp_all
  · simp [hr]

/-- Reading a run that leaves the buffer. -/
theorem readRun_eq_addrRange {m : Memory} {base stride count : Nat} (h : runInRange base stride count = false) :
    readRun m base stride count = .error .addrRange := by simp [readRun, h]

/-- Reading a run inside the buffer of which a cell holds nothing. -/
theorem readRun_eq_unwritten {m : Memory} {base stride count j : Nat} (h : runInRange base stride count = true)
    (hj : j < count) (hn : m.read (base + j * stride) = none) : readRun m base stride count = .error .unwritten := by
  have : allWritten (m.cells base stride count) = none := by
    rw [allWritten_eq_none, Memory.cells, List.mem_map]
    exact ⟨j, List.mem_range.2 hj, hn⟩
  simp [readRun, h, this]

/-- The faults a run can raise. -/
theorem readRun_error {m : Memory} {base stride count : Nat} {f : FaultCode}
    (h : readRun m base stride count = .error f) : f = .addrRange ∨ (f = .unwritten ∧ runInRange base stride count = true ∧
      ∃ j, j < count ∧ m.read (base + j * stride) = none) := by
  by_cases hr : runInRange base stride count = true
  · right
    unfold readRun at h
    rw [if_pos hr] at h
    split at h
    · simp at h
    · rename_i hn
      rw [allWritten_eq_none, Memory.cells, List.mem_map] at hn
      obtain ⟨j, hj, hm⟩ := hn
      simp only [Except.error.injEq] at h
      exact ⟨h.symm, hr, j, List.mem_range.1 hj, hm⟩
  · left
    rw [readRun_eq_addrRange (by simpa using hr)] at h
    simp only [Except.error.injEq] at h
    exact h.symm

/-- A run reads the same in memories that agree on its cells. -/
theorem readRun_congr {m n : Memory} {base stride count : Nat}
    (h : ∀ j, j < count → m.read (base + j * stride) = n.read (base + j * stride)) :
    readRun m base stride count = readRun n base stride count := by
  unfold readRun
  rw [Memory.cells_congr h]

theorem slotIndex_eq_some {sel : BitVec 2} {i : Fin 3} : slotIndex sel = some i ↔ sel.toNat = i.val := by
  unfold slotIndex
  split
  · simp [Fin.ext_iff]
  · have := i.isLt
    simp only [reduceCtorEq, false_iff]
    omega

theorem slotIndex_eq_none {sel : BitVec 2} : slotIndex sel = none ↔ sel = 3#2 := by
  revert sel; decide

theorem strideLegal_iff {stride : BitVec 4} : strideLegal stride = true ↔ stride ≠ 0#4 := by simp [strideLegal]

theorem nsymLegal_iff {nsym : BitVec 5} : nsymLegal nsym = true ↔ 1 ≤ nsym.toNat ∧ nsym.toNat ≤ 28 := by
  simp [nsymLegal]

theorem modeLegal_iff {mode : BitVec 3} : modeLegal mode = true ↔ 2 ≤ mode.toNat ∧ mode.toNat ≤ 6 := by
  simp [modeLegal]

theorem tableLegal_iff {t : BitVec 2} : tableLegal t = true ↔ t ≠ 3#2 := by revert t; decide

theorem stride_pos {stride : BitVec 4} (h : stride ≠ 0#4) : 0 < stride.toNat := by
  rcases Nat.eq_zero_or_pos stride.toNat with h0 | h0
  · exact absurd (BitVec.eq_of_toNat_eq (by simpa using h0)) h
  · exact h0

/-! ## The result in the shift register -/

theorem resCell_lt (s : State) {k : Nat} (h : k < 28) : s.resCell k = s.res[k] := by simp [State.resCell, h]

theorem resCell_ge (s : State) {k : Nat} (h : 28 ≤ k) : s.resCell k = none := by
  simp [State.resCell, Nat.not_lt.2 h]

/-- The result as a list, whole. -/
theorem result_eq_some {s : State} {r : List Sym} :
    s.result = some r ↔ r.length = s.rlen.toNat ∧ ∀ k, k < s.rlen.toNat → s.resCell k = r[k]? := by
  unfold State.result
  rw [allWritten_eq_some]
  constructor
  · intro h
    have hl : r.length = s.rlen.toNat := by simpa using (congrArg List.length h).symm
    refine ⟨hl, fun k hk => ?_⟩
    have := congrArg (·[k]?) h
    simp only [List.getElem?_map, List.getElem?_range hk, List.getElem?_eq_getElem (show k < r.length by omega)] at this
    rw [List.getElem?_eq_getElem (by omega)]
    simpa using this
  · rintro ⟨hl, h⟩
    apply List.ext_getElem?
    intro k
    by_cases hk : k < s.rlen.toNat
    · simp only [List.getElem?_map, List.getElem?_range hk, List.getElem?_eq_getElem (show k < r.length by omega)]
      simp [h k hk, List.getElem?_eq_getElem (show k < r.length by omega)]
    · rw [List.getElem?_eq_none (by simp; omega), List.getElem?_eq_none (by simp; omega)]

/-- A sound shift register holds a result: a list of `RLEN` symbols. -/
theorem result_of_sound {s : State} (h : s.resultSound) : ∃ r, s.result = some r := by
  cases hr : s.result with
  | some r => exact ⟨r, rfl⟩
  | none =>
    exfalso
    unfold State.result at hr
    rw [allWritten_eq_none, List.mem_map] at hr
    obtain ⟨k, hk, hn⟩ := hr
    rw [List.mem_range] at hk
    have h28 : k < 28 := by have := h.1; omega
    have := h.2 ⟨k, h28⟩
    rw [resCell_lt s h28] at hn
    simp [hn, hk] at this

/-- What `RSENC` or a part leaves in the shift register is its result. -/
theorem result_setResult (s : State) (nsym : BitVec 5) (r : List Sym) (hl : r.length = nsym.toNat)
    (h : nsym.toNat ≤ 28) : (s.setResult nsym r).result = some r := by
  rw [result_eq_some]
  refine ⟨hl, fun k hk => ?_⟩
  simp only [State.setResult_rlen] at hk
  rw [resCell_lt _ (by omega)]
  simp

/-- A result of the instance's length keeps R27's invariant. -/
theorem resultSound_setResult (s : State) (nsym : BitVec 5) (r : List Sym) (hl : r.length = nsym.toNat)
    (h : nsym.toNat ≤ 28) : (s.setResult nsym r).resultSound := by
  refine ⟨h, fun k => ?_⟩
  simp only [State.setResult_res, State.setResult_rlen, Fin.getElem_fin, resultCells_getElem]
  by_cases hk : k.val < nsym.toNat
  · simp [hk, List.getElem?_eq_getElem (show k.val < r.length by omega)]
  · simp [hk, List.getElem?_eq_none (show r.length ≤ k.val by omega)]

end Sys2Proof.Machine
end

