-- ==== Sys2Proof/Laws/Exec.lean ====
section
/-! SUPPORT. What a command and a step can do, said once: every command but `STAT` runs in the frame `command`, and a
step is one of five cycles at the ports. -/

namespace Sys2Proof.Machine

/-- `STAT` is the one command that does not run in the frame. -/
theorem exec_stat (s : State) : exec .stat s = .next (s.complete s.status) := rfl

/-- Every other command is the frame around a body. -/
theorem exec_eq_command {i : Instr} (hi : i ≠ .stat) :
    ∃ body : State → Except FaultCode (State × Data), ∀ s, exec i s = command s (body s) := by
  cases i
  case stat => exact absurd rfl hi
  case cwclr => exact ⟨fun s => .ok (s.clearCall, 0#16), fun s => rfl⟩
  all_goals exact ⟨_, fun s => rfl⟩

/-- All a command that answers a next state can do. -/
theorem exec_cases {i : Instr} {s u : State} (h : exec i s = .next u) :
    (i = .stat ∧ u = s.complete s.status) ∨ (i ≠ .stat ∧ s.err ≠ 0#4 ∧ u = s.answerHalted) ∨
    (i ≠ .stat ∧ s.err = 0#4 ∧ ∃ f, u = s.raise f) ∨ (i ≠ .stat ∧ s.err = 0#4 ∧ ∃ t d, u = State.complete t d) := by
  by_cases hi : i = .stat
  · subst hi
    exact .inl ⟨rfl, (Host.Outcome.next.inj h).symm⟩
  · obtain ⟨body, hb⟩ := exec_eq_command hi
    rw [hb] at h
    rcases command_cases h with ⟨he, hu⟩ | ⟨he, t, d, -, hu⟩ | ⟨he, f, -, hu⟩
    · exact .inr (.inl ⟨hi, he, hu⟩)
    · exact .inr (.inr (.inr ⟨hi, he, t, d, hu⟩))
    · exact .inr (.inr (.inl ⟨hi, he, f, hu⟩))

/-- All a step can do: the host drives nothing; it resets; it takes a response or leaves one; it presents nothing; it
issues a word. -/
theorem step_cases {s : State} {o : Host.Outcome State Fault Refusal} (h : step s = o) :
    (s.host = [] ∧ o = .next s) ∨
    ∃ p rest, s.host = p :: rest ∧
      ((p.rst = true ∧ o = .next { State.reset with host := rest, taken := s.taken }) ∨
      (p.rst = false ∧ ∃ w, s.rsp = some w ∧
        o = .next (if p.rspReady then { s with host := rest, rsp := none, taken := s.taken ++ [w] }
          else { s with host := rest })) ∨
      (p.rst = false ∧ s.rsp = none ∧ p.cmdValid = false ∧ o = .next { s with host := rest }) ∨
      (p.rst = false ∧ s.rsp = none ∧ p.cmdValid = true ∧
        ((∃ i, decode p.cmdData = .ok i ∧ o = exec i { s with host := rest }) ∨
          ∃ e, decode p.cmdData = .error e ∧ o = .next (State.rejectWord { s with host := rest })))) := by
  subst h
  unfold step portCycle
  cases hh : s.host with
  | nil => exact .inl ⟨rfl, rfl⟩
  | cons p rest =>
    refine .inr ⟨p, rest, rfl, ?_⟩
    dsimp only
    by_cases hr : p.rst = true
    · exact .inl ⟨hr, by simp only [hr, if_true]; rfl⟩
    · have hr' : p.rst = false := by simpa using hr
      right
      cases hs : s.rsp with
      | some w =>
        refine .inl ⟨hr', w, rfl, ?_⟩
        cases hq : p.rspReady <;> simp [State.rspValid, State.cmdReady, State.takeResponse, hr']
      | none =>
        right
        cases hq : p.cmdValid
        · exact .inl ⟨hr', rfl, rfl, by simp [State.rspValid, State.cmdReady, hr']⟩
        · refine .inr ⟨hr', rfl, rfl, ?_⟩
          cases hd : decode p.cmdData with
          | ok i => exact .inl ⟨i, rfl, by simp [State.rspValid, State.cmdReady, hr', hd]⟩
          | error e => exact .inr ⟨e, rfl, by simp [State.rspValid, State.cmdReady, hr', hd]⟩

end Sys2Proof.Machine
end

