-- ==== Sys2Proof/Laws/Field.lean ====
section
/-! SUPPORT. The small lemmas of construction and of the encode algorithm: what an instance's fields are, how long its
generator and an encode's result are. -/

namespace Sys2Proof.Machine

theorem genStep_length (t : Tables) (idx : Nat) (g : List Sym) : (genStep t idx g).length = g.length + 1 := by
  simp [genStep]

theorem genLoop_length (t : Tables) (n idx : Nat) (g : List Sym) : (genLoop t n idx g).length = g.length + n := by
  induction n generalizing idx g with
  | zero => rfl
  | succ n ih => rw [genLoop, ih, genStep_length]; omega

theorem generator_length (t : Tables) (nsym root : Nat) : (generator t nsym root).length = nsym + 1 := by
  rw [generator, genLoop_length]
  simp
  omega

/-- What construction gives, whole. -/
theorem construct_eq_some {poly : BitVec 8} {nsym : BitVec 5} {root : BitVec 6} {I : Encoder} :
    construct poly nsym root = some I ↔ buildTables poly = some I.toTables ∧ I.poly = poly.setWidth 7 ∧ I.nsym = nsym ∧
      I.root = root ∧ I.n = 63 ∧ I.gen = generator I.toTables nsym.toNat root.toNat := by
  unfold construct
  cases h : buildTables poly with
  | none => simp
  | some t =>
    obtain ⟨t', p', n', r', m', g'⟩ := I
    simp only [Option.some.injEq, Encoder.mk.injEq, Config.fieldN]
    constructor
    · rintro ⟨rfl, rfl, rfl, rfl, rfl, rfl⟩
      exact ⟨rfl, rfl, rfl, rfl, rfl, rfl⟩
    · rintro ⟨rfl, rfl, rfl, rfl, rfl, rfl⟩
      exact ⟨rfl, rfl, rfl, rfl, rfl, rfl⟩

/-- Construction needs degree 6. -/
theorem buildTables_degree {poly : BitVec 8} {t : Tables} (h : buildTables poly = some t) :
    poly.extractLsb' 6 2 = 1#2 := by
  unfold buildTables at h
  split at h
  · assumption
  · cases h

/-- A degree-6 polynomial is recovered from its 7 low bits. -/
theorem setWidth_of_degree {poly : BitVec 8} (h : poly.extractLsb' 6 2 = 1#2) :
    (poly.setWidth 7).setWidth 8 = poly := by
  revert poly; decide

/-- A sound instance, whole. -/
theorem sound_iff {I : Encoder} : I.sound = true ↔
    (1 ≤ I.nsym.toNat ∧ I.nsym.toNat ≤ 28) ∧ construct (I.poly.setWidth 8) I.nsym I.root = some I := by
  simp [Encoder.sound, nsymLegal_iff]

/-- A legal count and a construction that succeeds give a sound instance. -/
theorem sound_of_construct {poly : BitVec 8} {nsym : BitVec 5} {root : BitVec 6} {I : Encoder}
    (hn : nsymLegal nsym = true) (h : construct poly nsym root = some I) : I.sound = true := by
  have hc := construct_eq_some.1 h
  rw [sound_iff, hc.2.1, hc.2.2.1, hc.2.2.2.1, setWidth_of_degree (buildTables_degree hc.1)]
  exact ⟨nsymLegal_iff.1 hn, h⟩

theorem sound_gen_length {I : Encoder} (h : I.sound = true) : I.gen.length = I.nsym.toNat + 1 := by
  have hc := construct_eq_some.1 (sound_iff.1 h).2
  rw [hc.2.2.2.2.2, generator_length]

theorem sound_nsym {I : Encoder} (h : I.sound = true) : 1 ≤ I.nsym.toNat ∧ I.nsym.toNat ≤ 28 := (sound_iff.1 h).1

theorem taps_length {I : Encoder} (h : I.nsym.toNat ≤ I.gen.length) : I.taps.length = I.nsym.toNat := by
  simp [Encoder.taps, h]

/-- The register never grows beyond the taps. -/
theorem shift_length_le (I : Encoder) (r : List Sym) (d : Sym) : (I.shift r d).length ≤ I.nsym.toNat := by
  simp [Encoder.shift, Encoder.taps]

theorem shift_length {I : Encoder} {r : List Sym} (d : Sym) (h : I.nsym.toNat ≤ I.gen.length)
    (hr : r.length = I.nsym.toNat) : (I.shift r d).length = I.nsym.toNat := by
  simp [Encoder.shift, taps_length h, hr]

theorem foldl_shift_length {I : Encoder} (d : List Sym) {r : List Sym} (h : I.nsym.toNat ≤ I.gen.length)
    (hr : r.length = I.nsym.toNat) : (d.foldl I.shift r).length = I.nsym.toNat := by
  induction d generalizing r with
  | nil => exact hr
  | cons x d ih => exact ih (shift_length x h hr)

theorem lfsr_nil (I : Encoder) : I.lfsr [] = List.replicate I.nsym.toNat 0#6 := rfl

/-- One more data symbol is one more shift. -/
theorem lfsr_concat (I : Encoder) (d : List Sym) (x : Sym) : I.lfsr (d ++ [x]) = I.shift (I.lfsr d) x := by
  simp [Encoder.lfsr]

/-- An encode gives at most `NSYM` symbols, whatever the instance. -/
theorem lfsr_length_le (I : Encoder) (d : List Sym) : (I.lfsr d).length ≤ I.nsym.toNat := by
  rcases List.eq_nil_or_concat d with rfl | ⟨e, x, rfl⟩
  · simp [lfsr_nil]
  · rw [List.concat_eq_append, lfsr_concat]
    exact shift_length_le I _ x

/-- An encode gives `NSYM` symbols for an instance with all its taps. -/
theorem lfsr_length {I : Encoder} (d : List Sym) (h : I.nsym.toNat ≤ I.gen.length) :
    (I.lfsr d).length = I.nsym.toNat :=
  foldl_shift_length d h (by simp)

theorem sound_lfsr_length {I : Encoder} (d : List Sym) (h : I.sound = true) : (I.lfsr d).length = I.nsym.toNat :=
  lfsr_length d (by rw [sound_gen_length h]; omega)

end Sys2Proof.Machine
end

