-- ==== Sys2Proof/Laws/Pass.lean ====
section
/-! SUPPORT. What the shared operations of the shift-register and pass commands can do, each once. -/

namespace Sys2Proof.Machine

/-! ## `RSPUT` and `RSCMP` -/

/-- The result to write or compare, whole. -/
theorem resultRun_eq_ok {s : State} {base stride : Nat} {r : List Sym} :
    resultRun s base stride = .ok r ↔
      stride ≠ 0 ∧ s.rlen ≠ 0#5 ∧ runInRange base stride s.rlen.toNat = true ∧ s.result = some r := by
  unfold resultRun
  by_cases h1 : stride = 0
  · simp [h1]
  · by_cases h2 : s.rlen = 0#5
    · simp [h1, h2]
    · by_cases h3 : runInRange base stride s.rlen.toNat = true
      · cases hr : s.result <;> simp [h1, h2, h3]
      · simp [h1, h2, h3]

/-! ## The parts of the pass -/

theorem partEncoder_eq_ok {s : State} {p : Part} {I : Encoder} :
    partEncoder s p = .ok I ↔ s.slots[p.slot] = some I ∧ I.nsym = p.nsym := by
  unfold partEncoder
  cases h : s.slots[p.slot] with
  | none => simp
  | some J =>
    by_cases hn : J.nsym = p.nsym
    · simp only [hn, if_true, Except.ok.injEq, Option.some.injEq]
      exact ⟨fun e => ⟨e, e ▸ hn⟩, fun e => e.1⟩
    · simp only [hn, if_false, reduceCtorEq, Option.some.injEq, false_iff, not_and]
      rintro rfl
      exact hn

theorem partEncoder_error {s : State} {p : Part} {f : FaultCode} (h : partEncoder s p = .error f) : f = .notBuilt := by
  unfold partEncoder at h
  split at h
  · exact (Except.error.inj h).symm
  · split at h
    · cases h
    · exact (Except.error.inj h).symm

theorem partReady_iff {s : State} {p : Part} :
    partReady s p = true ↔ ∃ I, s.slots[p.slot] = some I ∧ I.nsym = p.nsym := by
  unfold partReady
  split
  · rename_i I h
    simpa using ⟨I, partEncoder_eq_ok.1 h⟩
  · rename_i f h
    simp only [Bool.false_eq_true, false_iff, not_exists]
    intro I hI
    rw [partEncoder_eq_ok.2 hI] at h
    cases h

/-- A part that writes, whole (R157): the encode of the part's data, left in `RES` and written to its ECC cells. -/
theorem runPart_write {s t : State} {p : Part} {b : Bool} :
    runPart true p s = .ok (t, b) ↔ ∃ I d, partEncoder s p = .ok I ∧ readRun s.cw p.dataBase p.stride p.len = .ok d ∧
      b = true ∧ t = { s.setResult I.nsym (I.lfsr d) with
        cw := s.cw.writeRun p.eccBase p.stride (I.lfsr d).reverse } := by
  unfold runPart
  cases he : partEncoder s p with
  | error f => simp
  | ok I =>
    cases hd : readRun s.cw p.dataBase p.stride p.len with
    | error f => simp
    | ok d =>
      simp only [if_true, Except.ok.injEq, Prod.mk.injEq, State.setResult_cw]
      constructor
      · rintro ⟨rfl, rfl⟩
        exact ⟨I, d, rfl, rfl, rfl, rfl⟩
      · rintro ⟨I', d', rfl, rfl, rfl, rfl⟩
        exact ⟨rfl, rfl⟩

/-- A part that compares, whole (R157). -/
theorem runPart_compare {s t : State} {p : Part} {b : Bool} :
    runPart false p s = .ok (t, b) ↔ ∃ I d e, partEncoder s p = .ok I ∧
      readRun s.cw p.dataBase p.stride p.len = .ok d ∧ readRun s.cw p.eccBase p.stride I.nsym.toNat = .ok e ∧
      b = eccEqual e (I.lfsr d) ∧ t = s.setResult I.nsym (I.lfsr d) := by
  unfold runPart
  cases he : partEncoder s p with
  | error f => simp
  | ok I =>
    cases hd : readRun s.cw p.dataBase p.stride p.len with
    | error f => simp
    | ok d =>
      simp only [Bool.false_eq_true, if_false, State.setResult_cw]
      cases hs : readRun s.cw p.eccBase p.stride I.nsym.toNat with
      | error f =>
        simp only [reduceCtorEq, false_iff, not_exists]
        rintro I' d' e' ⟨h1, _, h3, _⟩
        cases h1
        rw [hs] at h3
        cases h3
      | ok e =>
        simp only [Except.ok.injEq, Prod.mk.injEq]
        constructor
        · rintro ⟨rfl, rfl⟩
          exact ⟨I, d, e, rfl, rfl, hs, rfl, rfl⟩
        · rintro ⟨I', d', e', rfl, rfl, h3, rfl, rfl⟩
          rw [hs] at h3
          cases h3
          exact ⟨rfl, rfl⟩

/-- What no part changes. -/
structure SamePart (s t : State) : Prop where
  slots : t.slots = s.slots
  matchFlag : t.matchFlag = s.matchFlag
  err : t.err = s.err
  rsp : t.rsp = s.rsp
  host : t.host = s.host
  taken : t.taken = s.taken

theorem SamePart.refl (s : State) : SamePart s s := ⟨rfl, rfl, rfl, rfl, rfl, rfl⟩

theorem SamePart.trans {s t u : State} (h : SamePart s t) (k : SamePart t u) : SamePart s u :=
  ⟨k.slots.trans h.slots, k.matchFlag.trans h.matchFlag, k.err.trans h.err, k.rsp.trans h.rsp, k.host.trans h.host,
    k.taken.trans h.taken⟩

/-- The frame of a part: only `RES`, `RLEN` and, if it writes, `CW` change. -/
theorem runPart_frame {w : Bool} {p : Part} {s t : State} {b : Bool} (h : runPart w p s = .ok (t, b)) :
    SamePart s t ∧ (w = false → t.cw = s.cw) := by
  cases w
  · obtain ⟨I, d, e, _, _, _, _, rfl⟩ := runPart_compare.1 h
    exact ⟨⟨rfl, rfl, rfl, rfl, rfl, rfl⟩, fun _ => rfl⟩
  · obtain ⟨I, d, _, _, _, rfl⟩ := runPart_write.1 h
    exact ⟨⟨rfl, rfl, rfl, rfl, rfl, rfl⟩, fun e => by cases e⟩

/-- Running a list of parts: the first, then the rest on the state it leaves. -/
theorem runParts_cons {w : Bool} {p : Part} {ps : List Part} {s u : State} {b : Bool} :
    runParts w (p :: ps) s = .ok (u, b) ↔ ∃ t c d, runPart w p s = .ok (t, c) ∧ runParts w ps t = .ok (u, d) ∧
      b = (c && d) := by
  rw [runParts]
  cases h1 : runPart w p s with
  | error f => simp
  | ok q =>
    obtain ⟨t, c⟩ := q
    dsimp only
    cases h2 : runParts w ps t with
    | error f =>
      simp only [reduceCtorEq, false_iff, not_exists]
      rintro t' c' d' ⟨h3, h4, _⟩
      cases h3
      rw [h2] at h4
      cases h4
    | ok q =>
      obtain ⟨v, d⟩ := q
      simp only [Except.ok.injEq, Prod.mk.injEq]
      constructor
      · rintro ⟨rfl, rfl⟩
        exact ⟨t, c, d, ⟨rfl, rfl⟩, h2, rfl⟩
      · rintro ⟨t', c', d', ⟨rfl, rfl⟩, h4, rfl⟩
        rw [h2] at h4
        cases h4
        exact ⟨rfl, rfl⟩

@[simp] theorem runParts_nil {w : Bool} {s u : State} {b : Bool} :
    runParts w [] s = .ok (u, b) ↔ u = s ∧ b = true := by
  simp [runParts, eq_comm]

/-- The frame of a list of parts. -/
theorem runParts_frame {w : Bool} {ps : List Part} {s t : State} {b : Bool} (h : runParts w ps s = .ok (t, b)) :
    SamePart s t ∧ (w = false → t.cw = s.cw) := by
  induction ps generalizing s b with
  | nil =>
    obtain ⟨rfl, -⟩ := runParts_nil.1 h
    exact ⟨.refl _, fun _ => rfl⟩
  | cons p ps ih =>
    obtain ⟨u, c, d, h1, h2, -⟩ := runParts_cons.1 h
    exact ⟨(runPart_frame h1).1.trans (ih h2).1, fun e => ((ih h2).2 e).trans ((runPart_frame h1).2 e)⟩

theorem passParts_eq_ok {w : Bool} {ps : List Part} {s t : State} {b : Bool} :
    passParts w ps s = .ok (t, b) ↔ (∀ p ∈ ps, partReady s p = true) ∧ runParts w ps s = .ok (t, b) := by
  unfold passParts
  split
  · simp_all
  · simp_all

theorem writingPass_eq_ok {ps : List Part} {s t : State} {d : Data} :
    writingPass ps s = .ok (t, d) ↔ d = 0#16 ∧ ∃ b, passParts true ps s = .ok (t, b) := by
  unfold writingPass
  cases h : passParts true ps s with
  | error f => simp
  | ok q =>
    obtain ⟨u, c⟩ := q
    simp only [Except.ok.injEq, Prod.mk.injEq]
    constructor
    · rintro ⟨rfl, rfl⟩
      exact ⟨rfl, c, rfl, rfl⟩
    · rintro ⟨rfl, b, rfl, -⟩
      exact ⟨rfl, rfl⟩

/-- A part faults only because it is not ready, or because a run it reads does. -/
theorem runPart_error {w : Bool} {p : Part} {s : State} {f : FaultCode} (h : runPart w p s = .error f) :
    partEncoder s p = .error f ∨ readRun s.cw p.dataBase p.stride p.len = .error f ∨
      ∃ I, partEncoder s p = .ok I ∧ w = false ∧ readRun s.cw p.eccBase p.stride I.nsym.toNat = .error f := by
  unfold runPart at h
  cases he : partEncoder s p with
  | error g => simp only [he] at h; cases h; exact .inl rfl
  | ok I =>
    simp only [he] at h
    cases hd : readRun s.cw p.dataBase p.stride p.len with
    | error g => simp only [hd] at h; cases h; exact .inr (.inl rfl)
    | ok d =>
      simp only [hd] at h
      cases w with
      | true => simp at h
      | false =>
        simp only [Bool.false_eq_true, if_false, State.setResult_cw] at h
        cases hs : readRun s.cw p.eccBase p.stride I.nsym.toNat with
        | error g => simp only [hs] at h; cases h; exact .inr (.inr ⟨I, rfl, rfl, hs⟩)
        | ok e => simp [hs] at h

end Sys2Proof.Machine
end

