-- ==== Sys2Proof/Laws/PerInstr.lean ====
section
/-! SUPPORT. A fact about the encoding of every command: the word that spells it matches its row of R75
(30_encoding.md). One lemma per constructor. -/

namespace Sys2Proof.Laws

/-- The word that spells `i` has R75's `match` under R75's `mask`. -/
def MatchesRow.Statement (i : Instr) : Prop := encode i &&& i.rowMask = i.rowMatch

theorem MatchesRow.rsnew (sel : BitVec 2) (nsym : BitVec 5) (root : BitVec 6) (poly : BitVec 8) :
    MatchesRow.Statement (.rsnew sel nsym root poly) := by
  apply BitVec.eq_of_getLsbD_eq
  intro k hk
  simp only [encode, Instr.rowMask, Instr.rowMatch, BitVec.getLsbD_and, BitVec.getLsbD_append]
  interval_cases k <;> simp

theorem MatchesRow.rsenc (sel : BitVec 2) (len base : BitVec 8) (stride : BitVec 4) :
    MatchesRow.Statement (.rsenc sel len base stride) := by
  apply BitVec.eq_of_getLsbD_eq
  intro k hk
  simp only [encode, Instr.rowMask, Instr.rowMatch, BitVec.getLsbD_and, BitVec.getLsbD_append]
  interval_cases k <;> simp

theorem MatchesRow.rsput (base : BitVec 8) (stride : BitVec 4) : MatchesRow.Statement (.rsput base stride) := by
  apply BitVec.eq_of_getLsbD_eq
  intro k hk
  simp only [encode, Instr.rowMask, Instr.rowMatch, BitVec.getLsbD_and, BitVec.getLsbD_append]
  interval_cases k <;> simp

theorem MatchesRow.rscmp (base : BitVec 8) (stride : BitVec 4) : MatchesRow.Statement (.rscmp base stride) := by
  apply BitVec.eq_of_getLsbD_eq
  intro k hk
  simp only [encode, Instr.rowMask, Instr.rowMatch, BitVec.getLsbD_and, BitVec.getLsbD_append]
  interval_cases k <;> simp

theorem MatchesRow.eccpri : MatchesRow.Statement .eccpri := rfl

theorem MatchesRow.eccsece (mode : BitVec 3) : MatchesRow.Statement (.eccsece mode) := by
  unfold MatchesRow.Statement; revert mode; decide

theorem MatchesRow.eccseco (mode : BitVec 3) : MatchesRow.Statement (.eccseco mode) := by
  unfold MatchesRow.Statement; revert mode; decide

theorem MatchesRow.eccall (mode : BitVec 3) : MatchesRow.Statement (.eccall mode) := by
  unfold MatchesRow.Statement; revert mode; decide

theorem MatchesRow.eccchk (mode : BitVec 3) : MatchesRow.Statement (.eccchk mode) := by
  unfold MatchesRow.Statement; revert mode; decide

theorem MatchesRow.cwst (addr : BitVec 8) (val : Sym) : MatchesRow.Statement (.cwst addr val) := by
  apply BitVec.eq_of_getLsbD_eq
  intro k hk
  simp only [encode, Instr.rowMask, Instr.rowMatch, BitVec.getLsbD_and, BitVec.getLsbD_append]
  interval_cases k <;> simp

theorem MatchesRow.cwld (addr : BitVec 8) : MatchesRow.Statement (.cwld addr) := by
  apply BitVec.eq_of_getLsbD_eq
  intro k hk
  simp only [encode, Instr.rowMask, Instr.rowMatch, BitVec.getLsbD_and, BitVec.getLsbD_append]
  interval_cases k <;> simp

theorem MatchesRow.resld (k : BitVec 5) : MatchesRow.Statement (.resld k) := by
  unfold MatchesRow.Statement; revert k; decide

theorem MatchesRow.tblld (sel t : BitVec 2) (idx : BitVec 8) : MatchesRow.Statement (.tblld sel t idx) := by
  apply BitVec.eq_of_getLsbD_eq
  intro k hk
  simp only [encode, Instr.rowMask, Instr.rowMatch, BitVec.getLsbD_and, BitVec.getLsbD_append]
  interval_cases k <;> simp

theorem MatchesRow.stat : MatchesRow.Statement .stat := rfl

theorem MatchesRow.cwclr : MatchesRow.Statement .cwclr := rfl

end Sys2Proof.Laws
end

