-- ==== Sys2Proof/Laws/Run.lean ====
section
/-! SUPPORT. How runs compose, and what a run that passes is. -/

namespace Sys2Proof.Machine

/-- A run of `m + n` steps is one of `m` and then one of `n`. -/
theorem core_run_add {m n : Nat} {s t : State} (h : Sys2Proof.core.run m s = .next t) :
    Sys2Proof.core.run (m + n) s = Sys2Proof.core.run n t := by
  induction m generalizing s with
  | zero =>
    cases h
    rw [Nat.zero_add]
  | succ m ih =>
    rw [Nat.succ_add]
    simp only [Host.Core.run] at h ⊢
    split at h
    · exact ih h
    · cases h
    · cases h

theorem hostProgram_append (ws vs : List Word) : hostProgram (ws ++ vs) = hostProgram ws ++ hostProgram vs := by
  induction ws with
  | nil => rfl
  | cons w ws ih => rw [List.cons_append, hostProgram, ih, hostProgram, List.cons_append, List.cons_append]

theorem endsInMatch_iff {o : Host.Outcome State Fault Refusal} :
    endsInMatch o = true ↔ ∃ u, o = .next u ∧ u.matchFlag = true := by
  cases o <;> simp [endsInMatch]

/-- A run that passes, whole: it ends, every taken response has `FAULT = 0`, and `MATCH` is 1 where the test asks. -/
theorem runPasses_iff {ws : List Word} {matchAt : List Nat} : runPasses ws matchAt = true ↔
    ∃ t, runWords State.reset ws = .next t ∧ (∀ w ∈ t.taken, w.extractLsb' 28 4 = 0#4) ∧
      ∀ k ∈ matchAt, ∃ u, runWords State.reset (ws.take k) = .next u ∧ u.matchFlag = true := by
  unfold runPasses
  cases runWords State.reset ws with
  | next t =>
    simp only [Bool.and_eq_true, List.all_eq_true, beq_iff_eq, endsInMatch_iff]
    exact ⟨fun h => ⟨t, rfl, h⟩, fun ⟨v, h, hm⟩ => by cases h; exact hm⟩
  | fault r => simp
  | refused r => simp

end Sys2Proof.Machine
end

