-- ==== Sys2Proof/Tests/Slice0.lean ====
section
/-! SUPPORT. Our own tests: words written out from the encoding tables, the well-formedness smoke, at most two one-step
tests per command with the spec's own numbers (40_field_and_construction.md R107, R110; 95_test_vectors.md), and for
each obligation with hypotheses a theorem `witness_<Name>` that shows them met. -/

namespace Sys2Proof.Machine.Tests

-- One theorem at a time: the kernel evaluations below would otherwise wait for each other on many threads.
set_option Elab.async false

/-! ## Helpers -/

/-- The tables of R107. -/
def maxiTables : Tables where
  log := ⟨#[none, some 0, some 1, some 6, some 2, some 12, some 7, some 26, some 3, some 32, some 13, some 35, some 8,
    some 48, some 27, some 18, some 4, some 24, some 33, some 16, some 14, some 52, some 36, some 54, some 9, some 45,
    some 49, some 38, some 28, some 41, some 19, some 56, some 5, some 62, some 25, some 11, some 34, some 31, some 17,
    some 47, some 15, some 23, some 53, some 51, some 37, some 44, some 55, some 40, some 10, some 61, some 46, some 30,
    some 50, some 22, some 39, some 43, some 29, some 60, some 42, some 21, some 20, some 59, some 57, some 58], rfl⟩
  alog := ⟨#[1, 2, 4, 8, 16, 32, 3, 6, 12, 24, 48, 35, 5, 10, 20, 40, 19, 38, 15, 30, 60, 59, 53, 41, 17, 34, 7, 14, 28,
    56, 51, 37, 9, 18, 36, 11, 22, 44, 27, 54, 47, 29, 58, 55, 45, 25, 50, 39, 13, 26, 52, 43, 21, 42, 23, 46, 31, 62,
    63, 61, 57, 49, 33], rfl⟩

/-- R110's 10-symbol instance. -/
def maxi10 : Encoder :=
  { toTables := maxiTables, poly := 0x43, nsym := 10, root := 1, n := 63,
    gen := [46, 44, 49, 3, 2, 57, 42, 39, 28, 31, 1] }

/-- R110's 20-symbol instance. -/
def maxi20 : Encoder :=
  { toTables := maxiTables, poly := 0x43, nsym := 20, root := 1, n := 63,
    gen := [59, 23, 19, 31, 33, 38, 17, 22, 48, 15, 36, 57, 37, 22, 8, 27, 33, 11, 44, 23, 1] }

/-- R110's 28-symbol instance. -/
def maxi28 : Encoder :=
  { toTables := maxiTables, poly := 0x43, nsym := 28, root := 1, n := 63,
    gen := [28, 11, 20, 7, 43, 9, 41, 34, 49, 46, 37, 40, 55, 34, 45, 61, 13, 23, 29, 22, 10, 35, 55, 41, 10, 53, 45,
      22, 1] }

/-- A unit after `BOOTMAXI`, with a buffer. -/
def booted (m : Memory) : State := { State.reset with slots := ⟨#[some maxi10, some maxi20, some maxi28], rfl⟩, cw := m }

/-- A unit after reset to which the host presents a word. -/
def presenting (w : Word) : State := { State.reset with host := [PortIn.present w] }

/-- The cells `base` up hold the list. -/
def cellsFrom (base : Nat) (vs : List Sym) : Memory := vs.zipIdx.map fun p => (base + p.2, p.1)

/-- The data cells of the primary and of the secondary hold one value. -/
def dataCells (dlen : Nat) (v : Sym) : Memory :=
  cellsFrom 0 (List.replicate 10 v) ++ cellsFrom 20 (List.replicate dlen v)

/-- All 144 cells hold one value. -/
def filled (v : Sym) : Memory := cellsFrom 0 (List.replicate 144 v)

/-- A booted unit with a 10-symbol result in `RES` (vector E14). -/
def encoded (m : Memory) : State := (booted m).setResult 10 [1, 10, 50, 33, 43, 2, 10, 58, 26, 23]

/-- The state an outcome answers. -/
def after (o : Host.Outcome State Fault Refusal) : State :=
  match o with
  | .next t => t
  | _ => State.reset

def isNext (o : Host.Outcome State Fault Refusal) : Bool :=
  match o with
  | .next _ => true
  | _ => false

theorem eq_next {o : Host.Outcome State Fault Refusal} (h : isNext o = true) : o = .next (after o) := by
  cases o <;> first | rfl | cases h

/-! ## Decoding: words written out from R73's formats -/

theorem test_decode_rsnew : decode 0b00000001_10_111111_000_11100_01000011#32 = .ok (.rsnew 2#2 28#5 63#6 0x43#8) := by decide
theorem test_decode_rsenc : decode 0b00000010_01_00_1111_00001000_00001010#32 = .ok (.rsenc 1#2 10#8 8#8 15#4) := by decide
theorem test_decode_rsput : decode 0b00000011_0000_0010_01011000_00000000#32 = .ok (.rsput 88#8 2#4) := by decide
theorem test_decode_rscmp : decode 0b00000100_0000_0001_00001010_00000000#32 = .ok (.rscmp 10#8 1#4) := by decide
theorem test_decode_eccpri : decode 0b00001000_000000000000000000000000#32 = .ok .eccpri := by decide
theorem test_decode_eccsece : decode 0b00001001_000000000000000000000_101#32 = .ok (.eccsece 5#3) := by decide
theorem test_decode_eccseco : decode 0b00001010_000000000000000000000_100#32 = .ok (.eccseco 4#3) := by decide
theorem test_decode_eccall : decode 0b00001011_000000000000000000000_010#32 = .ok (.eccall 2#3) := by decide
theorem test_decode_eccchk : decode 0b00001100_000000000000000000000_110#32 = .ok (.eccchk 6#3) := by decide
theorem test_decode_cwst : decode 0b00010000_00000000_10001111_00_100001#32 = .ok (.cwst 143#8 33#6) := by decide
theorem test_decode_cwld : decode 0b00010001_00000000_00010100_00000000#32 = .ok (.cwld 20#8) := by decide
theorem test_decode_resld : decode 0b00010010_0000000000000000000_11011#32 = .ok (.resld 27#5) := by decide
theorem test_decode_tblld : decode 0b00010011_10_01_000000000000_00111110#32 = .ok (.tblld 2#2 1#2 62#8) := by decide
theorem test_decode_stat : decode 0b00010100_000000000000000000000000#32 = .ok .stat := by decide
theorem test_decode_cwclr : decode 0b00010101_000000000000000000000000#32 = .ok .cwclr := by decide

/-- Vector F4 and its like: each must-be-zero group counts. -/
theorem test_decode_must_be_zero :
    [0x01002A43#32, 0x02100000#32, 0x03100000#32, 0x04000001#32, 0x08000001#32, 0x09000008#32, 0x10000040#32,
      0x11000001#32, 0x12000020#32, 0x13000100#32, 0x14800000#32].all
      (fun w => decode w == .error .mustBeZero) = true := by decide

/-! ## Well-formedness: each check refuses an ill-formed term -/

theorem test_wf_slot : (Instr.rsenc 3#2 0#8 0#8 1#4).wellFormed = false := by decide
theorem test_wf_nsym : (Instr.rsnew 0#2 29#5 1#6 0x43#8).wellFormed = false := by decide
theorem test_wf_stride : (Instr.rsput 0#8 0#4).wellFormed = false := by decide
theorem test_wf_mode : (Instr.eccall 7#3).wellFormed = false := by decide
theorem test_wf_table : (Instr.tblld 0#2 3#2 0#8).wellFormed = false := by decide
theorem test_wf_addr : (Instr.cwld 144#8).wellFormed = false := by decide
theorem test_wf_ok : (Instr.rsnew 2#2 28#5 63#6 0x43#8).wellFormed = true := by decide

/-! ## The assembler (R80, R81) -/

theorem test_bootmaxi : words bootMaxi = [0x01010A43#32, 0x01411443#32, 0x01811C43#32] := by decide
theorem test_assemble_line :
    assembleLine "CWST 20, 0x21 ; pad".toList = some [.cwst 20#8 33#6] ∧ assembleLine "CWST 256, 0".toList = none := by
  decide +kernel

/-! ## Construction -/

theorem maxi_tables : buildTables 0x43#8 = some maxiTables := by decide +kernel

theorem maxi10_generator : generator maxiTables 10 1 = maxi10.gen := by decide +kernel
theorem maxi20_generator : generator maxiTables 20 1 = maxi20.gen := by decide +kernel
theorem maxi28_generator : generator maxiTables 28 1 = maxi28.gen := by decide +kernel

theorem maxi10_sound : maxi10.sound = true :=
  sound_of_construct (poly := 0x43#8) (nsym := 10#5) (root := 1#6) (by decide)
    (construct_eq_some.2 ⟨maxi_tables, rfl, rfl, rfl, rfl, maxi10_generator.symm⟩)
theorem maxi20_sound : maxi20.sound = true :=
  sound_of_construct (poly := 0x43#8) (nsym := 20#5) (root := 1#6) (by decide)
    (construct_eq_some.2 ⟨maxi_tables, rfl, rfl, rfl, rfl, maxi20_generator.symm⟩)
theorem maxi28_sound : maxi28.sound = true :=
  sound_of_construct (poly := 0x43#8) (nsym := 28#5) (root := 1#6) (by decide)
    (construct_eq_some.2 ⟨maxi_tables, rfl, rfl, rfl, rfl, maxi28_generator.symm⟩)

/-- A booted unit whose buffer is in its form is sound. -/
theorem booted_inv {m : Memory} (h : m.wf) : (booted m).Inv where
  cw := h
  result := by
    show State.reset.rlen.toNat ≤ 28 ∧ ∀ k : Fin 28, State.reset.res[k].isSome = decide (k.val < State.reset.rlen.toNat)
    decide
  err := by show (0#4).toNat ≤ 8; decide
  slots := by
    intro i I hi
    have h0 : (booted m).slots = ⟨#[some maxi10, some maxi20, some maxi28], rfl⟩ := rfl
    rw [h0] at hi
    match i with
    | 0 => cases hi; exact maxi10_sound
    | 1 => cases hi; exact maxi20_sound
    | 2 => cases hi; exact maxi28_sound
  rsp := by intro w hw; cases hw
  taken := by intro w hw; cases hw

/-! ## One-step tests (95_test_vectors.md) -/

/-- K1. -/
theorem test_rsnew : (after (exec (.rsnew 0 10 1 0x43) State.reset)).rsp = some 0x00000000#32 := by decide +kernel
/-- K5. -/
theorem test_rsnew_refused : (after (exec (.rsnew 0 10 1 0x49) State.reset)).rsp = some 0x20000000#32 := by decide +kernel
/-- T4. -/
theorem test_tblld_log : (after (exec (.tblld 0 0 63) (booted []))).rsp = some 0x0000003A#32 := by decide +kernel
/-- T13. -/
theorem test_tblld_gen : (after (exec (.tblld 2 2 28) (booted []))).rsp = some 0x00000001#32 := by decide +kernel
/-- C1 with E14: 17 and 42 with ten ECC symbols. -/
theorem test_rsenc : (after (exec (.rsenc 0 2 0 1) (booted [(0, 17), (1, 42)]))).result =
    some [1, 10, 50, 33, 43, 2, 10, 58, 26, 23] := by decide +kernel
/-- C12. -/
theorem test_rsenc_range : (after (exec (.rsenc 0 10 9 15) (booted (filled 1)))).rsp = some 0x50000000#32 := by decide +kernel
/-- C2. -/
theorem test_rsput : (after (exec (.rsput 2 1) (encoded [(0, 17), (1, 42)]))).cw =
    cellsFrom 0 [17, 42, 23, 26, 58, 10, 2, 43, 33, 50, 10, 1] := by decide +kernel
/-- R134: no result to write. -/
theorem test_rsput_no_result : (after (exec (.rsput 2 1) (booted []))).rsp = some 0x60000000#32 := by decide +kernel
/-- C3. -/
theorem test_rscmp : (after (exec (.rscmp 2 1) (encoded (cellsFrom 2 [23, 26, 58, 10, 2, 43, 33, 50, 10, 1])))).rsp =
    some 0x00000001#32 := by decide +kernel
/-- C4. -/
theorem test_rscmp_differs : (after (exec (.rscmp 2 1)
    (encoded (cellsFrom 2 [23, 26, 58, 10, 2, 43, 33, 50, 10, 0])))).rsp = some 0x00000000#32 := by decide +kernel
/-- C5. -/
theorem test_resld : (after (exec (.resld 9) (encoded []))).rsp = some 0x00000017#32 := by decide +kernel
/-- R136's worked example. -/
theorem test_resld_beyond : (after (exec (.resld 10) (encoded []))).rsp = some 0x60000000#32 := by decide +kernel
/-- A1. -/
theorem test_eccpri :
    let t := after (exec .eccpri (booted (cellsFrom 0 [34, 20, 45, 20, 17, 18, 2, 18, 7, 0])))
    t.cw.cells 10 1 10 = [61, 53, 12, 1, 38, 55, 55, 6, 31, 40].map (some ·) := by decide +kernel
/-- P4. -/
theorem test_eccpri_not_built : (after (exec .eccpri State.reset)).rsp = some 0x40000000#32 := by decide +kernel
/-- A2, which cells are written, on zero data (E1's law). -/
theorem test_eccsece : (after (exec (.eccsece 4) (booted (dataCells 84 0)))).cw.cells 102 1 5 =
    [some 0, some 0, some 0, none, some 0] := by decide +kernel
/-- A9: slot 1 holds 28 symbols. -/
theorem test_eccsece_count : (after (exec (.eccsece 4) { booted (filled 0) with
    slots := ⟨#[some maxi10, some maxi28, some maxi20], rfl⟩ })).rsp = some 0x40000000#32 := by decide +kernel
/-- E12 through the odd part: 42 pad symbols. -/
theorem test_eccseco : (after (exec (.eccseco 4) (booted (dataCells 84 33)))).cw.cells 105 2 20 =
    [60, 40, 9, 43, 14, 50, 12, 53, 57, 58, 36, 28, 10, 53, 37, 30, 14, 5, 31, 40].map (some ·) := by decide +kernel
/-- R154: mode 1. -/
theorem test_eccseco_mode : (after (exec (.eccseco 1) (booted []))).rsp = some 0x70000000#32 := by decide +kernel
/-- A6: nothing is written. -/
theorem test_eccall_unwritten :
    let t := after (exec (.eccall 4) (booted (cellsFrom 0 [0, 1, 2, 3, 4, 5, 6, 7, 8, 9])))
    t.rsp = some 0x60000000#32 ∧ t.cw.read 10 = none ∧ t.status = 0x00E6#16 := by decide +kernel
/-- A8, mode 5: `RLEN = 28`. -/
theorem test_eccall : (after (exec (.eccall 5) (booted (dataCells 68 0)))).status = 0x1CE0#16 := by decide +kernel
/-- A8: a buffer of zeros is a codeword. -/
theorem test_eccchk : (after (exec (.eccchk 5) (booted (filled 0)))).status = 0x1CF0#16 := by decide +kernel
/-- A7. -/
theorem test_eccchk_unwritten : (after (exec (.eccchk 4) (booted (dataCells 84 0)))).rsp = some 0x60000000#32 := by
  decide +kernel
/-- B1. -/
theorem test_cwst : (after (exec (.cwst 20 33) (booted []))).cw = [(20, 33)] := by decide
/-- R180's highest address. -/
theorem test_cwst_range : (after (exec (.cwst 144 0) (booted []))).rsp = some 0x50000000#32 := by decide
/-- B1. -/
theorem test_cwld : (after (exec (.cwld 20) (booted [(20, 33)]))).rsp = some 0x00000021#32 := by decide
/-- R181's worked example. -/
theorem test_cwld_unwritten : (after (exec (.cwld 21) (booted [(20, 33)]))).rsp = some 0x60000000#32 := by decide
/-- R182's worked example. -/
theorem test_cwclr : (after (exec .cwclr (encoded (filled 1)))).status = 0x00E0#16 := by decide +kernel
/-- R183's worked examples. -/
theorem test_stat : (after (exec .stat (booted []))).rsp = some 0x000000E0#32 := by decide
/-- R183: `STAT` on a halted unit. -/
theorem test_stat_halted : (after (exec .stat { State.reset with err := 4 })).rsp = some 0x00000004#32 := by decide
/-- R71 and R230 in one step each: a response is taken, and `rst` withdraws one. -/
theorem test_response_taken :
    (after (step { State.reset with rsp := some 7#32, host := [PortIn.take] })).taken = [7#32] ∧
    (after (step { booted [(3, 3)] with rsp := some 7#32, host := [PortIn.reset] })) = State.reset := by decide +kernel
/-- R240: a run of one-symbol code words from reset that asks for `MATCH` after the compare, and where it is 0. -/
theorem test_run_passes :
    let ws := words [.rsnew 0 1 1 0x43, .cwst 0 0, .rsenc 0 1 0 1, .rsput 1 1, .rscmp 1 1]
    runPasses ws [] = true ∧ runPasses ws [5] = true ∧ runPasses ws [4, 5] = false := by decide +kernel
/-- R240: a run in which a command faults does not pass. -/
theorem test_run_fails : runPasses (words [.stat]) [] = true ∧ runPasses (words [.eccpri, .stat]) [] = false := by
  decide +kernel
/-- The host's entry points run the word they are given. -/
theorem test_fetch_word : decodeTableWord 32 0x10001421 = some (.cwst 20 33) ∧
    (after (step (State.reset.withFetchWord 32 0x10001421))).cw = [(20, 33)] := by decide

/-! ## Witnesses: the hypotheses of each obligation that has some are met -/

theorem witness_EncodeGivesBackEveryDecodedWord : decode 0x11008F00#32 = .ok (.cwld 143) := by decide

/-- The premises of an issued word on a unit that is not halted, met by `presenting w`. -/
def Issued (w : Word) : Prop :=
  (presenting w).host = PortIn.present w :: [] ∧ (PortIn.present w).rst = false ∧ (PortIn.present w).cmdValid = true ∧
    (PortIn.present w).cmdData = w ∧ (presenting w).rsp = none ∧ (presenting w).err = 0#4

theorem presenting_issued (w : Word) : Issued w := ⟨rfl, rfl, rfl, rfl, rfl, rfl⟩

/-- A word that matches no row, and one that matches one. -/
theorem witness_EveryWordMatchesOneRowOrFaultsIllegal :
    Issued 0x11000001#32 ∧ (opcodeRows.filter fun r => 0x11000001#32 &&& r.2 == r.1).length = 0 ∧
    (opcodeRows.filter fun r => 0x11000000#32 &&& r.2 == r.1).length = 1 :=
  ⟨presenting_issued _, by decide +kernel⟩

/-- The opcodes at the ends of R76's ranges. -/
theorem witness_ReservedOpcodeFaultsIllegal :
    (∀ w, Issued w) ∧ ([0x00000000#32, 0x05000000#32, 0x07FFFFFF#32, 0x0D000000#32, 0x0F000000#32, 0x16000000#32, 0xFFFFFFFF#32].map
      fun w => (w.extractLsb' 24 8).toNat) = [0x00, 0x05, 0x07, 0x0D, 0x0F, 0x16, 0xFF] :=
  ⟨presenting_issued, by decide⟩

/-- A 1 in a must-be-zero bit of three formats. -/
theorem witness_MustBeZeroBitFaultsIllegal :
    (∀ w, Issued w) ∧ (0x14000001#32 &&& Instr.stat.rowMask ≠ Instr.stat.rowMatch ∧
      (0x14000001#32).extractLsb' 24 8 = Instr.stat.rowMatch.extractLsb' 24 8) ∧
    (0x08800000#32 &&& Instr.eccpri.rowMask ≠ Instr.eccpri.rowMatch ∧
      (0x08800000#32).extractLsb' 24 8 = Instr.eccpri.rowMatch.extractLsb' 24 8) ∧
    (0x10000080#32 &&& (Instr.cwst 0 0).rowMask ≠ (Instr.cwst 0 0).rowMatch ∧
      (0x10000080#32).extractLsb' 24 8 = (Instr.cwst 0 0).rowMatch.extractLsb' 24 8) :=
  ⟨presenting_issued, by decide⟩

theorem witness_StepRunsTheDecodedCommand :
    let p := PortIn.present 0x10001421#32
    (presenting 0x10001421#32).host = p :: [] ∧ p.rst = false ∧ p.cmdValid = true ∧
      (presenting 0x10001421#32).rsp = none ∧ decode p.cmdData = .ok (.cwst 20 33) := by decide

/-- A waiting response with a host that takes it and one that does not, and no response with nothing presented. -/
theorem witness_ResponseIsTakenBeforeTheNextCommand :
    let waiting := { State.reset with host := [PortIn.present 0#32], rsp := some 5#32 }
    let busy := { State.reset with host := [{ PortIn.take with rspReady := false }], rsp := some 5#32 }
    let idle := { State.reset with host := [PortIn.take] }
    (waiting.host = PortIn.present 0#32 :: [] ∧ (PortIn.present 0#32).rst = false ∧ waiting.rsp = some 5#32 ∧
      (PortIn.present 0#32).rspReady = true) ∧
    (busy.host = { PortIn.take with rspReady := false } :: [] ∧ busy.rsp = some 5#32) ∧
    (idle.host = PortIn.take :: [] ∧ PortIn.take.rst = false ∧ idle.rsp = none ∧ PortIn.take.cmdValid = false) := by
  decide

/-- On a unit that is not halted, and on a halted one. -/
theorem witness_ResponseWordHasItsForm :
    (exec .stat State.reset = .next (State.reset.complete 0#16) ∧ (State.reset.complete 0#16).rsp = some 0#32 ∧
      State.reset.err = 0#4) ∧
    (∃ t, exec .cwclr { State.reset with err := 8#4 } = .next t ∧ t.rsp = some 0x90000000#32) :=
  ⟨⟨rfl, by decide, rfl⟩, _, rfl, by decide⟩

theorem witness_ResetHasPriority :
    { booted [(0, 1)] with host := [PortIn.reset] }.host = PortIn.reset :: [] ∧ PortIn.reset.rst = true := by decide

/-- A booted unit with a written buffer, given the word of `CWST 143, 0`, meets the invariant and steps. -/
theorem witness_StepKeepsTheInvariant :
    let s := { booted (filled 33) with host := [PortIn.present 0x10008F00#32] }
    s.Inv ∧ step s = .next (after (step s)) :=
  have h := booted_inv (m := filled 33) (by decide +kernel)
  ⟨⟨h.cw, h.result, h.err, h.slots, h.rsp, h.taken⟩, eq_next (by decide +kernel)⟩

theorem witness_FaultChangesOnlyErr :
    let s := presenting 0x08000000#32
    s.host = PortIn.present 0x08000000#32 :: [] ∧ (PortIn.present 0x08000000#32).rst = false ∧
      (PortIn.present 0x08000000#32).cmdValid = true ∧ s.rsp = none ∧ s.err = 0#4 ∧
      step s = .next (after (step s)) ∧ (after (step s)).err ≠ 0#4 :=
  ⟨by decide, rfl, rfl, by decide, by decide, eq_next (by decide +kernel), by decide +kernel⟩

theorem witness_HaltedUnitAnswersOnlyStat :
    let s := { presenting 0x14000000#32 with err := 8#4 }
    s.host = PortIn.present 0x14000000#32 :: [] ∧ (PortIn.present 0x14000000#32).rst = false ∧
      (PortIn.present 0x14000000#32).cmdValid = true ∧ s.rsp = none ∧ s.err ≠ 0#4 := by decide

/-- A halted unit that is given a word, and one that is reset. -/
theorem witness_OnlyResetLeavesTheHaltedState :
    let s := { presenting 0x15000000#32 with err := 1#4 }
    let r := { State.reset with err := 1#4, host := [PortIn.reset] }
    (s.err ≠ 0#4 ∧ step s = .next (after (step s)) ∧ s.resetNext = false) ∧
    (r.err ≠ 0#4 ∧ step r = .next (after (step r)) ∧ r.resetNext = true) :=
  ⟨⟨by decide, eq_next (by decide +kernel), by decide⟩, by decide, eq_next (by decide +kernel), by decide⟩

/-- For each code 2 to 8 a command that leaves it in `ERR`. -/
theorem witness_FaultCodesAreRaisedOnlyByTheirCommands :
    ∀ c ∈ [(Instr.rsnew 0 10 1 0x40, 2#4), (.rsput 0 0, 3#4), (.eccpri, 4#4), (.cwld 144, 5#4), (.resld 0, 6#4),
        (.eccchk 1, 7#4)],
      State.reset.err = 0#4 ∧ isNext (exec c.1 State.reset) = true ∧ (after (exec c.1 State.reset)).err = c.2 := by
  decide +kernel

theorem witness_FaultCodesAreRaisedOnlyByTheirCommands_alreadyBuilt :
    (after (exec (.rsnew 2 1 0 0) (booted []))).err = 8#4 := by decide +kernel

theorem witness_IllegalOperandValueFaults :
    State.reset.err = 0#4 ∧
    ∀ i ∈ [Instr.eccsece 1, .eccall 7, .cwst 144 0, .cwld 255, .rsnew 0 0 0 0, .rsnew 0 29 0 0, .rsnew 3 1 0 0,
      .rsput 0 0, .tblld 0 3 0], i.wellFormed = false := by decide

theorem witness_EachCommandWritesOnlyItsOwnState : ∃ t, exec (.cwst 143 63) State.reset = .next t := ⟨_, rfl⟩

/-- A constructed slot, stepped without and with `rst`, and the operands at the ends of the count's range. -/
theorem witness_ConstructedSlotIsImmutable :
    let s := { booted [] with host := [PortIn.present 0x15000000#32] }
    let r := { booted [] with host := [PortIn.reset] }
    (s.slots[(2 : Fin 3)] = some maxi28 ∧ step s = .next (after (step s)) ∧ s.resetNext = false) ∧
    (r.slots[(0 : Fin 3)] = some maxi10 ∧ step r = .next (after (step r)) ∧ r.resetNext = true) ∧
    s.err = 0#4 ∧ (2#2).toNat = (2 : Fin 3).val ∧ 1 ≤ (1#5).toNat ∧ (28#5).toNat ≤ 28 :=
  ⟨⟨rfl, eq_next (by decide +kernel), by decide⟩, ⟨rfl, eq_next (by decide +kernel), by decide⟩, by decide⟩

/-- For each of the four reading commands a state in which it completes. -/
theorem witness_ReadsHaveNoSideEffect :
    ∀ i ∈ [Instr.cwld 143, .resld 9, .tblld 2 2 28, .stat],
      isNext (exec i (encoded (filled 1))) = true ∧
      (after (exec i (encoded (filled 1)))).err = (encoded (filled 1)).err := by decide +kernel

theorem witness_RsnewConstructsAnInstance :
    State.reset.err = 0#4 ∧ (2#2).toNat = (2 : Fin 3).val ∧ 1 ≤ (28#5).toNat ∧ (28#5).toNat ≤ 28 ∧
      State.reset.slots[(2 : Fin 3)] = none ∧ 0x43#8 ∈ acceptedPolys := by decide

/-- One case for each fault, the counts and the slot at the ends of their ranges. -/
theorem witness_RsnewFaultsInOrder :
    State.reset.err = 0#4 ∧ (0#5).toNat = 0 ∧ 28 < (29#5).toNat ∧
    ((2#2).toNat = (2 : Fin 3).val ∧ 1 ≤ (1#5).toNat ∧ (28#5).toNat ≤ 28 ∧
      (∃ I, (booted []).slots[(2 : Fin 3)] = some I) ∧ (booted []).err = 0#4) ∧
    ((0#2).toNat = (0 : Fin 3).val ∧ State.reset.slots[(0 : Fin 3)] = none ∧ 0x40#8 ∉ acceptedPolys ∧
      0x7F#8 ∉ acceptedPolys) :=
  ⟨by decide, by decide, by decide, ⟨by decide, by decide, by decide, ⟨maxi28, rfl⟩, rfl⟩, by decide⟩

theorem witness_InstanceLaws : maxi10.sound = true := maxi10_sound
theorem witness_GeneratorVanishesAtItsRoots : maxi28.sound = true := maxi28_sound
theorem witness_LfsrLaws : maxi20.sound = true ∧ ([17, 42] : List Sym).length = ([1, 2] : List Sym).length :=
  ⟨maxi20_sound, rfl⟩
theorem witness_EncodedBlockIsAMultipleOfTheGenerator : maxi10.sound = true ∧ ([17] : List Sym) ≠ [] :=
  ⟨maxi10_sound, by decide⟩

/-- Slot 2 holds a sound instance; the last index of each table. -/
theorem witness_TblldReadsTheTableEntry :
    (booted []).err = 0#4 ∧ (2#2).toNat = (2 : Fin 3).val ∧ (booted []).slots[(2 : Fin 3)] = some maxi28 ∧
      maxi28.sound = true ∧ ((63#8).toNat < 64 ∧ 63#8 ≠ 0#8) ∧ (62#8).toNat < 63 ∧ (28#8).toNat ≤ maxi28.nsym.toNat :=
  ⟨rfl, rfl, rfl, maxi28_sound, by decide, by decide, by decide⟩

/-- An empty slot, and the first index beyond each table of a constructed one. -/
theorem witness_TblldFaultsInOrder :
    (State.reset.err = 0#4 ∧ (0#2).toNat = (0 : Fin 3).val ∧ 2#2 ≠ 3#2 ∧ State.reset.slots[(0 : Fin 3)] = none) ∧
    ((booted []).err = 0#4 ∧ (0#2).toNat = (0 : Fin 3).val ∧ (booted []).slots[(0 : Fin 3)] = some maxi10 ∧
      63 < (64#8).toNat ∧ 62 < (63#8).toNat ∧ maxi10.nsym.toNat < (11#8).toNat ∧ maxi10.sound = true) :=
  ⟨by decide, rfl, rfl, rfl, by decide, by decide, by decide, maxi10_sound⟩

/-- A run that ends at address 143 with the longest step, and an empty run at an address beyond the buffer. -/
theorem witness_RsencEncodesARun :
    ((booted (filled 7)).err = 0#4 ∧ (0#2).toNat = (0 : Fin 3).val ∧ (booted (filled 7)).slots[(0 : Fin 3)] = some maxi10 ∧
      15#4 ≠ 0#4 ∧ (8#8).toNat + ((10#8).toNat - 1) * (15#4).toNat ≤ 143 ∧
      (List.replicate 10 (7 : Sym)).length = (10#8).toNat) ∧
    (∀ j, j < 10 → (booted (filled 7)).cw.read (8 + j * 15) = (List.replicate 10 (7 : Sym))[j]?) ∧
    (([] : List Sym).length = (0#8).toNat ∧
      ∀ j, j < (0#8).toNat → (booted []).cw.read ((255#8).toNat + j * (1#4).toNat) = ([] : List Sym)[j]?) :=
  ⟨⟨rfl, rfl, rfl, by decide, by decide, by decide⟩, by decide +kernel, by decide +kernel⟩

/-- One case for each fault: slot 3 or stride 0, an empty slot, highest address 144, and a cell that is `none`. -/
theorem witness_RsencFaultsInOrder :
    State.reset.err = 0#4 ∧ (2#2).toNat = (2 : Fin 3).val ∧ 1#4 ≠ 0#4 ∧ State.reset.slots[(2 : Fin 3)] = none ∧
    ((booted []).err = 0#4 ∧ (booted []).slots[(2 : Fin 3)] = some maxi28) ∧
    (0 < (10#8).toNat ∧ 143 < (9#8).toNat + ((10#8).toNat - 1) * (15#4).toNat) ∧
    ((8#8).toNat + ((10#8).toNat - 1) * (15#4).toNat ≤ 143 ∧ (booted []).cw.read ((8#8).toNat + 9 * (15#4).toNat) = none) :=
  ⟨rfl, rfl, by decide, rfl, ⟨rfl, rfl⟩, by decide, by decide +kernel⟩

/-- A result of ten symbols and a run that ends at address 143. -/
theorem witness_RsputWritesTheResultReversed :
    (encoded []).err = 0#4 ∧ (encoded []).resultSound ∧ 1#4 ≠ 0#4 ∧ (encoded []).rlen ≠ 0#5 ∧
      (134#8).toNat + ((encoded []).rlen.toNat - 1) * (1#4).toNat ≤ 143 := by decide +kernel

theorem witness_RscmpSetsMatch :
    (encoded (filled 1)).err = 0#4 ∧ (encoded (filled 1)).resultSound ∧ 15#4 ≠ 0#4 ∧ (encoded (filled 1)).rlen ≠ 0#5 ∧
      (8#8).toNat + ((encoded (filled 1)).rlen.toNat - 1) * (15#4).toNat ≤ 143 ∧
      (∀ j, j < (encoded (filled 1)).rlen.toNat → (encoded (filled 1)).cw.read ((8#8).toNat + j * (15#4).toNat) ≠ none) := by
  decide +kernel

/-- One case for each fault: no result, highest address 144, a compared cell that is `none`. -/
theorem witness_RsputAndRscmpFaultInOrder :
    (booted []).err = 0#4 ∧ (booted []).rlen = 0#5 ∧ (encoded []).err = 0#4 ∧ (encoded []).rlen ≠ 0#5 ∧
      143 < (135#8).toNat + ((encoded []).rlen.toNat - 1) * (1#4).toNat ∧
      ((134#8).toNat + ((encoded []).rlen.toNat - 1) * (1#4).toNat ≤ 143 ∧ 9 < (encoded []).rlen.toNat ∧
        (encoded []).cw.read ((134#8).toNat + 9 * (1#4).toNat) = none) := by decide +kernel

/-- The last cell below `RLEN`, the first at it, and the highest `k`. -/
theorem witness_ResldReadsTheCell :
    (encoded []).err = 0#4 ∧ (encoded []).resultSound ∧ (9#5).toNat < (encoded []).rlen.toNat ∧
      (encoded []).rlen.toNat ≤ (10#5).toNat ∧ (encoded []).rlen.toNat ≤ (31#5).toNat := by decide +kernel

theorem witness_EccpriEncodesThePrimaryBlock :
    (booted (dataCells 0 33)).err = 0#4 ∧ (booted (dataCells 0 33)).slots[(0 : Fin 3)] = some maxi10 ∧
      maxi10.sound = true ∧ maxi10.nsym = 10#5 ∧ (List.replicate 10 (33 : Sym)).length = 10 ∧
      (∀ j, j < 10 → (booted (dataCells 0 33)).cw.read j = (List.replicate 10 (33 : Sym))[j]?) :=
  ⟨rfl, rfl, maxi10_sound, rfl, rfl, by decide +kernel⟩

/-- Mode 5 and its instance: 34 even symbols. -/
theorem witness_EccseceEncodesTheEvenSubBlock :
    let s := booted (dataCells 68 33)
    2 ≤ (5#3).toNat ∧ (5#3).toNat ≤ 6 ∧ s.err = 0#4 ∧ s.slots[(2 : Fin 3)] = some maxi28 ∧ maxi28.sound = true ∧
      maxi28.nsym.toNat = 28 ∧ (List.replicate 34 (33 : Sym)).length = 34 ∧
      (∀ j, j < 34 → s.cw.read (20 + 2 * j) = (List.replicate 34 (33 : Sym))[j]?) :=
  ⟨by decide, by decide, rfl, rfl, maxi28_sound, by decide, by decide, by decide +kernel⟩

/-- Modes 2 and 6, the ends of the range, and their instance: 42 odd symbols. -/
theorem witness_EccsecoEncodesTheOddSubBlock :
    let s := booted (dataCells 84 33)
    (2 ≤ (2#3).toNat ∧ (6#3).toNat ≤ 6 ∧ 2#3 ≠ 5#3 ∧ 6#3 ≠ 5#3) ∧ s.err = 0#4 ∧ s.slots[(1 : Fin 3)] = some maxi20 ∧
      maxi20.sound = true ∧ maxi20.nsym.toNat = 20 ∧ (List.replicate 42 (33 : Sym)).length = 42 ∧
      (∀ j, j < 42 → s.cw.read (21 + 2 * j) = (List.replicate 42 (33 : Sym))[j]?) :=
  ⟨by decide, rfl, rfl, maxi20_sound, by decide, by decide, by decide +kernel⟩

/-- Mode 4, all three parts written, the ECC cells not. -/
theorem witness_EccallEncodesTheWholeBuffer :
    let s := booted (dataCells 84 33)
    s.err = 0#4 ∧ s.slots[(0 : Fin 3)] = some maxi10 ∧ maxi10.sound = true ∧ maxi10.nsym = 10#5 ∧
      s.slots[(1 : Fin 3)] = some maxi20 ∧ maxi20.sound = true ∧ maxi20.nsym.toNat = 20 ∧
      (∀ j, j < 10 → s.cw.read j = (List.replicate 10 (33 : Sym))[j]?) ∧
      (∀ j, j < 42 → s.cw.read (20 + 2 * j) = (List.replicate 42 (33 : Sym))[j]?) ∧
      (∀ j, j < 42 → s.cw.read (21 + 2 * j) = (List.replicate 42 (33 : Sym))[j]?) :=
  ⟨rfl, rfl, maxi10_sound, rfl, rfl, maxi20_sound, by decide, by decide +kernel, by decide +kernel, by decide +kernel⟩

/-- Mode 5, the whole buffer written. -/
theorem witness_EccchkComparesTheWholeBuffer :
    let s := booted (filled 33)
    s.err = 0#4 ∧ s.slots[(0 : Fin 3)] = some maxi10 ∧ maxi10.sound = true ∧ maxi10.nsym = 10#5 ∧
      s.slots[(2 : Fin 3)] = some maxi28 ∧ maxi28.sound = true ∧ maxi28.nsym.toNat = 28 ∧
      (∀ j, j < 10 → s.cw.read j = (List.replicate 10 (33 : Sym))[j]?) ∧
      (∀ j, j < 34 → s.cw.read (20 + 2 * j) = (List.replicate 34 (33 : Sym))[j]?) ∧
      (∀ j, j < 34 → s.cw.read (21 + 2 * j) = (List.replicate 34 (33 : Sym))[j]?) ∧
      (∀ a, (10 ≤ a ∧ a < 20) ∨ (88 ≤ a ∧ a < 144) → s.cw.read a ≠ none) := by
  refine ⟨rfl, rfl, maxi10_sound, rfl, rfl, maxi28_sound, by decide, by decide +kernel, by decide +kernel,
    by decide +kernel, fun a ha => ?_⟩
  have h : ∀ a, a < 144 → (booted (filled 33)).cw.read a ≠ none := by decide +kernel
  exact h a (by omega)

/-- One case for each clause: modes 1 and 7; empty slots; ready slots with one cell of each part missing. -/
theorem witness_PassCommandsFaultInOrder :
    (State.reset.err = 0#4 ∧ State.reset.slots[(0 : Fin 3)] = none ∧ State.reset.slots[(1 : Fin 3)] = none ∧
      State.reset.slots[(2 : Fin 3)] = none ∧ ¬ (2 ≤ (1#3).toNat ∧ (1#3).toNat ≤ 6) ∧ ¬ (2 ≤ (7#3).toNat ∧ (7#3).toNat ≤ 6)) ∧
    ((booted []).err = 0#4 ∧ (∃ I, (booted []).slots[(0 : Fin 3)] = some I ∧ I.nsym.toNat = 10) ∧
      (∃ I, (booted []).slots[(1 : Fin 3)] = some I ∧ I.nsym.toNat = 20) ∧
      (∃ I, (booted []).slots[(2 : Fin 3)] = some I ∧ I.nsym.toNat = 28) ∧
      (booted []).cw.read (0 + 1 * 9) = none ∧ (booted []).cw.read (20 + 2 * 41) = none ∧
      (booted []).cw.read (21 + 2 * 33) = none ∧ (booted (dataCells 84 0)).cw.read (144 - 2 * 20 + 1 * 39) = none ∧
      (booted (dataCells 84 0)).cw.read (10 + 1 * 0) = none) :=
  ⟨⟨rfl, by decide⟩, rfl, ⟨maxi10, rfl, rfl⟩, ⟨maxi20, rfl, rfl⟩, ⟨maxi28, rfl, rfl⟩, by decide +kernel⟩

/-- Each of the three parts completes from a buffer with its data written. -/
theorem witness_PassPartIsRsencThenRsput :
    let s := booted (dataCells 84 0)
    s.Inv ∧ s.err = 0#4 ∧ ∀ i ∈ [Instr.eccpri, .eccsece 6, .eccseco 2],
      isNext (exec i s) = true ∧ (after (exec i s)).err = 0#4 :=
  ⟨booted_inv (by decide +kernel), rfl, by decide +kernel⟩

theorem witness_EccallEqualsTheThreeParts :
    let s := booted (dataCells 68 0)
    let s1 := after (exec .eccpri s)
    let s2 := after (exec (.eccsece 5) s1)
    let s3 := after (exec (.eccseco 5) s2)
    s.err = 0#4 ∧ isNext (exec .eccpri s) = true ∧ s1.err = 0#4 ∧ isNext (exec (.eccsece 5) s1) = true ∧ s2.err = 0#4 ∧
      isNext (exec (.eccseco 5) s2) = true ∧ s3.err = 0#4 := by decide +kernel

theorem witness_EccchkMatchesAfterEccall :
    let s := booted (dataCells 84 0)
    s.Inv ∧ s.err = 0#4 ∧ isNext (exec (.eccall 4) s) = true ∧ (after (exec (.eccall 4) s)).err = 0#4 :=
  ⟨booted_inv (by decide +kernel), rfl, by decide +kernel⟩

/-- The last ECC cell and the first data cell, changed from 0. -/
theorem witness_EccchkDetectsAnyChangedCell :
    let s := booted (dataCells 84 0)
    s.Inv ∧ s.err = 0#4 ∧ isNext (exec (.eccall 4) s) = true ∧ (after (exec (.eccall 4) s)).err = 0#4 ∧
      (after (exec (.eccall 4) s)).cw.read 143 ≠ some 1#6 ∧ (after (exec (.eccall 4) s)).cw.read 0 ≠ some 63#6 :=
  ⟨booted_inv (by decide +kernel), rfl, by decide +kernel, by decide +kernel, by decide +kernel, by decide +kernel⟩

/-- The odd part and then the primary, in mode 3. -/
theorem witness_PassPartsCommute :
    let s := booted (dataCells 84 0)
    let s1 := after (exec (.eccseco 3) s)
    s.Inv ∧ s.err = 0#4 ∧ isNext (exec (.eccseco 3) s) = true ∧ s1.err = 0#4 ∧ isNext (exec .eccpri s1) = true ∧
      (after (exec .eccpri s1)).err = 0#4 :=
  ⟨booted_inv (by decide +kernel), rfl, by decide +kernel⟩

theorem witness_SyndromesVanishAfterEccall :
    let s := booted (dataCells 68 0)
    s.Inv ∧ s.err = 0#4 ∧ isNext (exec (.eccall 5) s) = true ∧ (after (exec (.eccall 5) s)).err = 0#4 :=
  ⟨booted_inv (by decide +kernel), rfl, by decide +kernel⟩

/-- The highest address of the buffer and the lowest beyond it. -/
theorem witness_CwstStoresOneCell : State.reset.err = 0#4 ∧ (143#8).toNat ≤ 143 ∧ 143 < (144#8).toNat := by decide

theorem witness_CwldLoadsOneCell :
    (booted (filled 5)).err = 0#4 ∧ (143#8).toNat ≤ 143 ∧ (booted (filled 5)).cw.read (143#8).toNat = some 5#6 ∧
      (booted []).cw.read (0#8).toNat = none ∧ 143 < (144#8).toNat := by decide +kernel

theorem witness_LoadAfterStore :
    State.reset.err = 0#4 ∧ (143#8).toNat ≤ 143 ∧ isNext (exec (.cwst 143 63) State.reset) = true ∧ 143#8 ≠ 144#8 ∧
      isNext (exec (.cwld 144) State.reset) = true ∧
      isNext (exec (.cwld 144) (after (exec (.cwst 143 63) State.reset))) = true := by decide +kernel

theorem witness_CwclrBeginsAFreshCall : (encoded (filled 1)).err = 0#4 := rfl

theorem witness_RunAnswersEveryWordInOrder : State.reset.rsp = none := rfl

end Sys2Proof.Machine.Tests
end

/-! Every command's outcome, said once: what a completed command leaves, command by command. -/

namespace Sys2Proof.Machine

/-- `Completes s i t d`: on `s` the checks of the command `i` all pass, its effect leaves `t`, and it answers `d`.
One constructor for each command, with the checks of its rule. -/
inductive Completes (s : State) : Instr → State → Data → Prop where
  | rsnew {sel : BitVec 2} {nsym : BitVec 5} {root : BitVec 6} {poly : BitVec 8} {k : Fin 3} {I : Encoder}
      (hslot : slotIndex sel = some k) (hcount : nsymLegal nsym = true) (hempty : s.slots[k] = none)
      (hI : construct poly nsym root = some I) : Completes s (.rsnew sel nsym root poly) (s.setSlot k I) 0#16
  | rsenc {sel : BitVec 2} {len base : BitVec 8} {stride : BitVec 4} {k : Fin 3} {I : Encoder} {d : List Sym}
      (hslot : slotIndex sel = some k) (hstride : strideLegal stride = true) (hI : s.slots[k] = some I)
      (hd : readRun s.cw base.toNat stride.toNat len.toNat = .ok d) :
      Completes s (.rsenc sel len base stride) (s.setResult I.nsym (I.lfsr d)) 0#16
  | rsput {base : BitVec 8} {stride : BitVec 4} {r : List Sym} (hr : resultRun s base.toNat stride.toNat = .ok r) :
      Completes s (.rsput base stride) { s with cw := s.cw.writeRun base.toNat stride.toNat r.reverse } 0#16
  | rscmp {base : BitVec 8} {stride : BitVec 4} {r e : List Sym} (hr : resultRun s base.toNat stride.toNat = .ok r)
      (he : readRun s.cw base.toNat stride.toNat s.rlen.toNat = .ok e) :
      Completes s (.rscmp base stride) (s.setMatch (eccEqual e r)) (bitData (eccEqual e r))
  | eccpri {t : State} {b : Bool} (ht : passParts true [primaryPart] s = .ok (t, b)) : Completes s .eccpri t 0#16
  | eccsece {mode : BitVec 3} {t : State} {b : Bool} (hmode : modeLegal mode = true)
      (ht : passParts true [evenPart mode] s = .ok (t, b)) : Completes s (.eccsece mode) t 0#16
  | eccseco {mode : BitVec 3} {t : State} {b : Bool} (hmode : modeLegal mode = true)
      (ht : passParts true [oddPart mode] s = .ok (t, b)) : Completes s (.eccseco mode) t 0#16
  | eccall {mode : BitVec 3} {t : State} {b : Bool} (hmode : modeLegal mode = true)
      (ht : passParts true (allParts mode) s = .ok (t, b)) : Completes s (.eccall mode) t 0#16
  | eccchk {mode : BitVec 3} {t : State} {b : Bool} (hmode : modeLegal mode = true)
      (ht : passParts false (allParts mode) s = .ok (t, b)) : Completes s (.eccchk mode) (t.setMatch b) (bitData b)
  | cwst {addr : BitVec 8} {val : Sym} (haddr : addr.toNat ≤ 143) :
      Completes s (.cwst addr val) { s with cw := s.cw.write addr.toNat val } 0#16
  | cwld {addr : BitVec 8} {v : Sym} (haddr : addr.toNat ≤ 143) (hv : s.cw.read addr.toNat = some v) :
      Completes s (.cwld addr) s (v.setWidth 16)
  | resld {k : BitVec 5} {v : Sym} (hk : k.toNat < s.rlen.toNat) (hv : s.resCell k.toNat = some v) :
      Completes s (.resld k) s (v.setWidth 16)
  | tblld {sel t : BitVec 2} {idx : BitVec 8} {k : Fin 3} {I : Encoder} {e : Sym} (hslot : slotIndex sel = some k)
      (ht : tableLegal t = true) (hI : s.slots[k] = some I) (he : tableEntry I t idx.toNat = .ok e) :
      Completes s (.tblld sel t idx) s (e.setWidth 16)
  | stat : Completes s .stat s s.status
  | cwclr : Completes s .cwclr s.clearCall 0#16

/-- The three outcomes of a command (60_exceptions.md R203, R204): it completes, it faults, or the unit is halted. -/
inductive Effect (s : State) (i : Instr) : State → Prop where
  | completed {t : State} {d : Data} (ht : Completes s i t d) : Effect s i (t.complete d)
  | faulted (f : FaultCode) (herr : s.err = 0#4) : Effect s i (s.raise f)
  | halted (herr : s.err ≠ 0#4) : Effect s i s.answerHalted

/-- A command whose body, when it completes, does what `Completes` says has one of the three outcomes. -/
theorem effect_of_command {s u : State} {i : Instr} {body : Except FaultCode (State × Data)}
    (hbody : ∀ t d, body = .ok (t, d) → Completes s i t d) (h : command s body = .next u) : Effect s i u := by
  rcases command_cases h with ⟨herr, rfl⟩ | ⟨-, t, d, hb, rfl⟩ | ⟨herr, f, -, rfl⟩
  · exact .halted herr
  · exact .completed (hbody t d hb)
  · exact .faulted f herr

/-! ## The two accesses of one cell -/

theorem memWrite_eq_ok {s t : State} {a : Nat} {v : Sym} :
    memWrite s a v = .ok t ↔ a ≤ 143 ∧ t = { s with cw := s.cw.write a v } := by
  unfold memWrite
  split <;> simp [eq_comm] <;> omega

theorem memRead_eq_ok {s : State} {a : Nat} {v : Sym} :
    memRead s a = .ok v ↔ a ≤ 143 ∧ s.cw.read a = some v := by
  unfold memRead
  split
  · simp; omega
  · cases s.cw.read a <;> simp; omega

/-! ## Each command's outcome -/

section
variable {s u : State}

theorem execRsnew_effect {sel : BitVec 2} {nsym : BitVec 5} {root : BitVec 6} {poly : BitVec 8}
    (h : execRsnew sel nsym root poly s = .next u) : Effect s (.rsnew sel nsym root poly) u := by
  refine effect_of_command (fun t d hb => ?_) h
  split at hb
  · cases hb
  · rename_i k hk
    split_ifs at hb with hcount hbuilt
    split at hb
    · cases hb
    · rename_i I hI
      cases hb
      exact .rsnew hk (by simpa using hcount) (by simpa [State.built] using hbuilt) hI

theorem execRsenc_effect {sel : BitVec 2} {len base : BitVec 8} {stride : BitVec 4}
    (h : execRsenc sel len base stride s = .next u) : Effect s (.rsenc sel len base stride) u := by
  refine effect_of_command (fun t d hb => ?_) h
  split at hb
  · cases hb
  · rename_i k hk
    split_ifs at hb with hstride
    split at hb
    · cases hb
    · rename_i I hI
      split at hb
      · cases hb
      · rename_i data hd
        cases hb
        exact .rsenc hk (by simpa using hstride) hI hd

theorem execRsput_effect {base : BitVec 8} {stride : BitVec 4} (h : execRsput base stride s = .next u) :
    Effect s (.rsput base stride) u := by
  refine effect_of_command (fun t d hb => ?_) h
  split at hb
  · cases hb
  · rename_i r hr
    cases hb
    exact .rsput hr

theorem execRscmp_effect {base : BitVec 8} {stride : BitVec 4} (h : execRscmp base stride s = .next u) :
    Effect s (.rscmp base stride) u := by
  refine effect_of_command (fun t d hb => ?_) h
  split at hb
  · cases hb
  · rename_i r hr
    split at hb
    · cases hb
    · rename_i e he
      cases hb
      exact .rscmp hr he

theorem execEccpri_effect (h : execEccpri s = .next u) : Effect s .eccpri u := by
  refine effect_of_command (fun t d hb => ?_) h
  obtain ⟨rfl, b, ht⟩ := writingPass_eq_ok.1 hb
  exact .eccpri ht

/-- The body of a writing pass command with a mode, when it completes. -/
theorem modePass_eq_ok {mode : BitVec 3} {ps : List Part} {t : State} {d : Data}
    (h : (if !modeLegal mode then .error .badMode else writingPass ps s) = .ok (t, d)) :
    modeLegal mode = true ∧ d = 0#16 ∧ ∃ b, passParts true ps s = .ok (t, b) := by
  split_ifs at h with hmode
  exact ⟨by simpa using hmode, writingPass_eq_ok.1 h⟩

theorem execEccsece_effect {mode : BitVec 3} (h : execEccsece mode s = .next u) : Effect s (.eccsece mode) u := by
  refine effect_of_command (fun t d hb => ?_) h
  obtain ⟨hmode, rfl, b, ht⟩ := modePass_eq_ok hb
  exact .eccsece hmode ht

theorem execEccseco_effect {mode : BitVec 3} (h : execEccseco mode s = .next u) : Effect s (.eccseco mode) u := by
  refine effect_of_command (fun t d hb => ?_) h
  obtain ⟨hmode, rfl, b, ht⟩ := modePass_eq_ok hb
  exact .eccseco hmode ht

theorem execEccall_effect {mode : BitVec 3} (h : execEccall mode s = .next u) : Effect s (.eccall mode) u := by
  refine effect_of_command (fun t d hb => ?_) h
  obtain ⟨hmode, rfl, b, ht⟩ := modePass_eq_ok hb
  exact .eccall hmode ht

theorem execEccchk_effect {mode : BitVec 3} (h : execEccchk mode s = .next u) : Effect s (.eccchk mode) u := by
  refine effect_of_command (fun t d hb => ?_) h
  split_ifs at hb with hmode
  split at hb
  · cases hb
  · rename_i v b ht
    cases hb
    exact .eccchk (by simpa using hmode) ht

theorem execCwst_effect {addr : BitVec 8} {val : Sym} (h : execCwst addr val s = .next u) :
    Effect s (.cwst addr val) u := by
  refine effect_of_command (fun t d hb => ?_) h
  split at hb
  · cases hb
  · rename_i v hv
    cases hb
    obtain ⟨haddr, rfl⟩ := memWrite_eq_ok.1 hv
    exact .cwst haddr

theorem execCwld_effect {addr : BitVec 8} (h : execCwld addr s = .next u) : Effect s (.cwld addr) u := by
  refine effect_of_command (fun t d hb => ?_) h
  split at hb
  · cases hb
  · rename_i v hv
    cases hb
    obtain ⟨haddr, hv⟩ := memRead_eq_ok.1 hv
    exact .cwld haddr hv

theorem execResld_effect {k : BitVec 5} (h : execResld k s = .next u) : Effect s (.resld k) u := by
  refine effect_of_command (fun t d hb => ?_) h
  split_ifs at hb with hk
  split at hb
  · cases hb
  · rename_i v hv
    cases hb
    exact .resld (by omega) hv

theorem execTblld_effect {sel t : BitVec 2} {idx : BitVec 8} (h : execTblld sel t idx s = .next u) :
    Effect s (.tblld sel t idx) u := by
  refine effect_of_command (fun v d hb => ?_) h
  split at hb
  · cases hb
  · rename_i k hk
    split_ifs at hb with ht
    split at hb
    · cases hb
    · rename_i I hI
      split at hb
      · cases hb
      · rename_i e he
        cases hb
        exact .tblld hk (by simpa using ht) hI he

theorem execStat_effect (h : execStat s = .next u) : Effect s .stat u := by
  cases h
  exact .completed .stat

theorem execCwclr_effect (h : execCwclr s = .next u) : Effect s .cwclr u := by
  refine effect_of_command (fun t d hb => ?_) h
  cases hb
  exact .cwclr

/-- Every command has one of the three outcomes. -/
theorem exec_effect {i : Instr} (h : exec i s = .next u) : Effect s i u :=
  match i with
  | .rsnew .. => execRsnew_effect h
  | .rsenc .. => execRsenc_effect h
  | .rsput .. => execRsput_effect h
  | .rscmp .. => execRscmp_effect h
  | .eccpri => execEccpri_effect h
  | .eccsece _ => execEccsece_effect h
  | .eccseco _ => execEccseco_effect h
  | .eccall _ => execEccall_effect h
  | .eccchk _ => execEccchk_effect h
  | .cwst .. => execCwst_effect h
  | .cwld _ => execCwld_effect h
  | .resld _ => execResld_effect h
  | .tblld .. => execTblld_effect h
  | .stat => execStat_effect h
  | .cwclr => execCwclr_effect h

end

end Sys2Proof.Machine

/-! What each command leaves unchanged, and that a constructed slot is kept until reset. -/

namespace Sys2Proof.Machine

/-! ## The frame of each command -/

/-- The command that writes a slot (10_state.md R36). -/
def writesSlots : Instr → Bool
  | .rsnew .. => true
  | _ => false

/-- The commands that write `RES` and `RLEN` (10_state.md R26). -/
def writesResult : Instr → Bool
  | .rsenc .. | .eccpri | .eccsece _ | .eccseco _ | .eccall _ | .eccchk _ | .cwclr => true
  | _ => false

/-- The commands that write `MATCH` (10_state.md R29). -/
def writesMatch : Instr → Bool
  | .rscmp .. | .eccchk _ | .cwclr => true
  | _ => false

/-- The commands that write `CW` (10_state.md R32). -/
def writesBuffer : Instr → Bool
  | .cwst .. | .rsput .. | .eccpri | .eccsece _ | .eccseco _ | .eccall _ | .cwclr => true
  | _ => false

/-- `t` has every component of the unit's data as in `s` that the command `i` does not write. -/
structure KeepsTheRest (i : Instr) (s t : State) : Prop where
  slots : writesSlots i = false → t.slots = s.slots
  result : writesResult i = false → t.res = s.res ∧ t.rlen = s.rlen
  matchFlag : writesMatch i = false → t.matchFlag = s.matchFlag
  cw : writesBuffer i = false → t.cw = s.cw

/-- A command that leaves all the unit's data alone. -/
theorem KeepsTheRest.of_same {i : Instr} {s t : State} (hslots : t.slots = s.slots) (hres : t.res = s.res)
    (hrlen : t.rlen = s.rlen) (hmatch : t.matchFlag = s.matchFlag) (hcw : t.cw = s.cw) : KeepsTheRest i s t :=
  ⟨fun _ => hslots, fun _ => ⟨hres, hrlen⟩, fun _ => hmatch, fun _ => hcw⟩

theorem passParts_frame {w : Bool} {ps : List Part} {s t : State} {b : Bool} (h : passParts w ps s = .ok (t, b)) :
    SamePart s t ∧ (w = false → t.cw = s.cw) :=
  runParts_frame (passParts_eq_ok.1 h).2

theorem Completes.keepsTheRest {i : Instr} {s t : State} {d : Data} (h : Completes s i t d) : KeepsTheRest i s t := by
  cases h with
  | rsnew => exact ⟨nofun, fun _ => ⟨rfl, rfl⟩, fun _ => rfl, fun _ => rfl⟩
  | rsenc => exact ⟨fun _ => rfl, nofun, fun _ => rfl, fun _ => rfl⟩
  | rsput | cwst => exact ⟨fun _ => rfl, fun _ => ⟨rfl, rfl⟩, fun _ => rfl, nofun⟩
  | rscmp => exact ⟨fun _ => rfl, fun _ => ⟨rfl, rfl⟩, nofun, fun _ => rfl⟩
  | eccpri ht | eccsece _ ht | eccseco _ ht | eccall _ ht =>
    have hsame := (passParts_frame ht).1
    exact ⟨fun _ => hsame.slots, nofun, fun _ => hsame.matchFlag, nofun⟩
  | eccchk _ ht =>
    have hframe := passParts_frame ht
    exact ⟨fun _ => hframe.1.slots, nofun, nofun, fun _ => hframe.2 rfl⟩
  | cwld | resld | tblld | stat => exact .of_same rfl rfl rfl rfl rfl
  | cwclr => exact ⟨fun _ => rfl, nofun, nofun, nofun⟩

/-- A response changes none of the unit's data. -/
theorem KeepsTheRest.complete {i : Instr} {s t : State} (h : KeepsTheRest i s t) (d : Data) :
    KeepsTheRest i s (t.complete d) := ⟨h.slots, h.result, h.matchFlag, h.cw⟩

theorem exec_keepsTheRest {i : Instr} {s u : State} (h : exec i s = .next u) : KeepsTheRest i s u := by
  cases exec_effect h with
  | completed ht => exact ht.keepsTheRest.complete _
  | faulted | halted => exact .of_same rfl rfl rfl rfl rfl

/-- Settles O22: the components that each command does not write are those of `exec_keepsTheRest`. -/
theorem eachCommandWritesOnlyItsOwnState : Obligations.EachCommandWritesOnlyItsOwnState := by
  intro i s t h
  obtain ⟨hslots, hresult, hmatch, hcw⟩ := exec_keepsTheRest h
  refine ⟨?_, ?_, ?_, ?_⟩
  · cases i with
    | rsnew => trivial
    | _ => exact hslots rfl
  · cases i with
    | rsenc | eccpri | eccsece | eccseco | eccall | eccchk | cwclr => trivial
    | _ => exact hresult rfl
  · cases i with
    | rscmp | eccchk | cwclr => trivial
    | _ => exact hmatch rfl
  · cases i with
    | cwst | rsput | eccpri | eccsece | eccseco | eccall | cwclr => trivial
    | _ => exact hcw rfl

/-! ## A constructed slot -/

section
variable {s t : State} {k : Fin 3} {I : Encoder}

theorem setSlot_slots_ne {j : Fin 3} (J : Encoder) (hjk : j ≠ k) : (s.setSlot j J).slots[k] = s.slots[k] :=
  Vector.getElem_set_ne j.isLt k.isLt fun e => hjk (Fin.ext e)

theorem setSlot_slots_self (s : State) (k : Fin 3) (I : Encoder) : (s.setSlot k I).slots[k] = some I :=
  Vector.getElem_set_self k.isLt

/-- `RSNEW` fills an empty slot only, and no other command writes one. -/
theorem Completes.keeps_slot {i : Instr} {d : Data} (h : Completes s i t d) (hk : s.slots[k] = some I) :
    t.slots[k] = some I := by
  cases hi : writesSlots i with
  | false => rwa [h.keepsTheRest.slots hi]
  | true =>
    cases h with
    | rsnew _ _ hempty =>
      rw [setSlot_slots_ne, hk]
      rintro rfl
      simp [hempty] at hk
    | _ => cases hi

theorem exec_keeps_slot {i : Instr} (h : exec i s = .next t) (hk : s.slots[k] = some I) : t.slots[k] = some I := by
  cases exec_effect h with
  | completed ht => exact ht.keeps_slot hk
  | faulted | halted => exact hk

theorem rejectWord_slots (s : State) : s.rejectWord.slots = s.slots := by
  unfold State.rejectWord
  split <;> rfl

theorem resetNext_cons {p : PortIn} {rest : List PortIn} (hh : s.host = p :: rest) : s.resetNext = p.rst := by
  simp [State.resetNext, hh]

/-- A step without `rst` keeps a constructed slot. -/
theorem step_keeps_slot (h : step s = .next t) (hr : s.resetNext = false) (hk : s.slots[k] = some I) :
    t.slots[k] = some I := by
  rcases step_cases h with ⟨-, e⟩ | ⟨p, rest, hh, hcase⟩
  · cases e; exact hk
  · rw [resetNext_cons hh] at hr
    rcases hcase with ⟨hrst, -⟩ | ⟨-, w, -, e⟩ | ⟨-, -, -, e⟩ | ⟨-, -, -, ⟨i, -, e⟩ | ⟨_, -, e⟩⟩
    · simp [hr] at hrst
    · cases e; split <;> exact hk
    · cases e; exact hk
    · exact exec_keeps_slot e.symm hk
    · cases e; rwa [rejectWord_slots]

/-- A step with `rst` leaves the state after reset, and the host's lists. -/
theorem step_of_resetNext (h : step s = .next t) (hr : s.resetNext = true) :
    ∃ p rest, s.host = p :: rest ∧ t = { State.reset with host := rest, taken := s.taken } := by
  rcases step_cases h with ⟨hh, -⟩ | ⟨p, rest, hh, hcase⟩
  · simp [State.resetNext, hh] at hr
  · rw [resetNext_cons hh] at hr
    rcases hcase with ⟨-, e⟩ | ⟨hrst, -⟩ | ⟨hrst, -⟩ | ⟨hrst, -⟩
    · exact ⟨p, rest, hh, Host.Outcome.next.inj e⟩
    all_goals simp [hr] at hrst

theorem reset_slots (k : Fin 3) : State.reset.slots[k] = none := Vector.getElem_replicate k.isLt

/-- R111's third check: a legal slot and count, and the slot is built. -/
theorem exec_rsnew_alreadyBuilt {sel : BitVec 2} {nsym : BitVec 5} {root : BitVec 6} {poly : BitVec 8}
    (herr : s.err = 0#4) (hsel : slotIndex sel = some k) (hcount : nsymLegal nsym = true) (hk : s.built k = true) :
    faultsWith (exec (.rsnew sel nsym root poly) s) s .alreadyBuilt := by
  refine command_faultsWith herr ?_
  rw [hsel]
  simp [hcount, hk]

end

/-- Settles O23: `step_keeps_slot`, the state after reset, and R111's check of the slot. -/
theorem constructedSlotIsImmutable : Obligations.ConstructedSlotIsImmutable := by
  intro s t k I hk
  refine ⟨fun h hr => step_keeps_slot h hr hk, fun h hr => ?_, fun sel nsym root poly herr hsel hlow hhigh => ?_⟩
  · obtain ⟨p, rest, -, rfl⟩ := step_of_resetNext h hr
    exact reset_slots k
  · exact exec_rsnew_alreadyBuilt herr (slotIndex_eq_some.2 hsel) (nsymLegal_iff.2 ⟨hlow, hhigh⟩) (by simp [State.built, hk])

/-! ## The status word -/

/-- Settles O58: R30's concatenation, field by field. -/
theorem statusWordFields : Obligations.StatusWordFields := by
  intro s
  unfold State.status State.built
  refine ⟨BitVec.extractLsb'_append_eq_right, ?_, ?_, ?_, ?_, ?_, ?_, rfl⟩
  · rw [BitVec.getLsbD_append, BitVec.getLsbD_append]; simp
  · rw [BitVec.getLsbD_append, BitVec.getLsbD_append, BitVec.getLsbD_append]; simp
  · iterate 4 rw [BitVec.getLsbD_append]
    simp
  · iterate 5 rw [BitVec.getLsbD_append]
    simp
  · iterate 5 rw [BitVec.extractLsb'_append_eq_of_le (by decide)]
    exact BitVec.extractLsb'_append_eq_right
  · iterate 6 rw [BitVec.extractLsb'_append_eq_of_le (by decide)]
    rfl

end Sys2Proof.Machine

/-! The invariant `State.Inv`: it holds after reset, and every update of the state, so every step, keeps it. -/

namespace Sys2Proof.Machine

/-! ## Response words (30_encoding.md R78) -/

section
variable (c : BitVec 4) (d : Data)

theorem responseWord_fault : (responseWord c d).extractLsb' 28 4 = c := by
  unfold responseWord
  rw [BitVec.extractLsb'_append_eq_of_le (by decide), BitVec.extractLsb'_append_eq_left]

theorem responseWord_zeros : (responseWord c d).extractLsb' 16 12 = 0#12 := by
  unfold responseWord
  rw [BitVec.extractLsb'_append_eq_of_le (by decide)]
  exact BitVec.extractLsb'_append_eq_right

theorem responseWord_data : (responseWord c d).extractLsb' 0 16 = d := BitVec.extractLsb'_append_eq_right

end

/-- The word of a code up to 9 is of R78's form if its code or its `DATA` is 0. -/
theorem responseSound_responseWord {c : BitVec 4} {d : Data} (hc : c.toNat ≤ 9) (h : c = 0#4 ∨ d = 0#16) :
    responseSound (responseWord c d) = true := by
  simpa [responseSound, responseWord_fault, responseWord_zeros, responseWord_data, hc] using h

/-! ## After reset -/

theorem reset_resultSound : State.reset.resultSound := by
  refine ⟨by decide, fun k => ?_⟩
  have hk : State.reset.res[k] = none := Vector.getElem_replicate k.isLt
  rw [hk]
  exact (decide_eq_false k.val.not_lt_zero).symm

/-- Settles O15: after reset nothing is written, built, recorded or answered. -/
theorem resetIsSound : Obligations.ResetIsSound where
  cw := Memory.wf_nil
  result := reset_resultSound
  err := Nat.zero_le 8
  slots k _ hI := absurd ((reset_slots k).symm.trans hI) nofun
  rsp := nofun
  taken := nofun

/-! ## Each update of the state keeps the invariant -/

namespace State.Inv
variable {s : State} (h : s.Inv)
include h

theorem withHost (l : List PortIn) : State.Inv { s with host := l } :=
  ⟨h.cw, h.result, h.err, h.slots, h.rsp, h.taken⟩

theorem withCw {m : Memory} (hm : m.wf) : State.Inv { s with cw := m } :=
  ⟨hm, h.result, h.err, h.slots, h.rsp, h.taken⟩

theorem setMatch (b : Bool) : (s.setMatch b).Inv := ⟨h.cw, h.result, h.err, h.slots, h.rsp, h.taken⟩

theorem clearCall : s.clearCall.Inv :=
  ⟨Memory.wf_nil, reset_resultSound, h.err, h.slots, h.rsp, h.taken⟩

/-- The shift register takes the result of a sound encoder. -/
theorem setResult {I : Encoder} (hI : I.sound = true) (d : List Sym) : (s.setResult I.nsym (I.lfsr d)).Inv :=
  ⟨h.cw, resultSound_setResult s I.nsym _ (sound_lfsr_length d hI) (sound_nsym hI).2, h.err, h.slots, h.rsp, h.taken⟩

theorem setSlot {I : Encoder} (hI : I.sound = true) (k : Fin 3) : (s.setSlot k I).Inv where
  cw := h.cw
  result := h.result
  err := h.err
  slots j J hJ := by
    by_cases hk : k = j
    · subst hk
      rw [setSlot_slots_self] at hJ
      exact Option.some.inj hJ ▸ hI
    · rw [setSlot_slots_ne I hk] at hJ
      exact h.slots j J hJ
  rsp := h.rsp
  taken := h.taken

theorem respond {w : Word} (hw : responseSound w = true) : (s.respond w).Inv :=
  ⟨h.cw, h.result, h.err, h.slots, fun _ e => Option.some.inj e ▸ hw, h.taken⟩

theorem complete (d : Data) : (s.complete d).Inv :=
  h.respond (responseSound_responseWord (by decide) (.inl rfl))

theorem answerHalted : s.answerHalted.Inv := h.respond (responseSound_responseWord (by decide) (.inr rfl))

theorem withErr {e : BitVec 4} (he : e.toNat ≤ 8) : State.Inv { s with err := e } :=
  ⟨h.cw, h.result, he, h.slots, h.rsp, h.taken⟩

theorem raise (f : FaultCode) : (s.raise f).Inv :=
  have hf : f.code.toNat ≤ 8 := f.code_range.2
  (h.withErr hf).respond (responseSound_responseWord (by omega) (.inr rfl))

theorem rejectWord : s.rejectWord.Inv := by
  unfold State.rejectWord
  split
  · exact h.answerHalted
  · exact h.raise .illegal

/-- The host takes the waiting response. -/
theorem takeResponse {w : Word} (hw : s.rsp = some w) :
    State.Inv { s with rsp := none, taken := s.taken ++ [w] } where
  cw := h.cw
  result := h.result
  err := h.err
  slots := h.slots
  rsp := nofun
  taken v hv := by
    rcases List.mem_append.1 hv with hv | hv
    · exact h.taken v hv
    · rw [List.mem_singleton.1 hv]
      exact h.rsp w hw

/-- `rst` abandons all but what the host has taken. -/
theorem ofReset (l : List PortIn) : State.Inv { State.reset with host := l, taken := s.taken } :=
  have hreset := resetIsSound
  ⟨hreset.cw, hreset.result, hreset.err, hreset.slots, hreset.rsp, h.taken⟩

end State.Inv

/-! ## The parts of the pass -/

/-- The ECC cells of a part lie in the buffer. -/
def Part.eccInBuffer (p : Part) : Prop := ∀ j, j < p.nsym.toNat → p.eccBase + j * p.stride < 144

theorem primaryPart_eccInBuffer : primaryPart.eccInBuffer := by
  simp only [Part.eccInBuffer, primaryPart, BitVec.toNat_ofNat]
  omega

/-- The last even ECC cell of a mode is 142 (20_memory.md R53). -/
theorem eccBase_add_lt {mode : BitVec 3} {j : Nat} (hj : j < (Config.subNsym mode).toNat) :
    Config.eccBase mode + j * 2 < 143 := by
  by_cases hm : mode = 5#3 <;>
    simp only [Config.subNsym, Config.eccBase, Config.dataLength, Config.secondaryBase, hm, if_true, if_false,
      BitVec.toNat_ofNat] at hj ⊢ <;>
    omega

theorem evenPart_eccInBuffer (mode : BitVec 3) : (evenPart mode).eccInBuffer := fun _ hj =>
  Nat.lt_succ_of_lt (eccBase_add_lt hj)

theorem oddPart_eccInBuffer (mode : BitVec 3) : (oddPart mode).eccInBuffer := fun j hj => by
  have hlt := eccBase_add_lt hj
  show Config.eccBase mode + 1 + j * 2 < 144
  omega

theorem allParts_eccInBuffer {mode : BitVec 3} {p : Part} (hp : p ∈ allParts mode) : p.eccInBuffer := by
  simp only [allParts, List.mem_cons, List.not_mem_nil, or_false] at hp
  rcases hp with rfl | rfl | rfl
  · exact primaryPart_eccInBuffer
  · exact evenPart_eccInBuffer mode
  · exact oddPart_eccInBuffer mode

namespace State.Inv
variable {s t : State} {b w : Bool} (h : s.Inv)
include h

/-- One part: a sound encoder's result in `RES` and, if the part writes, in its ECC cells. -/
theorem runPart {p : Part} (hp : p.eccInBuffer) (hrun : Machine.runPart w p s = .ok (t, b)) : t.Inv := by
  cases w with
  | false =>
    obtain ⟨I, d, _, hI, -, -, -, rfl⟩ := runPart_compare.1 hrun
    exact h.setResult (h.slots _ I (partEncoder_eq_ok.1 hI).1) d
  | true =>
    obtain ⟨I, d, hI, -, -, rfl⟩ := runPart_write.1 hrun
    obtain ⟨hslot, hcount⟩ := partEncoder_eq_ok.1 hI
    have hsound := h.slots _ I hslot
    refine (h.setResult hsound d).withCw (Memory.wf_writeRun h.cw _ _ _ fun j hj => hp j ?_)
    rwa [List.length_reverse, sound_lfsr_length d hsound, hcount] at hj

theorem runParts {ps : List Part} (hps : ∀ p ∈ ps, p.eccInBuffer) (hrun : Machine.runParts w ps s = .ok (t, b)) :
    t.Inv := by
  induction ps generalizing s b with
  | nil =>
    obtain ⟨rfl, -⟩ := runParts_nil.1 hrun
    exact h
  | cons p ps ih =>
    obtain ⟨u, _, _, hp, hrest, -⟩ := runParts_cons.1 hrun
    exact ih (h.runPart (hps p List.mem_cons_self) hp) (fun q hq => hps q (List.mem_cons_of_mem p hq)) hrest

/-- A list of parts of one mode. -/
theorem passParts {ps : List Part} {mode : BitVec 3} (hps : ps ⊆ allParts mode)
    (hrun : Machine.passParts w ps s = .ok (t, b)) : t.Inv :=
  h.runParts (fun _ hp => allParts_eccInBuffer (hps hp)) (passParts_eq_ok.1 hrun).2

end State.Inv

/-! ## Every command and every step -/

/-- What a command that completes leaves is sound. -/
theorem Completes.inv {i : Instr} {s t : State} {d : Data} (hc : Completes s i t d) (h : s.Inv) : t.Inv := by
  cases hc with
  | rsnew _ hcount _ hI => exact h.setSlot (sound_of_construct hcount hI) _
  | rsenc _ _ hI _ => exact h.setResult (h.slots _ _ hI) _
  | rsput hr =>
    obtain ⟨-, -, hrange, hres⟩ := resultRun_eq_ok.1 hr
    refine h.withCw (Memory.wf_writeRun h.cw _ _ _ fun j hj => runInRange_lt hrange ?_)
    rwa [List.length_reverse, (result_eq_some.1 hres).1] at hj
  | rscmp => exact h.setMatch _
  | eccpri ht => exact h.passParts (mode := 2#3) (by simp [allParts]) ht
  | @eccsece mode _ _ _ ht | @eccseco mode _ _ _ ht => exact h.passParts (mode := mode) (by simp [allParts]) ht
  | eccall _ ht => exact h.passParts (List.Subset.refl _) ht
  | eccchk _ ht => exact (h.passParts (List.Subset.refl _) ht).setMatch _
  | cwst haddr => exact h.withCw (Memory.wf_write _ h.cw (Nat.lt_succ_of_le haddr))
  | cwld | resld | tblld | stat => exact h
  | cwclr => exact h.clearCall

theorem exec_inv {i : Instr} {s t : State} (h : s.Inv) (he : exec i s = .next t) : t.Inv := by
  cases exec_effect he with
  | completed hc => exact (hc.inv h).complete _
  | faulted f => exact h.raise f
  | halted => exact h.answerHalted

/-- Settles O16, by the cases of a step: `exec_inv` where a command is issued, a single update of the state where
none is. -/
theorem stepKeepsTheInvariant : Obligations.StepKeepsTheInvariant := by
  intro s t h hstep
  rcases step_cases hstep with ⟨-, e⟩ | ⟨p, rest, -, hcase⟩
  · cases e; exact h
  · rcases hcase with ⟨-, e⟩ | ⟨-, w, hw, e⟩ | ⟨-, -, -, e⟩ | ⟨-, -, -, ⟨i, -, e⟩ | ⟨_, -, e⟩⟩
    · cases e; exact h.ofReset rest
    · cases e
      split
      · exact (h.takeResponse hw).withHost rest
      · exact h.withHost rest
    · cases e; exact h.withHost rest
    · exact exec_inv (h.withHost rest) e.symm
    · cases e; exact (h.withHost rest).rejectWord

end Sys2Proof.Machine

/-! Reads and the codeword buffer (20_memory.md R59, R60): a command that reads leaves only its response, and a load
returns the latest store. -/

namespace Sys2Proof.Machine

/-! ## The commands that only read -/

/-- The commands that read and write nothing (20_memory.md R59). -/
def readsOnly : Instr → Bool
  | .cwld _ | .resld _ | .tblld .. | .stat => true
  | _ => false

section
variable {s t : State} {i : Instr}

theorem Completes.eq_of_readsOnly {d : Data} (h : Completes s i t d) (hi : readsOnly i = true) : t = s := by
  cases h with
  | cwld | resld | tblld | stat => rfl
  | _ => cases hi

/-- A command that reads and takes no fault presents a response and does nothing else, on a halted unit too. -/
theorem exec_readsOnly (h : exec i s = .next t) (herr : t.err = s.err) (hi : readsOnly i = true) :
    ∃ w, t = s.respond w := by
  cases exec_effect h with
  | completed ht => exact ⟨_, by rw [ht.eq_of_readsOnly hi]; rfl⟩
  | faulted f hrun => exact absurd (herr.trans hrun) f.code_ne_zero
  | halted => exact ⟨_, rfl⟩

/-- The frame of a command overwrites the waiting response: a body that ignores it makes a command that does. -/
theorem command_respond {w : Word} {body body' : Except FaultCode (State × Data)}
    (hbody : body' = body.map fun p => (p.1.respond w, p.2)) : command (s.respond w) body' = command s body := by
  subst hbody
  by_cases herr : s.err = 0#4
  · cases body with
    | ok p => exact (command_ok (s := s.respond w) herr rfl).trans (command_ok herr rfl).symm
    | error f => exact (command_error (s := s.respond w) herr rfl).trans (command_error herr rfl).symm
  · exact (command_halted (s := s.respond w) herr).trans (command_halted herr).symm

/-- What a reading command answers does not depend on the response that waits. -/
theorem exec_respond_of_readsOnly (s : State) (w : Word) (hi : readsOnly i = true) :
    exec i (s.respond w) = exec i s := by
  cases i with
  | cwld addr =>
    refine command_respond ?_
    rw [show memRead (s.respond w) addr.toNat = memRead s addr.toNat from rfl]
    cases memRead s addr.toNat <;> rfl
  | resld k =>
    refine command_respond ?_
    rw [State.respond_rlen, show (s.respond w).resCell k.toNat = s.resCell k.toNat from rfl]
    split
    · rfl
    · cases s.resCell k.toNat <;> rfl
  | tblld sel tab idx =>
    refine command_respond ?_
    cases slotIndex sel with
    | none => rfl
    | some k =>
      cases tableLegal tab with
      | false => rfl
      | true =>
        simp only [State.respond_slots]
        cases s.slots[k] with
        | none => rfl
        | some I => cases he : tableEntry I tab idx.toNat <;> simp [he, Except.map]
  | stat => rfl
  | _ => cases hi

end

/-- Settles O24: the state after the read is the one before it with a response, on which the read answers the same. -/
theorem readsHaveNoSideEffect : Obligations.ReadsHaveNoSideEffect := by
  intro i s t h herr hread
  have hi : readsOnly i = true := by
    cases i with
    | cwld | resld | tblld | stat => rfl
    | _ => exact hread.elim
  obtain ⟨w, rfl⟩ := exec_readsOnly h herr hi
  exact ⟨rfl, (exec_respond_of_readsOnly s w hi).trans h⟩

/-! ## Stores and loads of one cell -/

section
variable {s t u v : State} {a : BitVec 8}

/-- The response to a completed load of a symbol, whole. -/
theorem complete_symbol (s : State) (x : Sym) : s.complete (x.setWidth 16) = { s with rsp := some (0#26 ++ x) } := by
  have hword : 0#16 ++ x.setWidth 16 = (0#26 ++ x : Word) := by revert x; decide
  rw [complete_eq, hword]

theorem exec_cwst_of_le {x : Sym} (herr : s.err = 0#4) (ha : a.toNat ≤ 143) :
    exec (.cwst a x) s = .next (State.complete { s with cw := s.cw.write a.toNat x } 0#16) :=
  command_ok herr (by rw [memWrite_eq_ok.2 ⟨ha, rfl⟩])

/-- What a later command finds after a store: the unit still runs, and the one cell is replaced. -/
theorem exec_cwst_leaves {x : Sym} (herr : s.err = 0#4) (ha : a.toNat ≤ 143) (h : exec (.cwst a x) s = .next t) :
    t.err = 0#4 ∧ t.cw = s.cw.write a.toNat x := by
  rw [exec_cwst_of_le herr ha] at h
  cases h
  exact ⟨herr, rfl⟩

theorem exec_cwld_of_memRead_ok {x : Sym} (herr : s.err = 0#4) (hx : memRead s a.toNat = .ok x) :
    exec (.cwld a) s = .next (s.complete (x.setWidth 16)) :=
  command_ok herr (by rw [hx])

theorem exec_cwld_of_memRead_error {f : FaultCode} (herr : s.err = 0#4) (hf : memRead s a.toNat = .error f) :
    exec (.cwld a) s = .next (s.raise f) :=
  command_error herr (by rw [hf])

/-- A read of a cell depends on nothing but what the cell holds. -/
theorem memRead_congr {b : Nat} (h : t.cw.read b = s.cw.read b) : memRead t b = memRead s b := by
  unfold memRead
  rw [h]

/-- Two units, neither halted, that read a cell alike answer its load alike. -/
theorem exec_cwld_rsp_congr (hs : s.err = 0#4) (ht : t.err = 0#4) (hread : memRead t a.toNat = memRead s a.toNat)
    (hu : exec (.cwld a) s = .next u) (hv : exec (.cwld a) t = .next v) : v.rsp = u.rsp := by
  cases hm : memRead s a.toNat with
  | ok x =>
    rw [exec_cwld_of_memRead_ok hs hm] at hu
    rw [exec_cwld_of_memRead_ok ht (hread.trans hm)] at hv
    cases hu; cases hv; rfl
  | error f =>
    rw [exec_cwld_of_memRead_error hs hm] at hu
    rw [exec_cwld_of_memRead_error ht (hread.trans hm)] at hv
    cases hu; cases hv; rfl

end

/-- Settles O55: the store writes one cell, so a load of it returns the symbol and any other load reads as before. -/
theorem loadAfterStore : Obligations.LoadAfterStore := by
  intro a b x s t herr ha hst
  obtain ⟨hrun, hcw⟩ := exec_cwst_leaves herr ha hst
  refine ⟨?_, fun hab u v w hu hv => ?_⟩
  · have hload : memRead t a.toNat = .ok x := memRead_eq_ok.2 ⟨ha, by rw [hcw, Memory.read_write_self]⟩
    rw [exec_cwld_of_memRead_ok hrun hload, complete_symbol]
  · have hne : b.toNat ≠ a.toNat := fun e => hab (BitVec.eq_of_toNat_eq e.symm)
    have hcell : t.cw.read b.toNat = s.cw.read b.toNat := by rw [hcw, Memory.read_write_ne _ _ hne]
    rw [exec_cwld_rsp_congr herr hrun (memRead_congr hcell) hu hv]

end Sys2Proof.Machine

/-! The decoder and the encoder (30_encoding.md R72 to R83): a word is its opcode and 24 bits below it, a row of R75 is
an opcode and must-be-zero bits, and a command is its row with the fields of a word. -/

namespace Sys2Proof

/-! ## A word as its opcode and the bits below it -/

theorem word_eq_iff {x y : Word} :
    x = y ↔ opcodeOf x = opcodeOf y ∧ x &&& 0x00FFFFFF#32 = y &&& 0x00FFFFFF#32 := by
  refine ⟨fun h => h ▸ ⟨rfl, rfl⟩, fun ⟨hop, hlow⟩ => BitVec.eq_of_getLsbD_eq fun k hk => ?_⟩
  by_cases h24 : k < 24
  · have hmask : (0x00FFFFFF#32).getLsbD k = true := by interval_cases k <;> rfl
    have hbit := congrArg (·.getLsbD k) hlow
    simpa [hmask] using hbit
  · have hbit := congrArg (·.getLsbD (k - 24)) hop
    simpa [opcodeOf, show k - 24 < 8 by omega, show 24 + (k - 24) = k by omega] using hbit

theorem opcodeOf_and (x y : Word) : opcodeOf (x &&& y) = opcodeOf x &&& opcodeOf y :=
  BitVec.extractLsb'_and

theorem withZeros_eq_ok {w zeros : Word} {i j : Instr} :
    withZeros w zeros i = .ok j ↔ w &&& zeros = 0#32 ∧ i = j := by
  unfold withZeros
  split <;> simp_all

/-! ## The rows of the opcode table -/

/-- The opcode of a command (R75). -/
def Instr.opcode : Instr → BitVec 8
  | .rsnew .. => 0x01#8
  | .rsenc .. => 0x02#8
  | .rsput .. => 0x03#8
  | .rscmp .. => 0x04#8
  | .eccpri => 0x08#8
  | .eccsece _ => 0x09#8
  | .eccseco _ => 0x0A#8
  | .eccall _ => 0x0B#8
  | .eccchk _ => 0x0C#8
  | .cwst .. => 0x10#8
  | .cwld _ => 0x11#8
  | .resld _ => 0x12#8
  | .tblld .. => 0x13#8
  | .stat => 0x14#8
  | .cwclr => 0x15#8

/-- The must-be-zero bits of a command's format (R73). -/
def Instr.mustBeZero : Instr → Word
  | .rsnew .. => 0x0000E000#32
  | .rsenc .. => 0x00300000#32
  | .rsput .. | .rscmp .. => 0x00F000FF#32
  | .eccsece _ | .eccseco _ | .eccall _ | .eccchk _ => 0x00FFFFF8#32
  | .cwst .. => 0x00FF00C0#32
  | .cwld _ => 0x00FF00FF#32
  | .resld _ => 0x00FFFFE0#32
  | .tblld .. => 0x000FFF00#32
  | .eccpri | .stat | .cwclr => 0x00FFFFFF#32

/-- The command of the row of `i` with the operands that stand in `w` (R73). -/
def Instr.withFieldsOf (w : Word) : Instr → Instr
  | .rsnew .. => .rsnew (w.extractLsb' 22 2) (w.extractLsb' 8 5) (w.extractLsb' 16 6) (w.extractLsb' 0 8)
  | .rsenc .. => .rsenc (w.extractLsb' 22 2) (w.extractLsb' 0 8) (w.extractLsb' 8 8) (w.extractLsb' 16 4)
  | .rsput .. => .rsput (w.extractLsb' 8 8) (w.extractLsb' 16 4)
  | .rscmp .. => .rscmp (w.extractLsb' 8 8) (w.extractLsb' 16 4)
  | .eccpri => .eccpri
  | .eccsece _ => .eccsece (w.extractLsb' 0 3)
  | .eccseco _ => .eccseco (w.extractLsb' 0 3)
  | .eccall _ => .eccall (w.extractLsb' 0 3)
  | .eccchk _ => .eccchk (w.extractLsb' 0 3)
  | .cwst .. => .cwst (w.extractLsb' 8 8) (w.extractLsb' 0 6)
  | .cwld _ => .cwld (w.extractLsb' 8 8)
  | .resld _ => .resld (w.extractLsb' 0 5)
  | .tblld .. => .tblld (w.extractLsb' 22 2) (w.extractLsb' 20 2) (w.extractLsb' 0 8)
  | .stat => .stat
  | .cwclr => .cwclr

section
variable (i : Instr) (w : Word)

theorem opcodeOf_rowMask : opcodeOf i.rowMask = 0xFF#8 := by
  cases i <;> (dsimp only [Instr.rowMask]; decide)

theorem opcodeOf_rowMatch : opcodeOf i.rowMatch = i.opcode := by
  cases i <;> (dsimp only [Instr.rowMatch, Instr.opcode]; decide)

theorem rowMask_low : i.rowMask &&& 0x00FFFFFF#32 = i.mustBeZero := by
  cases i <;> (dsimp only [Instr.rowMask, Instr.mustBeZero]; decide)

theorem rowMatch_low : i.rowMatch &&& 0x00FFFFFF#32 = 0#32 := by
  cases i <;> (dsimp only [Instr.rowMatch]; decide)

@[simp] theorem rowMatch_withFieldsOf : (i.withFieldsOf w).rowMatch = i.rowMatch := by cases i <;> rfl

@[simp] theorem rowMask_withFieldsOf : (i.withFieldsOf w).rowMask = i.rowMask := by cases i <;> rfl

@[simp] theorem withFieldsOf_withFieldsOf : (i.withFieldsOf w).withFieldsOf w = i.withFieldsOf w := by cases i <;> rfl

end

/-- A word matches a row when it has the row's opcode and its must-be-zero bits are 0 (R75, R77). -/
theorem matchesRow_iff {w : Word} {i : Instr} :
    w &&& i.rowMask = i.rowMatch ↔ opcodeOf w = i.opcode ∧ w &&& i.mustBeZero = 0#32 := by
  have hones : opcodeOf w &&& 0xFF#8 = opcodeOf w := BitVec.and_allOnes
  rw [word_eq_iff, opcodeOf_and, opcodeOf_rowMask, hones, opcodeOf_rowMatch, rowMatch_low, BitVec.and_assoc, rowMask_low]

/-! ## The decoder, row by row -/

/-- What the decoder does with a word that has a command's opcode. -/
theorem decode_of_opcode {w : Word} {i : Instr} (h : opcodeOf w = i.opcode) :
    decode w = withZeros w i.mustBeZero (i.withFieldsOf w) := by
  unfold decode
  rw [h]
  cases i <;> rfl

/-- The decoder gives a command only for a word with its opcode. -/
theorem opcodeOf_of_decode {w : Word} {i : Instr} (h : decode w = .ok i) : opcodeOf w = i.opcode := by
  apply BitVec.eq_of_toNat_eq
  unfold decode at h
  split at h
  case h_16 => cases h -- no opcode of R75
  all_goals
    rename_i hop
    obtain ⟨-, rfl⟩ := withZeros_eq_ok.1 h
    exact hop

/-- The decoder, whole: `w` decodes to `i` when it matches the row of `i` and holds the operands of `i`. -/
theorem decode_eq_ok_iff {w : Word} {i : Instr} :
    decode w = .ok i ↔ w &&& i.rowMask = i.rowMatch ∧ i.withFieldsOf w = i := by
  rw [matchesRow_iff]
  constructor
  · intro h
    have hop := opcodeOf_of_decode h
    rw [decode_of_opcode hop] at h
    obtain ⟨hzero, hfields⟩ := withZeros_eq_ok.1 h
    exact ⟨⟨hop, hzero⟩, hfields⟩
  · rintro ⟨⟨hop, hzero⟩, hfields⟩
    rw [decode_of_opcode hop]
    exact withZeros_eq_ok.2 ⟨hzero, hfields⟩

/-- A word that matches a row decodes to the command with its fields. -/
theorem decode_of_matchesRow {w : Word} {i : Instr} (h : w &&& i.rowMask = i.rowMatch) :
    decode w = .ok (i.withFieldsOf w) :=
  decode_eq_ok_iff.2 ⟨by simpa using h, withFieldsOf_withFieldsOf i w⟩

theorem matchesRow_iff_decode {w : Word} {i : Instr} (hfields : i.withFieldsOf w = i) :
    w &&& i.rowMask = i.rowMatch ↔ decode w = .ok i :=
  ⟨fun h => hfields ▸ decode_of_matchesRow h, fun h => (decode_eq_ok_iff.1 h).1⟩

/-- Settles O3: each line is `matchesRow_iff_decode` for its row. -/
theorem decodeFollowsTheOpcodeTable : Obligations.DecodeFollowsTheOpcodeTable := fun _ =>
  ⟨matchesRow_iff_decode (i := .rsnew ..) rfl, matchesRow_iff_decode (i := .rsenc ..) rfl,
    matchesRow_iff_decode (i := .rsput ..) rfl, matchesRow_iff_decode (i := .rscmp ..) rfl,
    matchesRow_iff_decode (i := .eccpri) rfl, matchesRow_iff_decode (i := .eccsece _) rfl,
    matchesRow_iff_decode (i := .eccseco _) rfl, matchesRow_iff_decode (i := .eccall _) rfl,
    matchesRow_iff_decode (i := .eccchk _) rfl, matchesRow_iff_decode (i := .cwst ..) rfl,
    matchesRow_iff_decode (i := .cwld _) rfl, matchesRow_iff_decode (i := .resld _) rfl,
    matchesRow_iff_decode (i := .tblld ..) rfl, matchesRow_iff_decode (i := .stat) rfl,
    matchesRow_iff_decode (i := .cwclr) rfl⟩

/-! ## The encoder -/

/-- The word that spells a command matches the command's row. -/
theorem encode_matchesRow (i : Instr) : encode i &&& i.rowMask = i.rowMatch :=
  match i with
  | .rsnew .. => Laws.MatchesRow.rsnew ..
  | .rsenc .. => Laws.MatchesRow.rsenc ..
  | .rsput .. => Laws.MatchesRow.rsput ..
  | .rscmp .. => Laws.MatchesRow.rscmp ..
  | .eccpri => Laws.MatchesRow.eccpri
  | .eccsece _ => Laws.MatchesRow.eccsece _
  | .eccseco _ => Laws.MatchesRow.eccseco _
  | .eccall _ => Laws.MatchesRow.eccall _
  | .eccchk _ => Laws.MatchesRow.eccchk _
  | .cwst .. => Laws.MatchesRow.cwst ..
  | .cwld _ => Laws.MatchesRow.cwld _
  | .resld _ => Laws.MatchesRow.resld _
  | .tblld .. => Laws.MatchesRow.tblld ..
  | .stat => Laws.MatchesRow.stat
  | .cwclr => Laws.MatchesRow.cwclr

/-- Every field of the word that spells a command holds the command's operand. -/
theorem withFieldsOf_encode (i : Instr) : i.withFieldsOf (encode i) = i := by
  cases i <;> simp (disch := decide) only [Instr.withFieldsOf, encode, BitVec.extractLsb'_append_eq_of_le,
    BitVec.extractLsb'_append_eq_of_add_le] <;> simp

/-- Settles O1: the word matches its command's row, and its fields are the command's operands. -/
theorem decodeReadsBackEveryEncodedCommand : Obligations.DecodeReadsBackEveryEncodedCommand := fun i =>
  decode_eq_ok_iff.2 ⟨encode_matchesRow i, withFieldsOf_encode i⟩

/-- The word that spells the command of a row with the fields of `w`: the row's `match`, and the bits of `w` that the
row's mask leaves free. -/
theorem encode_withFieldsOf (w : Word) (i : Instr) :
    encode (i.withFieldsOf w) = w &&& ~~~i.rowMask ||| i.rowMatch := by
  apply BitVec.eq_of_getLsbD_eq
  intro k hk
  cases i <;>
    simp only [Instr.withFieldsOf, encode, Instr.rowMask, Instr.rowMatch, BitVec.getLsbD_append, BitVec.getLsbD_or,
      BitVec.getLsbD_and, BitVec.getLsbD_not, BitVec.getLsbD_extractLsb'] <;>
    interval_cases k <;> simp

/-- Settles O2: the word's masked bits are its row's `match`, the others are its command's operands. -/
theorem encodeGivesBackEveryDecodedWord : Obligations.EncodeGivesBackEveryDecodedWord := by
  intro w i h
  obtain ⟨hrow, hfields⟩ := decode_eq_ok_iff.1 h
  calc encode i = w &&& ~~~i.rowMask ||| w &&& i.rowMask := by rw [hrow, ← encode_withFieldsOf, hfields]
    _ = w := by rw [← BitVec.and_or_distrib_left, BitVec.not_or_self, BitVec.and_allOnes]

/-- Settles O4: an append of fields is the fields shifted to their places and or-ed, and the gaps or in nothing. -/
theorem encodeIsTheAssemblersWord : Obligations.EncodeIsTheAssemblersWord := by
  refine ⟨fun _ _ _ _ => ?_, fun _ _ _ _ => ?_, fun _ _ => ⟨?_, ?_⟩, fun _ => ⟨?_, ?_, ?_, ?_⟩, fun _ _ => ⟨?_, ?_⟩,
    fun _ => ?_, fun _ _ _ => ?_, rfl, rfl, rfl⟩
  all_goals
    rw [← BitVec.setWidth_eq (encode _)]
    simp only [encode, BitVec.setWidth_append_eq_shiftLeft_setWidth_or, BitVec.shiftLeft_or_distrib,
      ← BitVec.shiftLeft_add]
    simp

end Sys2Proof

/-! What a cycle at the ports does with a word, and the response every command gives (30_encoding.md R71, R74, R76 to
R78, R83). -/

namespace Sys2Proof.Machine

/-! ## A word that matches no row -/

/-- R75's table, row by row: each of its rows is the row of some command, and each command has one. -/
theorem exists_instr_of_mem_opcodeRows : ∀ r ∈ opcodeRows, ∃ i : Instr, r = (i.rowMatch, i.rowMask) := by
  simp only [opcodeRows, List.forall_mem_cons, List.not_mem_nil, false_implies, implies_true, and_true]
  exact ⟨⟨.rsnew 0 0 0 0, rfl⟩, ⟨.rsenc 0 0 0 0, rfl⟩, ⟨.rsput 0 0, rfl⟩, ⟨.rscmp 0 0, rfl⟩, ⟨.eccpri, rfl⟩,
    ⟨.eccsece 0, rfl⟩, ⟨.eccseco 0, rfl⟩, ⟨.eccall 0, rfl⟩, ⟨.eccchk 0, rfl⟩, ⟨.cwst 0 0, rfl⟩, ⟨.cwld 0, rfl⟩,
    ⟨.resld 0, rfl⟩, ⟨.tblld 0 0 0, rfl⟩, ⟨.stat, rfl⟩, ⟨.cwclr, rfl⟩⟩

theorem row_mem_opcodeRows (i : Instr) : (i.rowMatch, i.rowMask) ∈ opcodeRows := by
  cases i <;> simp [opcodeRows, Instr.rowMatch, Instr.rowMask]

/-- No two rows have one opcode. -/
theorem opcodeRows_nodup : (opcodeRows.map fun r => opcodeOf r.1).Nodup := by decide

/-- The rows of R75 that a word matches. -/
def rowsOf (w : Word) : List (Word × Word) := opcodeRows.filter fun r => w &&& r.2 == r.1

theorem mem_rowsOf {w : Word} {r : Word × Word} : r ∈ rowsOf w ↔ r ∈ opcodeRows ∧ w &&& r.2 = r.1 := by
  simp [rowsOf]

/-- A row that a word matches has the word's opcode. -/
theorem opcodeOf_of_mem_rowsOf {w : Word} {r : Word × Word} (hr : r ∈ rowsOf w) : opcodeOf r.1 = opcodeOf w := by
  obtain ⟨hmem, hmatch⟩ := mem_rowsOf.1 hr
  obtain ⟨i, rfl⟩ := exists_instr_of_mem_opcodeRows r hmem
  rw [opcodeOf_rowMatch, (matchesRow_iff.1 hmatch).1]

/-- All the rows a word matches have its opcode, and no two rows have one. -/
theorem rowsOf_length_le_one (w : Word) : (rowsOf w).length ≤ 1 := by
  have hall : ((rowsOf w).map fun r => opcodeOf r.1) = List.replicate (rowsOf w).length (opcodeOf w) :=
    List.eq_replicate_iff.2 ⟨List.length_map _, List.forall_mem_map.2 fun _ hr => opcodeOf_of_mem_rowsOf hr⟩
  have hnodup : ((rowsOf w).map fun r => opcodeOf r.1).Nodup :=
    opcodeRows_nodup.sublist (List.filter_sublist.map _)
  rwa [hall, List.nodup_replicate] at hnodup

theorem exists_decode_iff_rowsOf_ne_nil {w : Word} : (∃ i, decode w = .ok i) ↔ rowsOf w ≠ [] := by
  constructor
  · rintro ⟨i, hi⟩
    exact List.ne_nil_of_mem (mem_rowsOf.2 ⟨row_mem_opcodeRows i, (decode_eq_ok_iff.1 hi).1⟩)
  · intro hne
    obtain ⟨r, hr⟩ := List.exists_mem_of_ne_nil _ hne
    obtain ⟨hmem, hmatch⟩ := mem_rowsOf.1 hr
    obtain ⟨i, rfl⟩ := exists_instr_of_mem_opcodeRows r hmem
    exact ⟨_, decode_of_matchesRow hmatch⟩

/-- A word whose opcode is that of `i` decodes to nothing unless it matches the row of `i`. -/
theorem not_decode_of_opcode {w : Word} {i : Instr} (hop : opcodeOf w = i.opcode) (h : w &&& i.rowMask ≠ i.rowMatch)
    (j : Instr) : decode w ≠ .ok j := by
  rw [decode_of_opcode hop, ne_eq, withZeros_eq_ok]
  exact fun hj => h (matchesRow_iff.2 ⟨hop, hj.1⟩)

/-- The opcodes of R75 are none of R76's reserved ones. -/
theorem opcode_not_reserved (i : Instr) : 1 ≤ i.opcode.toNat ∧ i.opcode.toNat ≤ 0x15 ∧
    ¬(5 ≤ i.opcode.toNat ∧ i.opcode.toNat ≤ 7) ∧ ¬(0xD ≤ i.opcode.toNat ∧ i.opcode.toNat ≤ 0xF) := by
  cases i <;> (dsimp only [Instr.opcode]; decide)

/-! ## One cycle of a unit with no reset (R71) -/

section
variable {s : State} {p : PortIn} {rest : List PortIn} (hhost : s.host = p :: rest) (hrst : p.rst = false)
include hhost hrst

section
variable (hvalid : p.cmdValid = true) (hrsp : s.rsp = none)
include hvalid hrsp

/-- The cycle in which a command word is issued. -/
theorem portCycle_issued : portCycle s = .issued p.cmdData { s with host := rest } := by
  simp [portCycle, hhost, hrst, hvalid, hrsp, State.rspValid, State.cmdReady]

theorem step_of_decode {i : Instr} (hi : decode p.cmdData = .ok i) : step s = exec i { s with host := rest } := by
  simp only [step, portCycle_issued hhost hrst hvalid hrsp, hi]

/-- A word that spells no command faults `ILLEGAL` on a unit that is not halted (R76, R77, R83). -/
theorem step_of_not_decode (herr : s.err = 0#4) (h : ∀ i, decode p.cmdData ≠ .ok i) :
    step s = .next { s with host := rest, err := 1#4, rsp := some 0x10000000#32 } := by
  cases hd : decode p.cmdData with
  | ok i => exact absurd hd (h i)
  | error e =>
    simp only [step, portCycle_issued hhost hrst hvalid hrsp, hd]
    simp [State.rejectWord, State.isHalted, herr, raise_eq, FaultCode.code]

end

/-- The host takes the waiting response. -/
theorem step_takes {w : Word} (hw : s.rsp = some w) (hready : p.rspReady = true) :
    step s = .next { s with host := rest, rsp := none, taken := s.taken ++ [w] } := by
  simp [step, portCycle, hhost, hrst, hw, hready, State.rspValid, State.takeResponse]

theorem step_waits {w : Word} (hw : s.rsp = some w) (hready : p.rspReady = false) :
    step s = .next { s with host := rest } := by
  simp [step, portCycle, hhost, hrst, hw, hready, State.rspValid, State.cmdReady]

theorem step_idle (hrsp : s.rsp = none) (hvalid : p.cmdValid = false) : step s = .next { s with host := rest } := by
  simp [step, portCycle, hhost, hrst, hrsp, hvalid, State.rspValid, State.cmdReady]

end

/-- Settles O5: the rows that a word matches share its opcode, so there is at most one, and the decoder needs one. -/
theorem everyWordMatchesOneRowOrFaultsIllegal : Obligations.EveryWordMatchesOneRowOrFaultsIllegal := by
  intro w
  have hle : (rowsOf w).length ≤ 1 := rowsOf_length_le_one w
  have hpos : (rowsOf w).length = 1 ↔ rowsOf w ≠ [] := by rw [← List.length_pos_iff]; omega
  refine ⟨hle, exists_decode_iff_rowsOf_ne_nil.trans hpos.symm, fun hnone s p rest hhost hrst hvalid hdata hrsp herr => ?_⟩
  refine step_of_not_decode hhost hrst hvalid hrsp herr fun i hi => ?_
  exact exists_decode_iff_rowsOf_ne_nil.1 ⟨i, hdata ▸ hi⟩ (List.length_eq_zero_iff.1 hnone)

/-- Settles O7: a reserved opcode is no command's. -/
theorem reservedOpcodeFaultsIllegal : Obligations.ReservedOpcodeFaultsIllegal := by
  intro s p rest hhost hrst hvalid hrsp herr hop
  refine step_of_not_decode hhost hrst hvalid hrsp herr fun i hi => ?_
  obtain ⟨hlow, hhigh, hgap, hgap'⟩ := opcode_not_reserved i
  rw [← opcodeOf_of_decode hi, opcodeOf] at hlow hhigh hgap hgap'
  dsimp only at hop
  omega

/-- Settles O8: the opcode leaves only its own row, which the word does not match. -/
theorem mustBeZeroBitFaultsIllegal : Obligations.MustBeZeroBitFaultsIllegal := by
  intro s p rest i hhost hrst hvalid hrsp herr hop hrow
  exact step_of_not_decode hhost hrst hvalid hrsp herr
    (not_decode_of_opcode (hop.trans (opcodeOf_rowMatch i)) hrow)

/-- Settles O9, which is `step_of_decode`. -/
theorem stepRunsTheDecodedCommand : Obligations.StepRunsTheDecodedCommand :=
  fun _ _ _ _ hhost hrst hvalid hrsp hi => step_of_decode hhost hrst hvalid hrsp hi

/-- Settles O10, by whether a response waits. -/
theorem responseIsTakenBeforeTheNextCommand : Obligations.ResponseIsTakenBeforeTheNextCommand := by
  intro s p rest hhost hrst
  refine ⟨fun w hw => ⟨?_, ?_, step_takes hhost hrst hw, step_waits hhost hrst hw⟩,
    fun hnone => ⟨?_, ?_, step_idle hhost hrst hnone⟩, rfl⟩
  · simp [State.cmdReady, hw]
  · simp [State.rspValid, hw, hrst]
  · simp [State.cmdReady, hnone, hrst]
  · simp [State.rspValid, hnone]

/-! ## The response of a command (R71, R78) -/

/-- No command's effect writes `ERR` or moves a list of the host's. -/
theorem Completes.keeps_ports {i : Instr} {s t : State} {d : Data} (h : Completes s i t d) :
    t.err = s.err ∧ t.host = s.host ∧ t.taken = s.taken := by
  cases h with
  | eccpri ht | eccsece _ ht | eccseco _ ht | eccall _ ht | eccchk _ ht =>
    obtain ⟨-, -, herr, -, hhost, htaken⟩ := (passParts_frame ht).1
    exact ⟨herr, hhost, htaken⟩
  | _ => exact ⟨rfl, rfl, rfl⟩

theorem exec_next (i : Instr) (s : State) : ∃ t, exec i s = .next t := by
  by_cases hi : i = .stat
  · exact ⟨_, hi ▸ exec_stat s⟩
  · obtain ⟨body, hbody⟩ := exec_eq_command hi
    exact hbody s ▸ command_next s (body s)

/-- Settles O11: each of the three outcomes of a command presents a response and keeps the host's lists. -/
theorem everyCommandAnswersOneResponse : Obligations.EveryCommandAnswersOneResponse := by
  intro i s
  obtain ⟨u, hu⟩ := exec_next i s
  cases exec_effect hu with
  | completed ht =>
    obtain ⟨-, hhost, htaken⟩ := ht.keeps_ports
    exact ⟨_, _, hu, rfl, hhost, htaken⟩
  | faulted | halted => exact ⟨_, _, hu, rfl, rfl, rfl⟩

/-- A halted unit answers `HALTED` to every command but `STAT` (60_exceptions.md R204). -/
theorem exec_halted {i : Instr} {s : State} (hi : i ≠ .stat) (herr : s.err ≠ 0#4) :
    exec i s = .next s.answerHalted := by
  obtain ⟨body, hbody⟩ := exec_eq_command hi
  rw [hbody, command_halted herr]

/-- The fault code and the `DATA` of the response to a command: `c` is what `FAULT` must be. -/
structure Responds (i : Instr) (s t : State) (c : BitVec 4) (d : Data) : Prop where
  rsp : t.rsp = some (responseWord c d)
  data : c ≠ 0#4 → d = 0#16
  running : s.err = 0#4 → c = t.err
  halted : s.err ≠ 0#4 → c = if i = .stat then 0#4 else 9#4

/-- Every command presents a response word of R78's form. -/
theorem exec_responds {i : Instr} {s t : State} (h : exec i s = .next t) : ∃ c d, Responds i s t c d := by
  by_cases herr : s.err = 0#4
  · cases exec_effect h with
    | completed ht =>
      exact ⟨0#4, _, rfl, fun hc => absurd rfl hc, fun _ => (ht.keeps_ports.1.trans herr).symm, fun hs => absurd herr hs⟩
    | faulted f => exact ⟨f.code, 0#16, rfl, fun _ => rfl, fun _ => rfl, fun hs => absurd herr hs⟩
    | halted hs => exact absurd herr hs
  · by_cases hi : i = .stat
    · subst hi
      cases h
      exact ⟨0#4, _, rfl, fun hc => absurd rfl hc, fun hs => absurd hs herr, fun _ => rfl⟩
    · rw [exec_halted hi herr] at h
      cases h
      exact ⟨9#4, 0#16, rfl, fun _ => rfl, fun hs => absurd hs herr, fun _ => (if_neg hi).symm⟩

/-- Settles O12: the fields of the response word of `exec_responds`. -/
theorem responseWordHasItsForm : Obligations.ResponseWordHasItsForm := by
  intro i s t w h hw
  obtain ⟨c, d, hrsp, hdata, hrunning, hhalted⟩ := exec_responds h
  obtain rfl : responseWord c d = w := Option.some.inj (hrsp.symm.trans hw)
  rw [responseWord_zeros, responseWord_fault, responseWord_data]
  exact ⟨rfl, hdata, hrunning, hhalted⟩

/-! ## Operand values that are illegal by themselves (R74) -/

theorem slotIndex_of_illegal {sel : BitVec 2} (h : slotLegal sel = false) : slotIndex sel = none := by
  simpa [slotLegal, slotIndex] using h

/-- Settles O21: the check of the operand comes before every other check that could fault with another code. -/
theorem illegalOperandValueFaults : Obligations.IllegalOperandValueFaults := by
  intro i s herr hi
  cases i with
  | rsnew sel nsym root poly =>
    refine command_faultsWith herr ?_
    rcases Bool.and_eq_false_iff.1 hi with hsel | hcount
    · rw [slotIndex_of_illegal hsel]
    · cases slotIndex sel <;> simp [hcount]
  | rsenc sel len base stride =>
    refine command_faultsWith herr ?_
    rcases Bool.and_eq_false_iff.1 hi with hsel | hstride
    · rw [slotIndex_of_illegal hsel]
    · cases slotIndex sel <;> simp [hstride]
  | tblld sel t idx =>
    refine command_faultsWith herr ?_
    rcases Bool.and_eq_false_iff.1 hi with hsel | htable
    · rw [slotIndex_of_illegal hsel]
    · cases slotIndex sel <;> simp [htable]
  | rsput base stride | rscmp base stride =>
    have hzero : stride = 0#4 := by simpa [Instr.wellFormed, strideLegal] using hi
    exact command_faultsWith herr (by simp [resultRun, hzero])
  | eccsece mode | eccseco mode | eccall mode | eccchk mode =>
    have hmode : modeLegal mode = false := hi
    exact command_faultsWith herr (by simp [hmode])
  | cwst addr val | cwld addr =>
    have haddr : 143 < addr.toNat := by simpa [Instr.wellFormed, addrLegal] using hi
    exact command_faultsWith herr (by simp [memWrite, memRead, haddr])
  | eccpri | resld | stat | cwclr => cases hi

/-- Settles O6: six words are `encode` of a command, which decodes to it, and the decoder rejects the other two. -/
theorem decodeSampleWords : Obligations.DecodeSampleWords :=
  ⟨decodeReadsBackEveryEncodedCommand (.rsnew 0#2 10#5 1#6 0x43#8),
    decodeReadsBackEveryEncodedCommand (.rsenc 2#2 34#8 20#8 2#4),
    decodeReadsBackEveryEncodedCommand (.rsput 88#8 2#4), decodeReadsBackEveryEncodedCommand (.eccall 4#3),
    decodeReadsBackEveryEncodedCommand (.cwst 20#8 33#6), decodeReadsBackEveryEncodedCommand (.tblld 2#2 2#2 28#8),
    rfl, rfl⟩

end Sys2Proof.Machine

/-! Exclusive-or-linear maps of bit vectors, among them multiplication by alpha and the reduction of a carry-less
product: they are fixed by what they do to single bits. -/

namespace Sys2Proof.Machine

/-- A map that distributes over `^`, the addition of the field (40_field_and_construction.md R101). -/
def XorLinear {m n : Nat} (f : BitVec m → BitVec n) : Prop := ∀ a b, f (a ^^^ b) = f a ^^^ f b

/-- A symbol is the sum of its bits. -/
theorem sym_eq_sum_bits (a : Sym) :
    a = (List.range 6).foldl (fun acc i => acc ^^^ if a.getLsbD i then 1#6 <<< i else 0#6) 0#6 := by
  revert a; decide

namespace XorLinear

theorem map_zero {m n : Nat} {f : BitVec m → BitVec n} (hf : XorLinear f) : f 0#m = 0#n := by
  have hsum : f (0#m ^^^ 0#m) = f 0#m ^^^ f 0#m := hf _ _
  rwa [BitVec.xor_self, BitVec.xor_self] at hsum

theorem comp {l m n : Nat} {g : BitVec m → BitVec n} {f : BitVec l → BitVec m} (hg : XorLinear g)
    (hf : XorLinear f) : XorLinear (g ∘ f) := fun a b => by
  simp only [Function.comp_apply, hf a b, hg (f a) (f b)]

theorem iterate {n : Nat} {f : BitVec n → BitVec n} (hf : XorLinear f) (k : Nat) : XorLinear f^[k] := by
  induction k with
  | zero => exact fun _ _ => rfl
  | succ k ih => exact ih.comp hf

theorem setWidth (m n : Nat) : XorLinear (BitVec.setWidth n : BitVec m → BitVec n) := fun _ _ => BitVec.setWidth_xor

theorem shiftLeft (n i : Nat) : XorLinear fun a : BitVec n => a <<< i := fun a b => BitVec.shiftLeft_xor_distrib a b i

/-- The step of a reduction: a fixed `q` is added when a bit is set. -/
theorem xorIf {n : Nat} (k : Nat) (q : BitVec n) : XorLinear fun a => if a.getLsbD k then a ^^^ q else a := by
  intro a b
  simp only [BitVec.getLsbD_xor]
  cases a.getLsbD k <;> cases b.getLsbD k
  · simp
  · simp [BitVec.xor_assoc]
  · simp only [Bool.bne_false, if_true, if_false, Bool.false_eq_true]
    ac_rfl
  · have hcancel : (a ^^^ q) ^^^ (b ^^^ q) = (a ^^^ b) ^^^ (q ^^^ q) := by ac_rfl
    simp [hcancel]

theorem foldl {n : Nat} {step : BitVec n → Nat → BitVec n} (hstep : ∀ i, XorLinear (step · i)) (is : List Nat) :
    XorLinear fun a => is.foldl step a := by
  induction is with
  | nil => exact fun _ _ => rfl
  | cons i is ih => exact ih.comp (hstep i)

theorem xor {m n : Nat} {f g : BitVec m → BitVec n} (hf : XorLinear f) (hg : XorLinear g) :
    XorLinear fun a => f a ^^^ g a := fun a b => by
  simp only [hf a b, hg a b]
  ac_rfl

theorem sum {m n : Nat} {f : Nat → BitVec m → BitVec n} (hf : ∀ i, XorLinear (f i)) (is : List Nat) :
    XorLinear fun a => is.foldl (fun acc i => acc ^^^ f i a) 0#n := by
  induction is using List.reverseRecOn with
  | nil => exact fun _ _ => (BitVec.xor_self).symm
  | append_singleton is i ih =>
    simp only [List.foldl_append, List.foldl_cons, List.foldl_nil]
    exact ih.xor (hf i)

/-- Two linear maps of symbols are equal if they agree on the single bits. -/
theorem eq_of_bits {n : Nat} {f g : Sym → BitVec n} (hf : XorLinear f) (hg : XorLinear g)
    (h : ∀ i < 6, f (1#6 <<< i) = g (1#6 <<< i)) (a : Sym) : f a = g a := by
  rw [sym_eq_sum_bits a]
  refine List.foldlRecOn (motive := fun acc => f acc = g acc) _ _ (hf.map_zero.trans hg.map_zero.symm) ?_
  intro acc hacc i hi
  have hbit : f (if a.getLsbD i then 1#6 <<< i else 0#6) = g (if a.getLsbD i then 1#6 <<< i else 0#6) := by
    split
    · exact h i (List.mem_range.1 hi)
    · exact hf.map_zero.trans hg.map_zero.symm
  rw [hf, hg, hacc, hbit]

end XorLinear

/-! ## Multiplication by alpha, and the powers of alpha -/

section
variable (poly : BitVec 8)

/-- Multiplication by alpha, whole: shift, and add the polynomial if bit 6 comes out (R104, R106). -/
theorem timesAlpha_eq (a : Sym) :
    timesAlpha poly a =
      ((if (a ++ 0#1).getLsbD 6 then (a ++ 0#1) ^^^ poly.setWidth 7 else a ++ 0#1) : BitVec 7).setWidth 6 :=
  (apply_ite (BitVec.setWidth 6) ..).symm

theorem timesAlpha_xorLinear : XorLinear (timesAlpha poly) := by
  have happend : XorLinear fun a : Sym => a ++ 0#1 := fun a b => by
    simp only [BitVec.xor_append, BitVec.xor_self]
  have hlinear := (XorLinear.setWidth 7 6).comp ((XorLinear.xorIf 6 (poly.setWidth 7)).comp happend)
  intro a b
  simp only [timesAlpha_eq]
  exact hlinear a b

/-- `alpha^e`, as R104's loop computes it. -/
def alphaPow (e : Nat) : Sym := (timesAlpha poly)^[e] 1#6

theorem alphaPow_zero : alphaPow poly 0 = 1#6 := rfl

theorem alphaPow_succ (e : Nat) : alphaPow poly (e + 1) = timesAlpha poly (alphaPow poly e) :=
  Function.iterate_succ_apply' ..

theorem alphaPow_add (m n : Nat) : alphaPow poly (m + n) = (timesAlpha poly)^[m] (alphaPow poly n) :=
  Function.iterate_add_apply ..

/-- A single bit below the top moves up one place. -/
theorem timesAlpha_bit {i : Nat} (hi : i < 5) : timesAlpha poly (1#6 <<< i) = 1#6 <<< (i + 1) := by
  interval_cases i <;> rfl

/-- Below the degree the powers of alpha are the single bits. -/
theorem alphaPow_of_lt_six {i : Nat} (hi : i < 6) : alphaPow poly i = 1#6 <<< i := by
  induction i with
  | zero => rfl
  | succ i ih => rw [alphaPow_succ, ih (by omega), timesAlpha_bit poly (by omega)]

end

/-! ## What the table loop leaves -/

/-- After `v` steps of R104 the tables hold the first `v` powers of alpha and their exponents, all of them non-zero,
and `LOG` has no entry for 0. -/
structure Tables.HoldsPowers (t : Tables) (poly : BitVec 8) (v : Nat) : Prop where
  ne_zero : ∀ e < v, alphaPow poly e ≠ 0#6
  alog : ∀ e, e < v → ∀ h : e < 63, t.alog[e] = alphaPow poly e
  log : ∀ e < v, t.log[symIndex (alphaPow poly e)] = some (BitVec.ofNat 6 e)
  log_zero : t.log[symIndex 0#6] = none

/-- What construction leaves: all 63 powers of alpha, after which they start again (R104, R105). -/
structure Tables.PowersOf (t : Tables) (poly : BitVec 8) : Prop extends t.HoldsPowers poly 63 where
  period : alphaPow poly 63 = 1#6

section
variable {poly : BitVec 8} {t u : Tables}

/-- An entry of `LOG` leaves the entries of all other symbols alone. -/
theorem log_set_ne {a b : Sym} (log : Vector (Option Sym) 64) (x : Option Sym) (hab : a ≠ b) :
    (log.set (symIndex a) x)[symIndex b] = log[symIndex b] :=
  Vector.getElem_set_ne (symIndex a).isLt (symIndex b).isLt (mt BitVec.toNat_inj.1 hab)

/-- One step of the loop. -/
theorem Tables.HoldsPowers.succ {v : Nat} (h : t.HoldsPowers poly v) (hne : alphaPow poly v ≠ 0#6)
    (hnew : t.log[symIndex (alphaPow poly v)] = none) :
    Tables.HoldsPowers
      { log := t.log.set (symIndex (alphaPow poly v)) (some (BitVec.ofNat 6 v)),
        alog := t.alog.setIfInBounds v (alphaPow poly v) } poly (v + 1) where
  ne_zero e he := by
    rcases Nat.lt_succ_iff_lt_or_eq.1 he with he | rfl
    · exact h.ne_zero e he
    · exact hne
  alog e he h63 := by
    rcases Nat.lt_succ_iff_lt_or_eq.1 he with he | rfl
    · exact (Vector.getElem_setIfInBounds_ne h63 he.ne').trans (h.alog e he h63)
    · exact Vector.getElem_setIfInBounds_self h63
  log e he := by
    rcases Nat.lt_succ_iff_lt_or_eq.1 he with he | rfl
    · have hdistinct : alphaPow poly v ≠ alphaPow poly e := fun heq => by
        simp only [heq, h.log e he, reduceCtorEq] at hnew
      exact (log_set_ne _ _ hdistinct).trans (h.log e he)
    · exact Vector.getElem_set_self _
  log_zero := (log_set_ne _ _ hne).trans h.log_zero

/-- The loop of R104 that has come to exponent `v` and succeeds. -/
theorem tableLoop_powersOf {n v : Nat} (hv : v + n = 63) (h : t.HoldsPowers poly v)
    (hu : tableLoop poly n v (alphaPow poly v) t = some u) : u.PowersOf poly := by
  induction n generalizing v t with
  | zero =>
    obtain rfl : v = 63 := hv
    rw [tableLoop] at hu
    split_ifs at hu with hone
    cases hu
    exact ⟨h, hone⟩
  | succ n ih =>
    rw [tableLoop] at hu
    split_ifs at hu with hnew
    rw [← alphaPow_succ] at hu
    exact ih (by omega) (h.succ hnew.1 hnew.2) hu

/-- The tables that construction builds hold the powers of alpha. -/
theorem buildTables_powersOf (h : buildTables poly = some t) : t.PowersOf poly := by
  unfold buildTables at h
  split_ifs at h with hdegree
  refine tableLoop_powersOf (v := 0) rfl ⟨nofun, nofun, nofun, ?_⟩ h
  exact Vector.getElem_replicate _

end

end Sys2Proof.Machine

/-! The laws of the field of an encoder (40_field_and_construction.md R102, R103, R106), for tables that hold the
powers of alpha: a non-zero factor `alpha^e` multiplies as `e` multiplications by alpha do, which are linear. -/

namespace Sys2Proof.Machine

/-! ## Products that need no table -/

section
variable (t : Tables)

theorem zero_gfmul (a : Sym) : t.gfmul 0#6 a = 0#6 := by simp [Tables.gfmul]

theorem gfmul_zero (a : Sym) : t.gfmul a 0#6 = 0#6 := by simp [Tables.gfmul]

theorem gfmul_comm (a b : Sym) : t.gfmul a b = t.gfmul b a := by
  simp only [Tables.gfmul, or_comm, Nat.add_comm]

end

namespace Tables.PowersOf
variable {t : Tables} {poly : BitVec 8} (h : t.PowersOf poly)
include h

/-! ## The two tables are inverse to each other -/

theorem alphaPow_mod (e : Nat) : alphaPow poly (e % 63) = alphaPow poly e :=
  Function.Periodic.map_mod_nat (fun e => by rw [alphaPow_add, h.period]; rfl) e

theorem alogMod_eq (e : Nat) : t.alogMod e = alphaPow poly e := by
  have hlt : e % 63 < 63 := Nat.mod_lt e (by decide)
  rw [Tables.alogMod, h.alog _ hlt hlt, h.alphaPow_mod]

theorem alphaPow_ne_zero (e : Nat) : alphaPow poly e ≠ 0#6 :=
  h.alphaPow_mod e ▸ h.ne_zero _ (Nat.mod_lt e (by decide))

theorem logNat_alphaPow {e : Nat} (he : e < 63) : t.logNat (alphaPow poly e) = e := by
  rw [Tables.logNat, h.log e he]
  exact Nat.mod_eq_of_lt (by omega)

/-- The 63 powers are distinct, because `LOG` tells them apart. -/
theorem alphaPow_injOn {d e : Nat} (hd : d < 63) (he : e < 63) (heq : alphaPow poly d = alphaPow poly e) : d = e := by
  rw [← h.logNat_alphaPow hd, heq, h.logNat_alphaPow he]

/-- Every non-zero symbol is a power of alpha: there are as many of the one as of the other. -/
theorem exists_alphaPow {a : Sym} (ha : a ≠ 0#6) : ∃ e < 63, alphaPow poly e = a := by
  obtain ⟨e, he, heq⟩ := Finset.surj_on_of_inj_on_of_card_le (s := Finset.range 63) (t := Finset.univ.erase 0#6)
    (fun e _ => alphaPow poly e) (fun e _ => by simpa using h.alphaPow_ne_zero e)
    (fun d e hd he => h.alphaPow_injOn (Finset.mem_range.1 hd) (Finset.mem_range.1 he)) (by decide) a
    (by simpa using ha)
  exact ⟨e, Finset.mem_range.1 he, heq.symm⟩

/-- `LOG` of a non-zero symbol. -/
theorem exists_log {a : Sym} (ha : a ≠ 0#6) :
    ∃ e : Sym, t.log[symIndex a] = some e ∧ e.toNat < 63 ∧ alphaPow poly e.toNat = a := by
  obtain ⟨e, he, rfl⟩ := h.exists_alphaPow ha
  have heq : (BitVec.ofNat 6 e).toNat = e := Nat.mod_eq_of_lt (by omega)
  exact ⟨BitVec.ofNat 6 e, h.log e he, by rw [heq]; exact he, by rw [heq]⟩

/-! ## The product -/

theorem gfmul_alphaPow_alphaPow (m n : Nat) :
    t.gfmul (alphaPow poly m) (alphaPow poly n) = alphaPow poly (m + n) := by
  have hlt (e : Nat) : e % 63 < 63 := Nat.mod_lt e (by decide)
  have hlog (e : Nat) : t.logNat (alphaPow poly e) = e % 63 := by
    rw [← h.alphaPow_mod, h.logNat_alphaPow (hlt e)]
  rw [Tables.gfmul, if_neg (not_or_intro (h.alphaPow_ne_zero m) (h.alphaPow_ne_zero n)), hlog, hlog, h.alogMod_eq,
    ← h.alphaPow_mod, ← Nat.add_mod, h.alphaPow_mod]

/-- Multiplying by `alpha^e` is multiplying `e` times by alpha. -/
theorem alphaPow_gfmul (e : Nat) (a : Sym) : t.gfmul (alphaPow poly e) a = (timesAlpha poly)^[e] a := by
  by_cases ha : a = 0#6
  · rw [ha, gfmul_zero, ((timesAlpha_xorLinear poly).iterate e).map_zero]
  · obtain ⟨f, -, rfl⟩ := h.exists_alphaPow ha
    rw [h.gfmul_alphaPow_alphaPow, alphaPow_add]

/-- R109's scaling by `alpha^e`, as a product. -/
theorem scale_eq (e : Nat) (a : Sym) : t.scale e a = t.gfmul (alphaPow poly e) a := by
  by_cases ha : a = 0#6
  · rw [ha, gfmul_zero, Tables.scale, if_pos rfl]
  · obtain ⟨f, hf, rfl⟩ := h.exists_alphaPow ha
    rw [Tables.scale, if_neg ha, h.logNat_alphaPow hf, h.alogMod_eq, Nat.add_comm, h.gfmul_alphaPow_alphaPow]

theorem gfmul_xorLinear (a : Sym) : XorLinear (t.gfmul a) := by
  by_cases ha : a = 0#6
  · intro b c
    rw [ha, zero_gfmul, zero_gfmul, zero_gfmul, BitVec.xor_self]
  · obtain ⟨e, -, rfl⟩ := h.exists_alphaPow ha
    rw [funext (h.alphaPow_gfmul e)]
    exact (timesAlpha_xorLinear poly).iterate e

theorem gfmul_xor (a b c : Sym) : t.gfmul a (b ^^^ c) = t.gfmul a b ^^^ t.gfmul a c := h.gfmul_xorLinear a b c

theorem xor_gfmul (a b c : Sym) : t.gfmul (a ^^^ b) c = t.gfmul a c ^^^ t.gfmul b c := by
  simp only [gfmul_comm t _ c, h.gfmul_xor]

theorem gfmul_assoc (a b c : Sym) : t.gfmul (t.gfmul a b) c = t.gfmul a (t.gfmul b c) := by
  by_cases ha : a = 0#6
  · simp only [ha, zero_gfmul]
  by_cases hb : b = 0#6
  · simp only [hb, zero_gfmul, gfmul_zero]
  obtain ⟨m, -, rfl⟩ := h.exists_alphaPow ha
  obtain ⟨n, -, rfl⟩ := h.exists_alphaPow hb
  rw [h.gfmul_alphaPow_alphaPow]
  simp only [h.alphaPow_gfmul, Function.iterate_add_apply]

theorem gfmul_right_comm (a b c : Sym) : t.gfmul (t.gfmul a b) c = t.gfmul (t.gfmul a c) b := by
  rw [h.gfmul_assoc, gfmul_comm t b, ← h.gfmul_assoc]

theorem one_gfmul (a : Sym) : t.gfmul 1#6 a = a := h.alphaPow_gfmul 0 a

theorem gfmul_one (a : Sym) : t.gfmul a 1#6 = a := by rw [gfmul_comm, h.one_gfmul]

/-- There are no zero divisors. -/
theorem gfmul_ne_zero {a b : Sym} (ha : a ≠ 0#6) (hb : b ≠ 0#6) : t.gfmul a b ≠ 0#6 := by
  obtain ⟨m, -, rfl⟩ := h.exists_alphaPow ha
  obtain ⟨n, -, rfl⟩ := h.exists_alphaPow hb
  exact h.gfmul_alphaPow_alphaPow m n ▸ h.alphaPow_ne_zero _

/-- Multiplying by 2, which is alpha. -/
theorem gfmul_two (a : Sym) : t.gfmul a 2#6 = timesAlpha poly a := by
  rw [gfmul_comm]
  exact h.alphaPow_gfmul 1 a

/-- The inverse of a non-zero symbol (R106). -/
theorem gfmul_inverse {a : Sym} (ha : a ≠ 0#6) : t.gfmul a (t.alogMod (63 - t.logNat a)) = 1#6 := by
  obtain ⟨e, he, rfl⟩ := h.exists_alphaPow ha
  rw [h.logNat_alphaPow he, h.alogMod_eq, h.gfmul_alphaPow_alphaPow, Nat.add_sub_cancel' he.le, h.period]

end Tables.PowersOf

/-! ## The carry-less product, reduced -/

/-- What bit `i` of `b` adds to the carry-less product of `a` and `b`. -/
def partialProduct (a : Sym) (i : Nat) (b : Sym) : BitVec 12 := if b.getLsbD i then a.setWidth 12 <<< i else 0#12

theorem partialProduct_xorLinear (a : Sym) (i : Nat) : XorLinear (partialProduct a i) := by
  intro b c
  simp only [partialProduct, BitVec.getLsbD_xor]
  cases b.getLsbD i <;> cases c.getLsbD i <;> simp

theorem carrylessProduct_eq_sum (a b : Sym) :
    carrylessProduct a b = (List.range 6).foldl (fun acc i => acc ^^^ partialProduct a i b) 0#12 := by
  refine congrArg (fun step => (List.range 6).foldl step 0#12) (funext₂ fun acc i => ?_)
  unfold partialProduct
  split
  · rfl
  · exact (BitVec.xor_zero).symm

theorem carrylessProduct_xorLinear (a : Sym) : XorLinear (carrylessProduct a) := by
  rw [funext (carrylessProduct_eq_sum a)]
  exact XorLinear.sum (partialProduct_xorLinear a) _

/-- A single bit shifts the other factor. -/
theorem carrylessProduct_bit (a : Sym) {i : Nat} (hi : i < 6) :
    carrylessProduct a (1#6 <<< i) = a.setWidth 12 <<< i := by
  revert a
  interval_cases i <;> decide

theorem reduceBy_xorLinear (poly : BitVec 7) : XorLinear (reduceBy poly) :=
  (XorLinear.setWidth 12 6).comp (XorLinear.foldl (fun i => XorLinear.xorIf (11 - i) (poly.setWidth 12 <<< (5 - i))) _)

/-- R100: reducing the product of two single bits by a polynomial of degree 6 is multiplying by alpha. -/
theorem reduceBy_bit : ∀ poly : BitVec 8, poly.extractLsb' 6 2 = 1#2 → ∀ i < 6, ∀ k < 6,
    reduceBy (poly.setWidth 7) ((1#6 <<< k).setWidth 12 <<< i) = (timesAlpha poly)^[i] (1#6 <<< k) := by
  decide +kernel

/-- Reducing a shifted symbol is multiplying it by alpha. -/
theorem reduceBy_shiftLeft {poly : BitVec 8} (hdegree : poly.extractLsb' 6 2 = 1#2) {i : Nat} (hi : i < 6) (a : Sym) :
    reduceBy (poly.setWidth 7) (a.setWidth 12 <<< i) = (timesAlpha poly)^[i] a :=
  XorLinear.eq_of_bits
    ((reduceBy_xorLinear _).comp ((XorLinear.shiftLeft 12 i).comp (XorLinear.setWidth 6 12)))
    ((timesAlpha_xorLinear poly).iterate i) (reduceBy_bit poly hdegree i hi) a

/-- The product by tables is the product of polynomials modulo `POLY` (R103, R106): both are linear in `b`, and a single
bit of `b` is a power of alpha. -/
theorem Tables.PowersOf.gfmul_eq_reduceBy {t : Tables} {poly : BitVec 8} (h : t.PowersOf poly)
    (hdegree : poly.extractLsb' 6 2 = 1#2) (a b : Sym) :
    t.gfmul a b = reduceBy (poly.setWidth 7) (carrylessProduct a b) := by
  refine XorLinear.eq_of_bits (h.gfmul_xorLinear a)
    ((reduceBy_xorLinear _).comp (carrylessProduct_xorLinear a)) (fun i hi => ?_) b
  calc t.gfmul a (1#6 <<< i) = (timesAlpha poly)^[i] a := by
        rw [← alphaPow_of_lt_six poly hi, gfmul_comm, h.alphaPow_gfmul]
    _ = reduceBy (poly.setWidth 7) (carrylessProduct a (1#6 <<< i)) := by
        rw [carrylessProduct_bit a hi, reduceBy_shiftLeft hdegree hi]

/-! ## Sound encoders -/

section
variable {I : Encoder} (h : I.sound = true)
include h

theorem sound_buildTables : buildTables (I.poly.setWidth 8) = some I.toTables :=
  (construct_eq_some.1 (sound_iff.1 h).2).1

theorem sound_powersOf : I.toTables.PowersOf (I.poly.setWidth 8) := buildTables_powersOf (sound_buildTables h)

theorem sound_gfmul_eq_reduceBy (a b : Sym) : I.gfmul a b = reduceBy I.poly (carrylessProduct a b) := by
  rw [(sound_powersOf h).gfmul_eq_reduceBy (buildTables_degree (sound_buildTables h)),
    BitVec.setWidth_setWidth_of_le _ (by decide), BitVec.setWidth_eq]

end

/-- Settles O28: the laws of tables that hold the powers of alpha, at the encoder's own polynomial. -/
theorem instanceLaws : Obligations.InstanceLaws := by
  intro I hI
  have h := sound_powersOf hI
  refine ⟨fun a ha => ?_, fun e he => ?_, h.alogMod_eq 0, h.alogMod_eq 1, h.log 0 (by decide), h.log 1 (by decide),
    fun e => ?_, h.gfmul_two, gfmul_comm _, h.gfmul_assoc, h.gfmul_xor, h.gfmul_one, fun a ha => h.gfmul_inverse ha,
    sound_gfmul_eq_reduceBy hI⟩
  · obtain ⟨e, hlog, he, hpow⟩ := h.exists_log ha
    exact ⟨e, hlog, he, (h.alogMod_eq _).trans hpow⟩
  · simp only [h.alogMod_eq]
    exact ⟨h.alphaPow_ne_zero e, h.log e he⟩
  · rw [h.alogMod_eq, h.alogMod_eq, h.gfmul_two, alphaPow_succ]

end Sys2Proof.Machine

/-! The generator polynomial (40_field_and_construction.md R108, R109): each step of the loop multiplies in one root. -/

namespace Sys2Proof.Machine

/-- A polynomial, coefficient of `x^0` first, evaluated at a field element. -/
def Tables.evalAt (t : Tables) (g : List Sym) (x : Sym) : Sym := g.foldr (fun c acc => t.gfmul acc x ^^^ c) 0#6

theorem evalAt_cons (t : Tables) (c : Sym) (g : List Sym) (x : Sym) :
    t.evalAt (c :: g) x = t.gfmul (t.evalAt g x) x ^^^ c := rfl

/-- A block is its polynomial in falling powers (R114). -/
theorem blockAt_reverse (I : Encoder) (g : List Sym) (x : Sym) : I.blockAt g.reverse x = I.evalAt g x :=
  List.foldl_reverse

/-! ## The first and the last coefficient -/

/-- The value at 0 is the first coefficient. -/
theorem getElem?_zero_of_evalAt {t : Tables} {g : List Sym} (hg : t.evalAt g 0#6 ≠ 0#6) : g[0]? ≠ some 0#6 := by
  cases g with
  | nil => nofun
  | cons c g =>
    rw [evalAt_cons, gfmul_zero, BitVec.zero_xor] at hg
    simpa using hg


theorem genStep_getLast? (t : Tables) (idx : Nat) (g : List Sym) : (genStep t idx g).getLast? = some 1#6 :=
  List.getLast?_concat

theorem genLoop_getLast? (t : Tables) (n : Nat) {idx : Nat} {g : List Sym} (hg : g.getLast? = some 1#6) :
    (genLoop t n idx g).getLast? = some 1#6 := by
  induction n generalizing idx g with
  | zero => exact hg
  | succ n ih => exact ih (genStep_getLast? t idx g)

theorem generator_getElem?_last (t : Tables) (nsym root : Nat) : (generator t nsym root)[nsym]? = some 1#6 := by
  have hlast : (generator t nsym root).getLast? = some 1#6 := genLoop_getLast? t nsym rfl
  rwa [List.getLast?_eq_getElem?, generator_length] at hlast

namespace Tables.PowersOf
variable {t : Tables} {poly : BitVec 8} (h : t.PowersOf poly)
include h

/-! ## One step multiplies in one factor -/

/-- R109's inner loop, with `c` for the coefficient shifted in at the bottom. -/
theorem evalAt_scaleAndShift {g : List Sym} {c : Sym} (hlast : (c :: g).getLast? = some 1#6) (idx : Nat) (x : Sym) :
    t.evalAt (List.zipWith (· ^^^ ·) (g.map (t.scale idx)) (c :: g) ++ [1#6]) x =
      t.gfmul (t.evalAt g x) (alphaPow poly idx ^^^ x) ^^^ c := by
  induction g generalizing c with
  | nil =>
    obtain rfl : c = 1#6 := Option.some.inj hlast
    show t.gfmul 0#6 x ^^^ 1#6 = t.gfmul 0#6 (alphaPow poly idx ^^^ x) ^^^ 1#6
    rw [zero_gfmul, zero_gfmul]
  | cons a g ih =>
    have hrest := ih (c := a) (by rwa [List.getLast?_cons_cons] at hlast)
    have hfactor : t.gfmul a (alphaPow poly idx ^^^ x) = t.scale idx a ^^^ t.gfmul a x := by
      rw [h.gfmul_xor, h.scale_eq, gfmul_comm]
    simp only [List.map_cons, List.zipWith_cons_cons, List.cons_append, evalAt_cons, hrest, h.xor_gfmul, hfactor]
    rw [h.gfmul_right_comm _ _ x]
    ac_rfl

/-- R109: one step multiplies in the factor `x + alpha^idx`. -/
theorem evalAt_genStep {g : List Sym} (hg : g.getLast? = some 1#6) (idx : Nat) (x : Sym) :
    t.evalAt (genStep t idx g) x = t.gfmul (t.evalAt g x) (alphaPow poly idx ^^^ x) := by
  have hlast : (0#6 :: g).getLast? = some 1#6 := by rw [List.getLast?_cons, hg, Option.getD_some]
  rw [genStep, h.evalAt_scaleAndShift hlast, BitVec.xor_zero]

/-! ## The roots of the loop's result -/

/-- A root stays a root. -/
theorem evalAt_genLoop_of_root {n idx : Nat} {g : List Sym} {x : Sym} (hg : g.getLast? = some 1#6)
    (hx : t.evalAt g x = 0#6) : t.evalAt (genLoop t n idx g) x = 0#6 := by
  induction n generalizing idx g with
  | zero => exact hx
  | succ n ih => exact ih (genStep_getLast? t idx g) (by rw [h.evalAt_genStep hg, hx, zero_gfmul])

/-- Each factor that the loop multiplies in brings its root. -/
theorem evalAt_genLoop {n j : Nat} (hj : j < n) {idx : Nat} {g : List Sym} (hg : g.getLast? = some 1#6) :
    t.evalAt (genLoop t n idx g) (alphaPow poly (idx + j)) = 0#6 := by
  induction n generalizing idx g j with
  | zero => exact absurd hj j.not_lt_zero
  | succ n ih =>
    have hstep := genStep_getLast? t idx g
    cases j with
    | zero =>
      rw [genLoop]
      refine h.evalAt_genLoop_of_root hstep ?_
      rw [h.evalAt_genStep hg, Nat.add_zero, BitVec.xor_self, gfmul_zero]
    | succ j =>
      rw [genLoop, show idx + (j + 1) = idx + 1 + j by omega]
      exact ih (Nat.lt_of_succ_lt_succ hj) hstep

theorem evalAt_generator {nsym j : Nat} (hj : j < nsym) (root : Nat) :
    t.evalAt (generator t nsym root) (alphaPow poly (root + j)) = 0#6 := h.evalAt_genLoop hj rfl

/-! ## The first coefficient of the loop's result -/

/-- No factor of R108 is 0 at 0. -/
theorem evalAt_genLoop_zero_ne {n idx : Nat} {g : List Sym} (hg : g.getLast? = some 1#6)
    (hne : t.evalAt g 0#6 ≠ 0#6) : t.evalAt (genLoop t n idx g) 0#6 ≠ 0#6 := by
  induction n generalizing idx g with
  | zero => exact hne
  | succ n ih =>
    refine ih (genStep_getLast? t idx g) ?_
    rw [h.evalAt_genStep hg, BitVec.xor_zero]
    exact h.gfmul_ne_zero hne (h.alphaPow_ne_zero idx)

theorem generator_getElem?_zero (nsym root : Nat) : (generator t nsym root)[0]? ≠ some 0#6 := by
  have hone : t.evalAt [1#6] 0#6 ≠ 0#6 := by
    rw [evalAt_cons, gfmul_zero]
    decide
  exact getElem?_zero_of_evalAt (h.evalAt_genLoop_zero_ne rfl hone)

end Tables.PowersOf

/-! ## The generator of a sound encoder -/

section
variable {I : Encoder} (h : I.sound = true)
include h

theorem sound_gen : I.gen = generator I.toTables I.nsym.toNat I.root.toNat := by
  obtain ⟨-, -, -, -, -, hgen⟩ := construct_eq_some.1 (sound_iff.1 h).2
  exact hgen

theorem sound_gen_last : I.gen[I.nsym.toNat]? = some 1#6 := by
  rw [sound_gen h]
  exact generator_getElem?_last ..

theorem sound_gen_first : I.gen[0]? ≠ some 0#6 := by
  rw [sound_gen h]
  exact (sound_powersOf h).generator_getElem?_zero _ _

/-- R108: the roots are `NSYM` consecutive powers of alpha from `alpha^ROOT`. -/
theorem sound_gen_root {j : Nat} (hj : j < I.nsym.toNat) : I.evalAt I.gen (I.alogMod (I.root.toNat + j)) = 0#6 := by
  rw [(sound_powersOf h).alogMod_eq, sound_gen h]
  exact (sound_powersOf h).evalAt_generator hj _

end

/-- Settles O29: R109's loop multiplies in one root at a time, and a block in falling powers is the reversed list. -/
theorem generatorVanishesAtItsRoots : Obligations.GeneratorVanishesAtItsRoots := fun I h =>
  ⟨sound_gen_length h, sound_gen_last h, sound_gen_first h,
    fun _ hj => (blockAt_reverse I _ _).trans (sound_gen_root h hj)⟩

end Sys2Proof.Machine

/-! `RSNEW` and `TBLLD` (40_field_and_construction.md R105, R110 to R112). -/

namespace Sys2Proof.Machine

/-- Settles O25, by evaluating R104's loop on the 256 values. -/
theorem constructionAcceptsSixPolynomials : Obligations.ConstructionAcceptsSixPolynomials := by
  unfold Obligations.ConstructionAcceptsSixPolynomials
  decide +kernel

/-- Settles O30, by evaluating R109's loop. -/
theorem maxiCodeGeneratorOfTenSymbols : Obligations.MaxiCodeGeneratorOfTenSymbols := by
  unfold Obligations.MaxiCodeGeneratorOfTenSymbols
  decide +kernel

/-! ## Construction (R105, R111) -/

section
variable {poly : BitVec 8} (nsym : BitVec 5) (root : BitVec 6)

theorem construct_of_accepted (h : poly ∈ acceptedPolys) : ∃ I, construct poly nsym root = some I := by
  have hsome : (buildTables poly).isSome = true := (constructionAcceptsSixPolynomials poly).trans (decide_eq_true h)
  obtain ⟨t, ht⟩ := Option.isSome_iff_exists.1 hsome
  exact ⟨_, by rw [construct, ht]⟩

theorem construct_of_not_accepted (h : poly ∉ acceptedPolys) : construct poly nsym root = none := by
  have hsome : (buildTables poly).isSome = false := (constructionAcceptsSixPolynomials poly).trans (decide_eq_false h)
  rw [construct, Option.not_isSome_iff_eq_none.1 (Bool.eq_false_iff.1 hsome)]

end

/-! ## `RSNEW` -/

section
variable {sel : BitVec 2} {nsym : BitVec 5} {root : BitVec 6} {poly : BitVec 8} {s : State} {k : Fin 3}
  (herr : s.err = 0#4) (hsel : slotIndex sel = some k) (hcount : nsymLegal nsym = true) (hempty : s.slots[k] = none)
include herr hsel hcount hempty

/-- R111's effect. -/
theorem exec_rsnew_of_construct {I : Encoder} (hI : construct poly nsym root = some I) :
    exec (.rsnew sel nsym root poly) s = .next ((s.setSlot k I).complete 0#16) := by
  refine command_ok herr ?_
  rw [hsel]
  simp [hcount, State.built, hempty, hI]

/-- R111's last check. -/
theorem exec_rsnew_construction (hI : construct poly nsym root = none) :
    faultsWith (exec (.rsnew sel nsym root poly) s) s .construction := by
  refine command_faultsWith herr ?_
  rw [hsel]
  simp [hcount, State.built, hempty, hI]

end

/-- Settles O26: construction succeeds, its tables hold the powers of alpha, and its generator is monic. -/
theorem rsnewConstructsAnInstance : Obligations.RsnewConstructsAnInstance := by
  intro sel nsym root poly s k herr hsel hlow hhigh hempty hpoly
  have hcount : nsymLegal nsym = true := nsymLegal_iff.2 ⟨hlow, hhigh⟩
  obtain ⟨I, hI⟩ := construct_of_accepted nsym root hpoly
  obtain ⟨htables, hIpoly, rfl, hroot, hn, -⟩ := construct_eq_some.1 hI
  have hsound : I.sound = true := sound_of_construct hcount hI
  have h : I.toTables.PowersOf poly := buildTables_powersOf htables
  refine ⟨I, ?_, hIpoly, rfl, hroot, hn, h.alog 0 (by decide) (by decide), fun e he => ?_, h.log_zero, fun e he => ?_,
    sound_gen_length hsound, sound_gen_last hsound, hsound⟩
  · exact exec_rsnew_of_construct herr (slotIndex_eq_some.2 hsel) hcount hempty hI
  · rw [h.alog _ he he, h.alog e (by omega) (by omega), alphaPow_succ]
  · simp only [h.alog e he he, h.log e he]

/-- Settles O27, check by check: R74's illegal operands, the slot, construction. -/
theorem rsnewFaultsInOrder : Obligations.RsnewFaultsInOrder := by
  intro sel nsym root poly s herr
  refine ⟨fun hbad => ?_, fun k hsel hlow hhigh => ⟨fun ⟨I, hI⟩ => ?_, fun hempty hpoly => ?_⟩⟩
  · refine illegalOperandValueFaults (.rsnew sel nsym root poly) s herr (Bool.and_eq_false_iff.2 ?_)
    rcases hbad with rfl | hcount
    · exact .inl rfl
    · refine .inr (Bool.eq_false_iff.2 fun hlegal => ?_)
      have hrange := nsymLegal_iff.1 hlegal
      omega
  · exact exec_rsnew_alreadyBuilt herr (slotIndex_eq_some.2 hsel) (nsymLegal_iff.2 ⟨hlow, hhigh⟩)
      (by simp [State.built, hI])
  · exact exec_rsnew_construction herr (slotIndex_eq_some.2 hsel) (nsymLegal_iff.2 ⟨hlow, hhigh⟩) hempty
      (construct_of_not_accepted nsym root hpoly)

/-! ## The entry of a table (R112) -/

section
variable (I : Encoder) {idx : Nat}

theorem tableEntry_log {e : Sym} (h : idx < 64) (he : I.log[idx] = some e) : tableEntry I 0#2 idx = .ok e := by
  simp [tableEntry, h, he]

theorem tableEntry_log_unwritten (h : idx < 64) (hnone : I.log[idx] = none) :
    tableEntry I 0#2 idx = .error .unwritten := by
  simp [tableEntry, h, hnone]

theorem tableEntry_alog (h : idx < 63) : tableEntry I 1#2 idx = .ok I.alog[idx] := by
  simp [tableEntry, h]

theorem tableEntry_gen {g : Sym} (h : idx ≤ I.nsym.toNat) (hg : I.gen[idx]? = some g) :
    tableEntry I 2#2 idx = .ok g := by
  simp [tableEntry, Nat.not_lt.2 h, hg]

/-- An index beyond its table. -/
theorem tableEntry_addrRange {t : BitVec 2}
    (h : (t = 0#2 ∧ 63 < idx) ∨ (t = 1#2 ∧ 62 < idx) ∨ (t = 2#2 ∧ I.nsym.toNat < idx)) :
    tableEntry I t idx = .error .addrRange := by
  rcases h with ⟨rfl, h⟩ | ⟨rfl, h⟩ | ⟨rfl, h⟩
  · simp [tableEntry, Nat.not_lt.2 h]
  · simp [tableEntry, Nat.not_lt.2 h]
  · simp [tableEntry, h]

end

/-- `LOG` of a sound encoder has an entry at every index but 0 (R104). -/
theorem sound_log {I : Encoder} (h : I.sound = true) {idx : Nat} (hidx : idx < 64) (hne : idx ≠ 0) :
    ∃ e, I.log[idx] = some e := by
  have hval : (symIndex (BitVec.ofNat 6 idx)).val = idx := Nat.mod_eq_of_lt hidx
  have hsym : BitVec.ofNat 6 idx ≠ 0#6 := fun hzero => hne (hval ▸ congrArg BitVec.toNat hzero)
  obtain ⟨e, he, -, -⟩ := (sound_powersOf h).exists_log hsym
  exact ⟨e, by simpa only [Fin.getElem_fin, hval] using he⟩

/-! ## `TBLLD` -/

section
variable {sel t : BitVec 2} {idx : BitVec 8} {s : State} {k : Fin 3} {I : Encoder}
  (herr : s.err = 0#4) (hsel : slotIndex sel = some k) (ht : tableLegal t = true)
include herr hsel ht

theorem exec_tblld_notBuilt (hempty : s.slots[k] = none) : faultsWith (exec (.tblld sel t idx) s) s .notBuilt := by
  refine command_faultsWith herr ?_
  rw [hsel]
  simp [ht, hempty]

section
variable (hI : s.slots[k] = some I)
include hI

/-- R112's effect. -/
theorem exec_tblld_of_tableEntry_ok {e : Sym} (he : tableEntry I t idx.toNat = .ok e) :
    exec (.tblld sel t idx) s = .next { s with rsp := some (0#26 ++ e) } := by
  rw [← complete_symbol]
  refine command_ok herr ?_
  rw [hsel]
  simp [ht, hI, he]

/-- R112's last checks. -/
theorem exec_tblld_of_tableEntry_error {f : FaultCode} (hf : tableEntry I t idx.toNat = .error f) :
    faultsWith (exec (.tblld sel t idx) s) s f := by
  refine command_faultsWith herr ?_
  rw [hsel]
  simp [ht, hI, hf]

end

end

/-- Settles O31, table by table. -/
theorem tblldReadsTheTableEntry : Obligations.TblldReadsTheTableEntry := by
  intro sel t idx s k I herr hsel hI hsound
  have hslot := slotIndex_eq_some.2 hsel
  refine ⟨fun hidx htable hne => ?_, fun hidx htable => ?_, fun htable hidx => ?_⟩ <;> subst htable
  · obtain ⟨e, he⟩ := sound_log hsound hidx fun hzero => hne (BitVec.eq_of_toNat_eq hzero)
    exact ⟨e, he, exec_tblld_of_tableEntry_ok herr hslot rfl hI (tableEntry_log I hidx he)⟩
  · exact exec_tblld_of_tableEntry_ok herr hslot rfl hI (tableEntry_alog I hidx)
  · have hlen : idx.toNat < I.gen.length := by rw [sound_gen_length hsound]; omega
    have hentry := List.getElem?_eq_getElem hlen
    exact ⟨_, hentry, exec_tblld_of_tableEntry_ok herr hslot rfl hI (tableEntry_gen I hidx hentry)⟩

/-- Settles O32, check by check: R74's illegal operands, the slot, the index, `LOG[0]`. -/
theorem tblldFaultsInOrder : Obligations.TblldFaultsInOrder := by
  intro sel t idx s herr
  refine ⟨fun hbad => ?_, fun k hsel ht => ?_⟩
  · refine illegalOperandValueFaults (.tblld sel t idx) s herr (Bool.and_eq_false_iff.2 ?_)
    rcases hbad with rfl | rfl
    · exact .inl rfl
    · exact .inr rfl
  · have hslot := slotIndex_eq_some.2 hsel
    have htable := tableLegal_iff.2 ht
    refine ⟨exec_tblld_notBuilt herr hslot htable, fun I hI => ⟨fun hidx => ?_, fun hsound ht hidx => ?_⟩⟩
    · exact exec_tblld_of_tableEntry_error herr hslot htable hI (tableEntry_addrRange I hidx)
    · subst ht hidx
      have hhole : I.log[(0#8).toNat] = none := (sound_powersOf hsound).log_zero
      exact exec_tblld_of_tableEntry_error herr hslot htable hI (tableEntry_log_unwritten I (by decide) hhole)

end Sys2Proof.Machine

/-! The shift register of `Lfsr` (41_encode.md R131, R132): one step is linear in the register and the data symbol, and
adds a multiple of the generator polynomial to the register and the symbols above it. -/

namespace Sys2Proof.Machine

/-! ## One step -/

/-- One step, whole: the cells move up, and the taps are added, scaled by the symbol that leaves at the top. -/
theorem shift_eq (I : Encoder) (r : List Sym) (x : Sym) :
    I.shift r x = List.zipWith (· ^^^ ·) (0#6 :: r) (I.taps.map (I.gfmul (r.getLastD 0#6 ^^^ x))) :=
  List.zipWith_map_right.symm

/-- Zeros, as many as `g` is long or more, add nothing to `g`. -/
theorem zipWith_zeros_xor {n : Nat} {g : List Sym} (hlen : g.length ≤ n) :
    List.zipWith (· ^^^ ·) (List.replicate n 0#6) g = g := by
  induction g generalizing n with
  | nil => exact List.zipWith_nil_right
  | cons x g ih =>
    cases n with
    | zero => cases hlen
    | succ n => rw [List.replicate_succ, List.zipWith_cons_cons, BitVec.zero_xor, ih (Nat.le_of_succ_le_succ hlen)]

theorem zipWith_xor_comm (a b : List Sym) : List.zipWith (· ^^^ ·) a b = List.zipWith (· ^^^ ·) b a := by
  rw [List.zipWith_comm]
  simp only [BitVec.xor_comm]

theorem zipWith_xor_interchange (a b c d : List Sym) :
    List.zipWith (· ^^^ ·) (List.zipWith (· ^^^ ·) a b) (List.zipWith (· ^^^ ·) c d) =
      List.zipWith (· ^^^ ·) (List.zipWith (· ^^^ ·) a c) (List.zipWith (· ^^^ ·) b d) := by
  refine List.ext_getElem (by simp only [List.length_zipWith]; omega) fun k _ _ => ?_
  simp only [List.getElem_zipWith]
  ac_rfl

/-- The top cells of two registers of one length. -/
theorem getLastD_zipWith_xor {r r' : List Sym} (hlen : r.length = r'.length) (x y : Sym) :
    (List.zipWith (· ^^^ ·) r r').getLastD (x ^^^ y) = r.getLastD x ^^^ r'.getLastD y := by
  induction r generalizing r' x y with
  | nil =>
    obtain rfl := List.length_eq_zero_iff.1 hlen.symm
    rfl
  | cons a r ih =>
    cases r' with
    | nil => cases hlen
    | cons b r' =>
      simp only [List.zipWith_cons_cons, List.getLastD_cons]
      exact ih (Nat.succ.inj hlen) a b

/-! ## One step is linear -/

namespace Tables.PowersOf
variable {t : Tables} {poly : BitVec 8} (h : t.PowersOf poly)
include h

theorem map_xor_gfmul (a b : Sym) (g : List Sym) :
    g.map (t.gfmul (a ^^^ b)) = List.zipWith (· ^^^ ·) (g.map (t.gfmul a)) (g.map (t.gfmul b)) := by
  rw [List.zipWith_map, List.zipWith_self]
  exact List.map_congr_left fun c _ => h.xor_gfmul a b c

theorem map_gfmul_zipWith (c : Sym) (a b : List Sym) :
    (List.zipWith (· ^^^ ·) a b).map (t.gfmul c) =
      List.zipWith (· ^^^ ·) (a.map (t.gfmul c)) (b.map (t.gfmul c)) := by
  rw [List.map_zipWith, List.zipWith_map]
  simp only [h.gfmul_xor]

end Tables.PowersOf

section
variable {I : Encoder} (h : I.sound = true)
include h

theorem shift_xor {r r' : List Sym} (hlen : r.length = r'.length) (x y : Sym) :
    I.shift (List.zipWith (· ^^^ ·) r r') (x ^^^ y) = List.zipWith (· ^^^ ·) (I.shift r x) (I.shift r' y) := by
  have htop : (List.zipWith (· ^^^ ·) r r').getLastD 0#6 ^^^ (x ^^^ y) =
      (r.getLastD 0#6 ^^^ x) ^^^ (r'.getLastD 0#6 ^^^ y) := by
    rw [← BitVec.xor_self (x := 0#6), getLastD_zipWith_xor hlen]
    ac_rfl
  rw [shift_eq, shift_eq, shift_eq, htop, (sound_powersOf h).map_xor_gfmul, zipWith_xor_interchange]
  rfl

theorem shift_map_gfmul (c : Sym) (r : List Sym) (x : Sym) :
    I.shift (r.map (I.gfmul c)) (I.gfmul c x) = (I.shift r x).map (I.gfmul c) := by
  have hp := sound_powersOf h
  have htop : (r.map (I.gfmul c)).getLastD 0#6 ^^^ I.gfmul c x = I.gfmul c (r.getLastD 0#6 ^^^ x) := by
    have hlast := List.getLastD_map (f := I.gfmul c) (l := r) (a := 0#6)
    rw [gfmul_zero] at hlast
    rw [hlast, hp.gfmul_xor]
  have hassoc : I.gfmul (I.gfmul c (r.getLastD 0#6 ^^^ x)) = I.gfmul c ∘ I.gfmul (r.getLastD 0#6 ^^^ x) :=
    funext fun g => hp.gfmul_assoc ..
  rw [shift_eq, shift_eq, htop, hp.map_gfmul_zipWith, List.map_cons, gfmul_zero, List.map_map, hassoc]

theorem sound_taps_length : I.taps.length = I.nsym.toNat :=
  taps_length (by rw [sound_gen_length h]; omega)

/-- One step from the register at the start of an encode (R132, impulse). -/
theorem shift_zeros (x : Sym) : I.shift (List.replicate I.nsym.toNat 0#6) x = I.taps.map (I.gfmul x) := by
  have htop : (List.replicate I.nsym.toNat 0#6).getLastD 0#6 = 0#6 := by
    rw [List.getLastD_eq_getLast?, List.getLast?_replicate]
    split <;> rfl
  rw [shift_eq, htop, BitVec.zero_xor, ← List.replicate_succ, zipWith_zeros_xor]
  rw [List.length_map, sound_taps_length h]
  exact Nat.le_succ _

/-- A zero leaves the register at zeros. -/
theorem shift_zeros_zero :
    I.shift (List.replicate I.nsym.toNat 0#6) 0#6 = List.replicate I.nsym.toNat 0#6 := by
  rw [shift_zeros h]
  refine List.eq_replicate_iff.2 ⟨?_, List.forall_mem_map.2 fun g _ => zero_gfmul _ g⟩
  rw [List.length_map, sound_taps_length h]

/-! ## The laws of an encode -/

theorem lfsr_cons_zero (d : List Sym) : I.lfsr (0#6 :: d) = I.lfsr d :=
  congrArg (d.foldl I.shift) (shift_zeros_zero h)

theorem lfsr_zeros_append (n : Nat) (d : List Sym) : I.lfsr (List.replicate n 0#6 ++ d) = I.lfsr d := by
  induction n with
  | zero => rfl
  | succ n ih => rw [List.replicate_succ, List.cons_append, lfsr_cons_zero h, ih]

theorem lfsr_zeros (n : Nat) : I.lfsr (List.replicate n 0#6) = List.replicate I.nsym.toNat 0#6 := by
  simpa [lfsr_nil] using lfsr_zeros_append h n []

theorem lfsr_singleton (x : Sym) : I.lfsr [x] = I.taps.map (I.gfmul x) := shift_zeros h x

theorem lfsr_one : I.lfsr [1#6] = I.taps := by
  rw [lfsr_singleton h, funext (sound_powersOf h).one_gfmul, List.map_id']

theorem foldl_shift_xor {a b r r' : List Sym} (hab : a.length = b.length) (hr : r.length = r'.length) :
    (List.zipWith (· ^^^ ·) a b).foldl I.shift (List.zipWith (· ^^^ ·) r r') =
      List.zipWith (· ^^^ ·) (a.foldl I.shift r) (b.foldl I.shift r') := by
  induction a generalizing b r r' with
  | nil =>
    obtain rfl := List.length_eq_zero_iff.1 hab.symm
    rfl
  | cons x a ih =>
    cases b with
    | nil => cases hab
    | cons y b =>
      simp only [List.zipWith_cons_cons, List.foldl_cons, shift_xor h hr]
      exact ih (Nat.succ.inj hab) (by simp [Encoder.shift, hr])

theorem lfsr_xor {a b : List Sym} (hab : a.length = b.length) :
    I.lfsr (List.zipWith (· ^^^ ·) a b) = List.zipWith (· ^^^ ·) (I.lfsr a) (I.lfsr b) := by
  have hzeros : List.zipWith (· ^^^ ·) (List.replicate I.nsym.toNat 0#6) (List.replicate I.nsym.toNat 0#6) =
      List.replicate I.nsym.toNat 0#6 := by simp
  have hfold := foldl_shift_xor h hab (r := List.replicate I.nsym.toNat 0#6) rfl
  rwa [hzeros] at hfold

theorem lfsr_map_gfmul (c : Sym) (d : List Sym) : I.lfsr (d.map (I.gfmul c)) = (I.lfsr d).map (I.gfmul c) := by
  induction d using List.reverseRecOn with
  | nil => simp [lfsr_nil, gfmul_zero]
  | append_singleton d x ih =>
    rw [List.map_append, List.map_singleton, lfsr_concat, lfsr_concat, ih, shift_map_gfmul h]

end

/-- Settles O33: each law of the encode from the same law of one step. -/
theorem lfsrLaws : Obligations.LfsrLaws := fun I h =>
  ⟨fun d => sound_lfsr_length d h, lfsr_nil I, lfsr_zeros h,
    fun n => (lfsr_zeros_append h n _).trans (lfsr_one h), fun _ _ hab => lfsr_xor h hab, lfsr_map_gfmul h,
    lfsr_cons_zero h⟩

/-! ## The remainder law -/

/-- The sum of two polynomials, coefficient of `x^0` first, as `Encoder.polyMul` adds them. -/
def polyAdd (a b : List Sym) : List Sym := List.zipWithAll (fun x y => x.getD 0#6 ^^^ y.getD 0#6) a b

/-- The product with one coefficient more: the rest is shifted up one power. -/
theorem polyMul_cons (I : Encoder) (c : Sym) {q : List Sym} (hq : q ≠ []) (g : List Sym) :
    I.polyMul (c :: q) g = polyAdd (g.map (I.gfmul c)) (0#6 :: I.polyMul q g) := by
  cases q with
  | nil => exact absurd rfl hq
  | cons => rfl

theorem polyMul_singleton (I : Encoder) (c : Sym) (g : List Sym) : I.polyMul [c] g = g.map (I.gfmul c) := rfl

theorem polyAdd_append {a b : List Sym} (hab : a.length = b.length) (a' b' : List Sym) :
    polyAdd (a ++ a') (b ++ b') = List.zipWith (· ^^^ ·) a b ++ polyAdd a' b' := by
  induction a generalizing b with
  | nil =>
    obtain rfl := List.length_eq_zero_iff.1 hab.symm
    rfl
  | cons x a ih =>
    cases b with
    | nil => cases hab
    | cons y b => exact congrArg (_ :: ·) (ih (Nat.succ.inj hab))

theorem polyAdd_zeros (a : List Sym) : polyAdd a (List.replicate a.length 0#6) = a := by
  have hnil : polyAdd [] [] = [] := rfl
  have happend := polyAdd_append (a := a) (b := List.replicate a.length 0#6) List.length_replicate.symm [] []
  simpa only [zipWith_xor_comm a, zipWith_zeros_xor le_rfl, List.append_nil, hnil] using happend

section
variable {I : Encoder} (h : I.sound = true)
include h

/-- The generator is its taps and a leading 1 (R25). -/
theorem sound_gen_eq_taps_append : I.gen = I.taps ++ [1#6] := by
  have hlen := sound_gen_length h
  calc I.gen = I.gen.take (I.nsym.toNat + 1) := by rw [← hlen, List.take_length]
    _ = I.taps ++ [1#6] := by rw [List.take_add_one, sound_gen_last h]; rfl

/-- The key to R132: move the register and the symbols `e` above it up one power, and add the generator times the
symbol that leaves at the top. The register takes its step, and the data symbol stands above it. -/
theorem polyAdd_gen_shift {r : List Sym} (hr : r.length = I.nsym.toNat) (x : Sym) (e : List Sym) :
    polyAdd (I.gen.map (I.gfmul (r.getLastD 0#6 ^^^ x))) (0#6 :: (r ++ e)) = I.shift r x ++ x :: e := by
  have htaps : I.taps.length = I.nsym.toNat := sound_taps_length h
  obtain rfl | ⟨r, top, rfl⟩ := List.eq_nil_or_concat r
  · have hpos := (sound_nsym h).1
    rw [← hr] at hpos
    cases hpos
  rw [List.concat_eq_append] at hr ⊢
  have hlen : (I.taps.map (I.gfmul (top ^^^ x))).length = (0#6 :: r).length := by simpa [htaps] using hr.symm
  have hstep : I.shift (r ++ [top]) x = List.zipWith (· ^^^ ·) (I.taps.map (I.gfmul (top ^^^ x))) (0#6 :: r) := by
    have happend := List.zipWith_append (f := (· ^^^ · : Sym → Sym → Sym)) (l₁' := []) (l₂' := [top]) hlen
    rw [shift_eq, List.getLastD_concat, zipWith_xor_comm]
    simpa using happend
  have htop : polyAdd [top ^^^ x] (top :: e) = x :: e := by
    have hcancel : (top ^^^ x) ^^^ top = x := by rw [BitVec.xor_comm, ← BitVec.xor_assoc]; simp
    simp [polyAdd, hcancel]
  calc polyAdd (I.gen.map (I.gfmul ((r ++ [top]).getLastD 0#6 ^^^ x))) (0#6 :: (r ++ [top] ++ e))
      = polyAdd (I.taps.map (I.gfmul (top ^^^ x)) ++ [top ^^^ x]) ((0#6 :: r) ++ top :: e) := by
        rw [sound_gen_eq_taps_append h, List.map_append, List.map_singleton, List.getLastD_concat,
          (sound_powersOf h).gfmul_one, List.append_assoc]
        rfl
    _ = I.shift (r ++ [top]) x ++ x :: e := by rw [polyAdd_append hlen, htop, hstep]

/-- R132: each data symbol brings one more coefficient of the quotient, the lowest so far. -/
theorem exists_polyMul_gen {d : List Sym} (hd : d ≠ []) :
    ∃ q : List Sym, q.length = d.length ∧ I.polyMul q I.gen = I.lfsr d ++ d.reverse := by
  induction d using List.reverseRecOn with
  | nil => exact absurd rfl hd
  | append_singleton d x ih =>
    have hstep := polyAdd_gen_shift h (sound_lfsr_length d h) x
    rw [lfsr_concat, List.reverse_append, List.reverse_singleton, List.singleton_append]
    by_cases hnil : d = []
    · subst hnil
      refine ⟨[(I.lfsr []).getLastD 0#6 ^^^ x], rfl, ?_⟩
      have hzeros : 0#6 :: (I.lfsr [] ++ []) = List.replicate I.gen.length 0#6 := by
        rw [sound_gen_length h, List.append_nil]; rfl
      rw [List.reverse_nil, ← hstep, hzeros, polyMul_singleton, ← List.length_map (I.gfmul _), polyAdd_zeros]
    · obtain ⟨q, hlen, hq⟩ := ih hnil
      refine ⟨((I.lfsr d).getLastD 0#6 ^^^ x) :: q, by simp [hlen], ?_⟩
      have hne : q ≠ [] := fun hq => hnil (List.length_eq_zero_iff.1 (by rw [← hlen, hq]; rfl))
      rw [polyMul_cons I _ hne, hq, hstep]

end

/-- Settles O34, by induction on the number of data symbols (`exists_polyMul_gen`). -/
theorem encodedBlockIsAMultipleOfTheGenerator : Obligations.EncodedBlockIsAMultipleOfTheGenerator :=
  fun _ d h hd => ⟨sound_lfsr_length d h, exists_polyMul_gen h hd⟩

end Sys2Proof.Machine

/-! The shift-register commands `RSENC`, `RSPUT`, `RSCMP` and `RESLD` (41_encode.md R133 to R136). -/

namespace Sys2Proof.Machine

/-! ## Runs and results -/

/-- A run inside the buffer whose cells are all written gives a list. -/
theorem exists_readRun_eq_ok {m : Memory} {base stride count : Nat} (hrange : runInRange base stride count = true)
    (hwritten : ∀ j, j < count → m.read (base + j * stride) ≠ none) : ∃ d, readRun m base stride count = .ok d := by
  cases hd : allWritten (m.cells base stride count) with
  | some d => exact ⟨d, by simp only [readRun, hrange, if_true, hd]⟩
  | none =>
    rw [allWritten_eq_none, Memory.cells, List.mem_map] at hd
    obtain ⟨j, hj, hnone⟩ := hd
    exact absurd hnone (hwritten j (List.mem_range.1 hj))

theorem runInRange_eq_false {base stride count : Nat} (hpos : 0 < count) (h : 143 < base + (count - 1) * stride) :
    runInRange base stride count = false := by
  refine Bool.eq_false_iff.2 fun hrange => ?_
  have hrange := runInRange_iff.1 hrange
  omega

theorem rlen_pos {s : State} (h : s.rlen ≠ 0#5) : 0 < s.rlen.toNat :=
  Nat.pos_of_ne_zero fun hzero => h (BitVec.eq_of_toNat_eq hzero)

/-- The list that `RSPUT` writes and `RSCMP` compares: the result, top cell first (R134, R135). -/
theorem reverse_result_getElem? {s : State} {r : List Sym} (hr : s.result = some r) {j : Nat}
    (hj : j < s.rlen.toNat) : r.reverse[j]? = s.resCell (s.rlen.toNat - 1 - j) := by
  obtain ⟨hlen, hcell⟩ := result_eq_some.1 hr
  rw [List.getElem?_reverse (by omega), hlen, hcell _ (by omega)]

section
variable {s : State} {base stride : Nat} (hstride : stride ≠ 0)
include hstride

theorem resultRun_unwritten (hnone : s.rlen = 0#5) : resultRun s base stride = .error .unwritten := by
  simp [resultRun, hstride, hnone]

theorem resultRun_addrRange (hsome : s.rlen ≠ 0#5) (hrange : runInRange base stride s.rlen.toNat = false) :
    resultRun s base stride = .error .addrRange := by
  simp [resultRun, hstride, hsome, hrange]

/-- A shift register with a hole, which no run reaches, holds no result. -/
theorem resultRun_hole (hsome : s.rlen ≠ 0#5) (hrange : runInRange base stride s.rlen.toNat = true)
    (hhole : s.result = none) : resultRun s base stride = .error .unwritten := by
  simp [resultRun, hstride, hsome, hrange, hhole]

end

/-- The stored cells equal the result exactly when each of them holds the cell it is compared with (R135). -/
theorem eccEqual_iff {s : State} {base stride : Nat} {r e : List Sym} (hr : s.result = some r)
    (he : readRun s.cw base stride s.rlen.toNat = .ok e) :
    eccEqual e r = true ↔
      ∀ j, j < s.rlen.toNat → s.cw.read (base + j * stride) = s.resCell (s.rlen.toNat - 1 - j) := by
  obtain ⟨-, helen, hcells⟩ := readRun_eq_ok.1 he
  obtain ⟨hrlen, -⟩ := result_eq_some.1 hr
  have hext : e = r.reverse ↔ ∀ j, j < s.rlen.toNat → e[j]? = r.reverse[j]? := by
    rw [List.ext_getElem?_iff', List.length_reverse, helen, hrlen, Nat.max_self]
  rw [eccEqual, beq_iff_eq, hext]
  refine forall₂_congr fun j hj => ?_
  rw [hcells j hj, reverse_result_getElem? hr hj]

/-! ## `RSENC` -/

section
variable {sel : BitVec 2} {len base : BitVec 8} {stride : BitVec 4} {s : State} {k : Fin 3}
  (herr : s.err = 0#4) (hsel : slotIndex sel = some k) (hstride : strideLegal stride = true)
include herr hsel hstride

theorem exec_rsenc_notBuilt (hempty : s.slots[k] = none) :
    faultsWith (exec (.rsenc sel len base stride) s) s .notBuilt := by
  refine command_faultsWith herr ?_
  rw [hsel]
  simp [hstride, hempty]

section
variable {I : Encoder} (hI : s.slots[k] = some I)
include hI

/-- R133's effect. -/
theorem exec_rsenc_of_readRun_ok {d : List Sym} (hd : readRun s.cw base.toNat stride.toNat len.toNat = .ok d) :
    exec (.rsenc sel len base stride) s = .next ((s.setResult I.nsym (I.lfsr d)).complete 0#16) := by
  refine command_ok herr ?_
  rw [hsel]
  simp [hstride, hI, hd]

/-- R133's last checks. -/
theorem exec_rsenc_of_readRun_error {f : FaultCode}
    (hf : readRun s.cw base.toNat stride.toNat len.toNat = .error f) :
    faultsWith (exec (.rsenc sel len base stride) s) s f := by
  refine command_faultsWith herr ?_
  rw [hsel]
  simp [hstride, hI, hf]

end

end

/-- Settles O35: the run gives `d`, and the cells of `RES` are those of `Lfsr`'s result, which ends at `NSYM`. -/
theorem rsencEncodesARun : Obligations.RsencEncodesARun := by
  intro sel len base stride s k I d herr hsel hI hstride hrange hlen hcells
  have hrun : readRun s.cw base.toNat stride.toNat len.toNat = .ok d := by
    refine readRun_eq_ok.2 ⟨runInRange_iff.2 (hrange.imp_left fun h => ?_), hlen, hcells⟩
    rw [h]
    rfl
  refine ⟨_, exec_rsenc_of_readRun_ok herr (slotIndex_eq_some.2 hsel) (strideLegal_iff.2 hstride) hI hrun, rfl,
    fun n _ => ?_, fun n hn => ?_⟩
  · exact resultCells_getElem _ _ n.isLt
  · have hle := lfsr_length_le I d
    exact (resultCells_getElem _ _ n.isLt).trans (List.getElem?_eq_none (by omega))

/-- Settles O36, check by check: R74's illegal operands, the slot, the range, the cells. -/
theorem rsencFaultsInOrder : Obligations.RsencFaultsInOrder := by
  intro sel len base stride s herr
  refine ⟨fun hbad => ?_, fun k hsel hstride => ?_⟩
  · refine illegalOperandValueFaults (.rsenc sel len base stride) s herr (Bool.and_eq_false_iff.2 ?_)
    rcases hbad with rfl | rfl
    · exact .inl rfl
    · exact .inr rfl
  · have hslot := slotIndex_eq_some.2 hsel
    have hlegal := strideLegal_iff.2 hstride
    refine ⟨exec_rsenc_notBuilt herr hslot hlegal, fun hbuilt hpos => ?_⟩
    obtain ⟨I, hI⟩ := Option.ne_none_iff_exists'.1 hbuilt
    refine ⟨fun habove => ?_, fun hinside ⟨j, hj, hnone⟩ => ?_⟩
    · exact exec_rsenc_of_readRun_error herr hslot hlegal hI (readRun_eq_addrRange (runInRange_eq_false hpos habove))
    · exact exec_rsenc_of_readRun_error herr hslot hlegal hI
        (readRun_eq_unwritten (runInRange_iff.2 (.inr hinside)) hj hnone)

/-! ## `RSPUT` and `RSCMP` -/

section
variable {base : BitVec 8} {stride : BitVec 4} {s : State} (herr : s.err = 0#4)
include herr

/-- The checks that the two commands share. -/
theorem exec_of_resultRun_error {f : FaultCode} (hf : resultRun s base.toNat stride.toNat = .error f) :
    ∀ i ∈ [Instr.rsput base stride, Instr.rscmp base stride], faultsWith (exec i s) s f := by
  simp only [List.forall_mem_cons, List.not_mem_nil, false_implies, implies_true, and_true]
  exact ⟨command_faultsWith herr (by rw [hf]), command_faultsWith herr (by rw [hf])⟩

section
variable {r : List Sym} (hr : resultRun s base.toNat stride.toNat = .ok r)
include hr

/-- R134's effect. -/
theorem exec_rsput_of_resultRun_ok :
    exec (.rsput base stride) s =
      .next (State.complete { s with cw := s.cw.writeRun base.toNat stride.toNat r.reverse } 0#16) :=
  command_ok herr (by rw [hr])

/-- R135's effect. -/
theorem exec_rscmp_of_readRun_ok {e : List Sym}
    (he : readRun s.cw base.toNat stride.toNat s.rlen.toNat = .ok e) :
    exec (.rscmp base stride) s = .next ((s.setMatch (eccEqual e r)).complete (bitData (eccEqual e r))) :=
  command_ok herr (by simp only [hr, he])

/-- R135's last check. -/
theorem exec_rscmp_of_readRun_error {f : FaultCode}
    (hf : readRun s.cw base.toNat stride.toNat s.rlen.toNat = .error f) :
    faultsWith (exec (.rscmp base stride) s) s f :=
  command_faultsWith herr (by simp only [hr, hf])

end

end

/-- A sound shift register's result passes R134's checks for a run inside the buffer. -/
theorem exists_resultRun_eq_ok {s : State} {base stride : Nat} (hsound : s.resultSound) (hstride : stride ≠ 0)
    (hsome : s.rlen ≠ 0#5) (hrange : runInRange base stride s.rlen.toNat = true) :
    ∃ r, resultRun s base stride = .ok r ∧ s.result = some r := by
  obtain ⟨r, hr⟩ := result_of_sound hsound
  exact ⟨r, resultRun_eq_ok.2 ⟨hstride, hsome, hrange, hr⟩, hr⟩

/-- Settles O37: the run written is the result, top cell first. -/
theorem rsputWritesTheResultReversed : Obligations.RsputWritesTheResultReversed := by
  intro base stride s herr hsound hstride hsome hhigh
  have hpos := stride_pos hstride
  obtain ⟨r, hrun, hr⟩ := exists_resultRun_eq_ok hsound hpos.ne' hsome (runInRange_iff.2 (.inr hhigh))
  have hlen : r.reverse.length = s.rlen.toNat := by rw [List.length_reverse, (result_eq_some.1 hr).1]
  refine ⟨_, exec_rsput_of_resultRun_ok herr hrun, rfl, fun j hj => ?_, fun a ha => ?_⟩
  · rw [State.complete_cw, Memory.read_writeRun_mem _ _ hpos _ (by rwa [hlen]), reverse_result_getElem? hr hj]
  · exact Memory.read_writeRun_other _ _ _ _ _ (by rwa [hlen])

/-- The response to a comparison, whole. -/
theorem complete_bitData (s : State) (b : Bool) :
    s.complete (bitData b) = { s with rsp := some (0#31 ++ BitVec.ofBool b) } := by
  cases b <;> rfl

/-- Settles O38: the run is read, and compared cell by cell. -/
theorem rscmpSetsMatch : Obligations.RscmpSetsMatch := by
  intro base stride s herr hsound hstride hsome hhigh hwritten
  have hrange := runInRange_iff.2 (.inr hhigh)
  obtain ⟨r, hrun, hr⟩ := exists_resultRun_eq_ok hsound (stride_pos hstride).ne' hsome hrange
  obtain ⟨e, he⟩ := exists_readRun_eq_ok hrange hwritten
  refine ⟨eccEqual e r, ?_, eccEqual_iff hr he⟩
  rw [exec_rscmp_of_readRun_ok herr hrun he, complete_bitData]
  rfl

/-- Settles O39, check by check: R74's illegal stride, `RLEN`, the range, the compared cells. -/
theorem rsputAndRscmpFaultInOrder : Obligations.RsputAndRscmpFaultInOrder := by
  intro base stride s herr
  refine ⟨fun i hi => ⟨fun hzero => ?_, fun hstride hnone => ?_, fun hstride hsome habove => ?_⟩,
    fun hstride hsome hinside ⟨j, hj, hnone⟩ => ?_⟩
  · exact exec_of_resultRun_error herr (by rw [hzero]; rfl) i hi
  · exact exec_of_resultRun_error herr (resultRun_unwritten (stride_pos hstride).ne' hnone) i hi
  · exact exec_of_resultRun_error herr (resultRun_addrRange (stride_pos hstride).ne' hsome
      (runInRange_eq_false (rlen_pos hsome) habove)) i hi
  · have hpos := (stride_pos hstride).ne'
    have hrange := runInRange_iff.2 (.inr hinside)
    cases hr : s.result with
    | none => exact exec_of_resultRun_error herr (resultRun_hole hpos hsome hrange hr) _ (by simp)
    | some r =>
      exact exec_rscmp_of_readRun_error herr (resultRun_eq_ok.2 ⟨hpos, hsome, hrange, hr⟩)
        (readRun_eq_unwritten hrange hj hnone)

/-! ## `RESLD` -/

/-- Below `RLEN` every cell of a sound shift register holds a value (10_state.md R27). -/
theorem exists_resCell {s : State} (hsound : s.resultSound) {k : Nat} (hk : k < s.rlen.toNat) :
    ∃ v, s.resCell k = some v := by
  obtain ⟨r, hr⟩ := result_of_sound hsound
  obtain ⟨hlen, hcell⟩ := result_eq_some.1 hr
  exact ⟨_, (hcell k hk).trans (List.getElem?_eq_getElem (by rwa [hlen]))⟩

/-- R136's effect. -/
theorem exec_resld_of_lt {k : BitVec 5} {s : State} {v : Sym} (herr : s.err = 0#4) (hk : k.toNat < s.rlen.toNat)
    (hv : s.resCell k.toNat = some v) : exec (.resld k) s = .next { s with rsp := some (0#26 ++ v) } := by
  rw [← complete_symbol]
  exact command_ok herr (by rw [if_neg (Nat.not_le.2 hk), hv])

/-- Settles O40: below `RLEN` the cell of a sound shift register holds a value. -/
theorem resldReadsTheCell : Obligations.ResldReadsTheCell := by
  intro k s herr
  refine ⟨fun hsound hk => ?_, fun hk => command_faultsWith herr (if_pos hk)⟩
  obtain ⟨v, hv⟩ := exists_resCell hsound hk
  exact ⟨v, hv, exec_resld_of_lt herr hk hv⟩

end Sys2Proof.Machine

/-! The cells of the three parts of a pass (20_memory.md R52 to R54, 42_ecc_pass.md R151): which addresses they are, and
that every cell of the buffer is a cell of exactly one part. -/

namespace Sys2Proof.Machine

/-! ## Data cells and ECC cells -/

/-- `a` is the address of a data symbol of the part. -/
def Part.IsData (p : Part) (a : Nat) : Prop := ∃ j, j < p.len ∧ a = p.dataBase + j * p.stride

/-- `a` is the address of an ECC cell of the part. -/
def Part.IsEcc (p : Part) (a : Nat) : Prop := ∃ j, j < p.nsym.toNat ∧ a = p.eccBase + j * p.stride

/-- Every second address. -/
theorem exists_stride_two_iff {base n a : Nat} :
    (∃ j, j < n ∧ a = base + j * 2) ↔ base ≤ a ∧ a < base + 2 * n ∧ a % 2 = base % 2 := by
  constructor
  · rintro ⟨j, hj, rfl⟩
    omega
  · intro h
    exact ⟨(a - base) / 2, by omega, by omega⟩

section
variable {mode : BitVec 3} {p q : Part} {a : Nat}

theorem mem_allParts : p ∈ allParts mode ↔ p = primaryPart ∨ p = evenPart mode ∨ p = oddPart mode := by
  simp [allParts]

theorem primaryPart_mem : primaryPart ∈ allParts mode := mem_allParts.2 (.inl rfl)

theorem evenPart_mem : evenPart mode ∈ allParts mode := mem_allParts.2 (.inr (.inl rfl))

theorem oddPart_mem : oddPart mode ∈ allParts mode := mem_allParts.2 (.inr (.inr rfl))

variable (mode) in
/-- The secondary data cells end where the secondary ECC cells begin (R53). -/
theorem eccBase_eq : Config.eccBase mode = 20 + 2 * Config.subLength mode := by revert mode; decide

variable (mode) in
/-- The secondary ECC cells end where the buffer does (R53). -/
theorem eccBase_add_subNsym : Config.eccBase mode + 2 * (Config.subNsym mode).toNat = 144 := by revert mode; decide

variable (mode) in
theorem subLength_pos : 0 < Config.subLength mode := by revert mode; decide

theorem primaryPart_isData : primaryPart.IsData a ↔ a < 10 := by simp [Part.IsData, primaryPart]

theorem primaryPart_isEcc : primaryPart.IsEcc a ↔ 10 ≤ a ∧ a < 20 := by
  constructor
  · rintro ⟨j, hj, rfl⟩
    simp only [primaryPart, BitVec.toNat_ofNat] at hj ⊢
    omega
  · intro h
    exact ⟨a - 10, by simp only [primaryPart, BitVec.toNat_ofNat]; omega, by simp only [primaryPart]; omega⟩

theorem evenPart_isData : (evenPart mode).IsData a ↔ 20 ≤ a ∧ a < Config.eccBase mode ∧ a % 2 = 0 := by
  rw [eccBase_eq]
  exact exists_stride_two_iff (base := 20) (n := Config.subLength mode)

theorem oddPart_isData : (oddPart mode).IsData a ↔ 21 ≤ a ∧ a < Config.eccBase mode + 1 ∧ a % 2 = 1 := by
  rw [eccBase_eq, Nat.add_right_comm]
  exact exists_stride_two_iff (base := 21) (n := Config.subLength mode)

theorem evenPart_isEcc : (evenPart mode).IsEcc a ↔ Config.eccBase mode ≤ a ∧ a < 144 ∧ a % 2 = 0 := by
  have hiff := exists_stride_two_iff (base := Config.eccBase mode) (n := (Config.subNsym mode).toNat) (a := a)
  have hbase := eccBase_eq mode
  rw [eccBase_add_subNsym, show Config.eccBase mode % 2 = 0 by omega] at hiff
  exact hiff

theorem oddPart_isEcc : (oddPart mode).IsEcc a ↔ Config.eccBase mode + 1 ≤ a ∧ a < 145 ∧ a % 2 = 1 := by
  have hiff := exists_stride_two_iff (base := Config.eccBase mode + 1) (n := (Config.subNsym mode).toNat) (a := a)
  have hbase := eccBase_eq mode
  rw [Nat.add_right_comm, eccBase_add_subNsym, show (Config.eccBase mode + 1) % 2 = 1 by omega] at hiff
  exact hiff

/-! ## The parts of one mode -/

section
variable (hp : p ∈ allParts mode)
include hp

theorem allParts_stride_pos : 0 < p.stride := by
  rcases mem_allParts.1 hp with rfl | rfl | rfl
  · exact Nat.one_pos
  · exact Nat.two_pos
  · exact Nat.two_pos

theorem allParts_len_pos : 0 < p.len := by
  have hsub := subLength_pos mode
  rcases mem_allParts.1 hp with rfl | rfl | rfl
  · exact Nat.succ_pos 9
  · exact hsub
  · exact hsub

/-- The ECC cells of a part go on where its data cells end. -/
theorem allParts_eccBase_eq : p.eccBase = p.dataBase + p.len * p.stride := by
  rcases mem_allParts.1 hp with rfl | rfl | rfl
  · rfl
  · rw [Nat.mul_comm]
    exact eccBase_eq mode
  · rw [Nat.mul_comm]
    exact (congrArg (· + 1) (eccBase_eq mode)).trans (Nat.add_right_comm ..)

theorem allParts_isData_bounds (ha : p.IsData a) : a < 10 ∨ 20 ≤ a ∧ a < Config.eccBase mode := by
  have hbase := eccBase_eq mode
  rcases mem_allParts.1 hp with rfl | rfl | rfl
  · exact .inl (primaryPart_isData.1 ha)
  · have := evenPart_isData.1 ha
    omega
  · have := oddPart_isData.1 ha
    omega

theorem allParts_isEcc_bounds (ha : p.IsEcc a) : 10 ≤ a ∧ a < 20 ∨ Config.eccBase mode ≤ a ∧ a < 144 := by
  rcases mem_allParts.1 hp with rfl | rfl | rfl
  · exact .inl (primaryPart_isEcc.1 ha)
  · have := evenPart_isEcc.1 ha
    omega
  · have := oddPart_isEcc.1 ha
    omega

/-- The address of an ECC cell tells whose it is. -/
theorem allParts_eq_of_isEcc (ha : p.IsEcc a) :
    p = if a < 20 then primaryPart else if a % 2 = 0 then evenPart mode else oddPart mode := by
  have hbase := eccBase_eq mode
  rcases mem_allParts.1 hp with rfl | rfl | rfl
  · rw [if_pos (primaryPart_isEcc.1 ha).2]
  · obtain ⟨hlow, -, heven⟩ := evenPart_isEcc.1 ha
    rw [if_neg (by omega), if_pos heven]
  · obtain ⟨hlow, -, hodd⟩ := oddPart_isEcc.1 ha
    rw [if_neg (by omega), if_neg (by omega)]

theorem allParts_dataRun_inRange : runInRange p.dataBase p.stride p.len = true := by
  rw [runInRange_iff, or_iff_not_imp_left]
  intro hlen
  have hbase := eccBase_add_subNsym mode
  have := allParts_isData_bounds hp ⟨p.len - 1, by omega, rfl⟩
  omega

theorem allParts_eccRun_inRange : runInRange p.eccBase p.stride p.nsym.toNat = true := by
  rw [runInRange_iff, or_iff_not_imp_left]
  intro hnsym
  have := allParts_isEcc_bounds hp ⟨p.nsym.toNat - 1, by omega, rfl⟩
  omega

/-- No ECC cell of a part is a data cell of a part. -/
theorem allParts_isEcc_not_isData (hq : q ∈ allParts mode) (ha : p.IsEcc a) : ¬ q.IsData a := fun hdata => by
  have hecc := allParts_isEcc_bounds hp ha
  have hdata := allParts_isData_bounds hq hdata
  have hbase := eccBase_eq mode
  omega

/-- No ECC cell of a part is one of another part. -/
theorem allParts_isEcc_not_isEcc (hq : q ∈ allParts mode) (hpq : p ≠ q) (ha : p.IsEcc a) : ¬ q.IsEcc a := fun hecc =>
  hpq ((allParts_eq_of_isEcc hp ha).trans (allParts_eq_of_isEcc hq hecc).symm)

end

variable (mode) in
/-- Every cell of the buffer belongs to a part. -/
theorem exists_allParts_isData_or_isEcc (ha : a < 144) : ∃ p ∈ allParts mode, p.IsData a ∨ p.IsEcc a := by
  have hbase := eccBase_eq mode
  by_cases hprimary : a < 20
  · refine ⟨primaryPart, by simp [allParts], ?_⟩
    rw [primaryPart_isData, primaryPart_isEcc]
    omega
  · by_cases heven : a % 2 = 0
    · refine ⟨evenPart mode, by simp [allParts], ?_⟩
      rw [evenPart_isData, evenPart_isEcc]
      omega
    · refine ⟨oddPart mode, by simp [allParts], ?_⟩
      rw [oddPart_isData, oddPart_isEcc]
      omega

end

end Sys2Proof.Machine

/-! One part of the pass (42_ecc_pass.md R157): what it reads, what it leaves, and that what it writes is read by no
other part of its mode. -/

namespace Sys2Proof.Machine

/-! ## The input of a part, and what the part leaves -/

/-- The part is ready with the encoder `I`, and its data cells hold `d`. -/
structure Part.Encodes (p : Part) (s : State) (I : Encoder) (d : List Sym) : Prop where
  encoder : partEncoder s p = .ok I
  data : readRun s.cw p.dataBase p.stride p.len = .ok d

/-- What a part that writes leaves (R157). -/
def Part.written (p : Part) (s : State) (I : Encoder) (d : List Sym) : State :=
  { s.setResult I.nsym (I.lfsr d) with cw := s.cw.writeRun p.eccBase p.stride (I.lfsr d).reverse }

/-- The ECC cells of the part hold the result `r`, top cell first. -/
def Part.HoldsEcc (p : Part) (m : Memory) (r : List Sym) : Prop :=
  ∀ j, j < p.nsym.toNat → m.read (p.eccBase + j * p.stride) = r[p.nsym.toNat - 1 - j]?

theorem runPart_write_iff {p : Part} {s t : State} {b : Bool} :
    runPart true p s = .ok (t, b) ↔ b = true ∧ ∃ I d, p.Encodes s I d ∧ t = p.written s I d := by
  rw [runPart_write]
  constructor
  · rintro ⟨I, d, hI, hd, hb, rfl⟩
    exact ⟨hb, I, d, ⟨hI, hd⟩, rfl⟩
  · rintro ⟨hb, I, d, h, rfl⟩
    exact ⟨I, d, h.encoder, h.data, hb, rfl⟩

namespace Part.Encodes
variable {p : Part} {s : State} {I : Encoder} {d : List Sym} (h : p.Encodes s I d)
include h

theorem slot : s.slots[p.slot] = some I := (partEncoder_eq_ok.1 h.encoder).1

theorem nsym : I.nsym = p.nsym := (partEncoder_eq_ok.1 h.encoder).2

theorem ready : partReady s p = true := partReady_iff.2 ⟨I, h.slot, h.nsym⟩

theorem sound (hs : s.Inv) : I.sound = true := hs.slots _ I h.slot

theorem length : d.length = p.len := by
  obtain ⟨-, hlen, -⟩ := readRun_eq_ok.1 h.data
  exact hlen

theorem read {j : Nat} (hj : j < p.len) : s.cw.read (p.dataBase + j * p.stride) = d[j]? := by
  obtain ⟨-, -, hread⟩ := readRun_eq_ok.1 h.data
  exact hread j hj

/-- What the part reads, it reads only of the slots and of its data cells. -/
theorem congr {t : State} (hslots : t.slots = s.slots) (hcw : ∀ a, p.IsData a → t.cw.read a = s.cw.read a) :
    p.Encodes t I d where
  encoder := by rw [← h.encoder, partEncoder, partEncoder, hslots]
  data := by
    rw [← h.data]
    exact readRun_congr fun j hj => hcw _ ⟨j, hj, rfl⟩

/-- The input of a part is unique. -/
theorem unique {J : Encoder} {e : List Sym} (h' : p.Encodes s J e) : J = I ∧ e = d :=
  ⟨Except.ok.inj (h'.encoder.symm.trans h.encoder), Except.ok.inj (h'.data.symm.trans h.data)⟩

/-- A part that writes changes no cell but its ECC cells. -/
theorem read_written_of_not_isEcc {a : Nat} (ha : ¬ p.IsEcc a) : (p.written s I d).cw.read a = s.cw.read a := by
  refine Memory.read_writeRun_other _ _ _ _ _ fun j hj heq => ha ⟨j, ?_, heq⟩
  have hlen := lfsr_length_le I d
  rw [List.length_reverse] at hj
  rw [← h.nsym]
  omega

section
variable (hI : I.sound = true)
include hI

theorem lfsr_length : (I.lfsr d).length = p.nsym.toNat := by rw [sound_lfsr_length d hI, h.nsym]

theorem holdsEcc_written (hstride : 0 < p.stride) : p.HoldsEcc (p.written s I d).cw (I.lfsr d) := by
  intro j hj
  have hlen := h.lfsr_length hI
  have hread := Memory.read_writeRun_mem s.cw p.eccBase hstride (I.lfsr d).reverse
    (show j < (I.lfsr d).reverse.length by rwa [List.length_reverse, hlen])
  rw [List.getElem?_reverse (by rwa [hlen]), hlen] at hread
  exact hread

end

end Part.Encodes

/-! ## The ECC cells, read and compared -/

section
variable {p : Part} {m n : Memory} {r : List Sym}

theorem Part.HoldsEcc.congr (h : p.HoldsEcc m r) (hread : ∀ a, p.IsEcc a → n.read a = m.read a) : p.HoldsEcc n r :=
  fun j hj => (hread _ ⟨j, hj, rfl⟩).trans (h j hj)

/-- A list that the ECC cells hold is what a read of them gives, reversed. -/
theorem Part.HoldsEcc.readRun_eq {e : List Sym} (h : p.HoldsEcc m r) (hlen : r.length = p.nsym.toNat)
    (he : readRun m p.eccBase p.stride p.nsym.toNat = .ok e) : e = r.reverse := by
  obtain ⟨-, helen, hcells⟩ := readRun_eq_ok.1 he
  refine List.ext_getElem? fun j => ?_
  by_cases hj : j < p.nsym.toNat
  · rw [← hcells j hj, h j hj, List.getElem?_reverse (by omega), hlen]
  · rw [List.getElem?_eq_none (by omega), List.getElem?_eq_none (by rw [List.length_reverse]; omega)]

/-- `partmatch` of R157: the stored cells hold the result. -/
theorem eccEqual_iff_holdsEcc {e : List Sym} (hlen : r.length = p.nsym.toNat)
    (he : readRun m p.eccBase p.stride p.nsym.toNat = .ok e) : eccEqual e r = true ↔ p.HoldsEcc m r := by
  rw [eccEqual, beq_iff_eq]
  refine ⟨?_, fun h => h.readRun_eq hlen he⟩
  rintro rfl j hj
  obtain ⟨-, -, hcells⟩ := readRun_eq_ok.1 he
  rw [hcells j hj, List.getElem?_reverse (by omega), hlen]

end

/-! ## The parts of one mode do not disturb each other -/

section
variable {mode : BitVec 3} {p q : Part} (hp : p ∈ allParts mode) (hq : q ∈ allParts mode)
  {s : State} {I J : Encoder} {d e : List Sym}
include hp hq

/-- What a part writes is no input of a part. -/
theorem encodes_written_iff (h : p.Encodes s I d) : q.Encodes (p.written s I d) J e ↔ q.Encodes s J e := by
  have hread : ∀ a, q.IsData a → (p.written s I d).cw.read a = s.cw.read a := fun a ha =>
    h.read_written_of_not_isEcc fun hecc => allParts_isEcc_not_isData hp hq hecc ha
  exact ⟨fun hq => hq.congr rfl fun a ha => (hread a ha).symm, fun hq => hq.congr rfl hread⟩

/-- What a part writes overwrites no other part's ECC cells. -/
theorem holdsEcc_written_of_ne (h : p.Encodes s I d) (hpq : p ≠ q) {r : List Sym} (hr : q.HoldsEcc s.cw r) :
    q.HoldsEcc (p.written s I d).cw r :=
  hr.congr fun _ ha => h.read_written_of_not_isEcc fun hecc => allParts_isEcc_not_isEcc hp hq hpq hecc ha

end

/-- The input of a part of a mode, from the cells. -/
theorem allParts_encodes {mode : BitVec 3} {p : Part} (hp : p ∈ allParts mode) {s : State} {I : Encoder}
    {d : List Sym} (hslot : s.slots[p.slot] = some I) (hnsym : I.nsym = p.nsym) (hlen : d.length = p.len)
    (hcells : ∀ j, j < p.len → s.cw.read (p.dataBase + j * p.stride) = d[j]?) : p.Encodes s I d :=
  ⟨partEncoder_eq_ok.2 ⟨hslot, hnsym⟩, readRun_eq_ok.2 ⟨allParts_dataRun_inRange hp, hlen, hcells⟩⟩

/-! ## The pass commands -/

/-- Whether a pass command writes, and its parts (R152 to R156). -/
def passOf : Instr → Option (Bool × List Part)
  | .eccpri => some (true, [primaryPart])
  | .eccsece mode => some (true, [evenPart mode])
  | .eccseco mode => some (true, [oddPart mode])
  | .eccall mode => some (true, allParts mode)
  | .eccchk mode => some (false, allParts mode)
  | _ => none

/-- A pass command that writes, whole: R74's check of the mode, then the parts. -/
theorem exec_writingPass {i : Instr} {ps : List Part} (hi : passOf i = some (true, ps)) (s : State) :
    exec i s = command s (if !i.wellFormed then .error .badMode else writingPass ps s) := by
  cases i <;> cases hi <;> rfl

/-- A pass command whose parts fault. -/
theorem exec_pass_faultsWith {i : Instr} {w : Bool} {ps : List Part} {s : State} {f : FaultCode}
    (hi : passOf i = some (w, ps)) (herr : s.err = 0#4) (hlegal : i.wellFormed = true)
    (hf : passParts w ps s = .error f) : faultsWith (exec i s) s f := by
  cases w with
  | true =>
    rw [exec_writingPass hi]
    exact command_faultsWith herr (by simp [hlegal, writingPass, hf])
  | false =>
    cases i <;> cases hi
    have hmode : modeLegal _ = true := hlegal
    exact command_faultsWith herr (by simp [hmode, hf])

/-- A pass command that writes completes exactly when its parts do. -/
theorem exec_writingPass_iff {i : Instr} {ps : List Part} {s t : State} (hi : passOf i = some (true, ps))
    (herr : s.err = 0#4) :
    exec i s = .next t ∧ t.err = 0#4 ↔
      i.wellFormed = true ∧ ∃ u b, passParts true ps s = .ok (u, b) ∧ t = u.complete 0#16 := by
  rw [exec_writingPass hi]
  constructor
  · rintro ⟨h, ht⟩
    obtain ⟨u, data, hbody, rfl⟩ := command_completed h herr ht
    split_ifs at hbody with hlegal
    obtain ⟨rfl, b, hu⟩ := writingPass_eq_ok.1 hbody
    exact ⟨by simpa using hlegal, u, b, hu, rfl⟩
  · rintro ⟨hlegal, u, b, hu, rfl⟩
    refine ⟨command_ok herr ?_, (passParts_frame hu).1.err.trans herr⟩
    simp [hlegal, writingPass_eq_ok.2 ⟨rfl, b, hu⟩]

/-- A pass command on one part, whole. -/
theorem exec_part_iff {i : Instr} {p : Part} {s t : State} (hi : passOf i = some (true, [p])) (herr : s.err = 0#4) :
    exec i s = .next t ∧ t.err = 0#4 ↔
      i.wellFormed = true ∧ ∃ I d, p.Encodes s I d ∧ t = (p.written s I d).complete 0#16 := by
  rw [exec_writingPass_iff hi herr]
  refine and_congr_right fun _ => ⟨?_, ?_⟩
  · rintro ⟨u, b, hu, rfl⟩
    obtain ⟨-, hrun⟩ := passParts_eq_ok.1 hu
    obtain ⟨v, _, _, hpart, hnil, -⟩ := runParts_cons.1 hrun
    obtain ⟨-, I, d, hd, rfl⟩ := runPart_write_iff.1 hpart
    obtain ⟨rfl, -⟩ := runParts_nil.1 hnil
    exact ⟨I, d, hd, rfl⟩
  · rintro ⟨I, d, hd, rfl⟩
    have hrun := runParts_cons.2
      ⟨_, true, true, runPart_write_iff.2 ⟨rfl, I, d, hd, rfl⟩, runParts_nil.2 ⟨rfl, rfl⟩, rfl⟩
    exact ⟨_, _, passParts_eq_ok.2 ⟨by simpa using hd.ready, hrun⟩, rfl⟩

end Sys2Proof.Machine

/-! The pass commands on one part, `ECCPRI`, `ECCSECE` and `ECCSECO` (42_ecc_pass.md R152 to R154): what they write, that
they are `RSENC` and then `RSPUT` (R157), and that two of them commute (R158). -/

namespace Sys2Proof.Machine

/-! ## What they write -/

/-- A pass command on one part completes, in the statements' words. -/
theorem exec_part_of_encodes {mode : BitVec 3} {i : Instr} {p : Part} {s : State} {I : Encoder} {d : List Sym}
    (hi : passOf i = some (true, [p])) (hp : p ∈ allParts mode) (herr : s.err = 0#4) (hlegal : i.wellFormed = true)
    (h : p.Encodes s I d) (hI : I.sound = true) :
    ∃ t, exec i s = .next t ∧ t = { s with cw := t.cw, res := t.res, rlen := I.nsym, rsp := some 0x00000000#32 } ∧
      p.HoldsEcc t.cw (I.lfsr d) ∧ (∀ a, ¬ p.IsEcc a → t.cw.read a = s.cw.read a) ∧
      ∀ k : Fin 28, t.res[k] = (I.lfsr d)[k.val]? :=
  ⟨_, ((exec_part_iff hi herr).2 ⟨hlegal, I, d, h, rfl⟩).1, rfl, h.holdsEcc_written hI (allParts_stride_pos hp),
    fun _ => h.read_written_of_not_isEcc, fun k => resultCells_getElem _ _ k.isLt⟩

/-- The row of the mode table (R53), with `k` more for the first ECC cell. -/
theorem modeTable_row {mode : BitVec 3} {slot : Fin 3} {ns sub ebase k : Nat}
    (h5 : mode = 5#3 → slot = 2 ∧ ns = 28 ∧ sub = 34 ∧ ebase = 88 + k)
    (hne : mode ≠ 5#3 → slot = 1 ∧ ns = 20 ∧ sub = 42 ∧ ebase = 104 + k) :
    slot = Config.subSlot mode ∧ ns = (Config.subNsym mode).toNat ∧ sub = Config.subLength mode ∧
      ebase = Config.eccBase mode + k := by
  by_cases hmode : mode = 5#3
  · subst hmode
    exact h5 rfl
  · simpa [Config.subSlot, Config.subNsym, Config.subLength, Config.eccBase, Config.secondaryBase,
      Config.dataLength, hmode] using hne hmode

/-- Settles O41: `exec_part_of_encodes` for the primary part. -/
theorem eccpriEncodesThePrimaryBlock : Obligations.EccpriEncodesThePrimaryBlock := by
  intro s I d herr hslot hI hnsym hlen hcells
  have hp : primaryPart ∈ allParts 2#3 := primaryPart_mem
  have hencodes : primaryPart.Encodes s I d := allParts_encodes hp hslot hnsym hlen fun j hj => by
    simpa [primaryPart] using hcells j hj
  obtain ⟨t, ht, hframe, hecc, hother, hres⟩ := exec_part_of_encodes (i := .eccpri) rfl hp herr rfl hencodes hI
  rw [hnsym] at hframe
  refine ⟨t, ht, hframe, fun j hj => ?_, fun a ha => hother a ?_, hres⟩
  · simpa [primaryPart] using hecc j hj
  · rw [primaryPart_isEcc]
    omega

/-- A secondary part, whose cells are every second one, in the statements' words. -/
theorem exec_part_of_cells {mode : BitVec 3} {i : Instr} {p : Part} {s : State} {I : Encoder} {d : List Sym}
    (hi : passOf i = some (true, [p])) (hp : p ∈ allParts mode) (hstride : p.stride = 2) (herr : s.err = 0#4)
    (hlegal : i.wellFormed = true) (hslot : s.slots[p.slot] = some I) (hI : I.sound = true)
    (hnsym : I.nsym.toNat = p.nsym.toNat) (hlen : d.length = p.len)
    (hcells : ∀ j, j < p.len → s.cw.read (p.dataBase + 2 * j) = d[j]?) :
    ∃ t, exec i s = .next t ∧ t = { s with cw := t.cw, res := t.res, rlen := I.nsym, rsp := some 0x00000000#32 } ∧
      (∀ j, j < p.nsym.toNat → t.cw.read (p.eccBase + 2 * j) = (I.lfsr d)[p.nsym.toNat - 1 - j]?) ∧
      (∀ a, (∀ j, j < p.nsym.toNat → a ≠ p.eccBase + 2 * j) → t.cw.read a = s.cw.read a) ∧
      ∀ k : Fin 28, t.res[k] = (I.lfsr d)[k.val]? := by
  have hcell (base j : Nat) : base + 2 * j = base + j * p.stride := by rw [hstride, Nat.mul_comm]
  simp only [hcell] at hcells ⊢
  have hencodes := allParts_encodes hp hslot (BitVec.eq_of_toNat_eq hnsym) hlen hcells
  obtain ⟨t, ht, hframe, hecc, hother, hres⟩ := exec_part_of_encodes hi hp herr hlegal hencodes hI
  exact ⟨t, ht, hframe, hecc, fun a ha => hother a fun ⟨j, hj, heq⟩ => ha j hj heq, hres⟩

/-- Settles O42: `exec_part_of_cells` for the even part. -/
theorem eccseceEncodesTheEvenSubBlock : Obligations.EccseceEncodesTheEvenSubBlock := by
  intro mode s I d slot ns sub ebase hlow hhigh h5 hne herr hslot hI hnsym hlen hcells
  obtain ⟨rfl, rfl, rfl, rfl⟩ := modeTable_row (k := 0) h5 hne
  exact exec_part_of_cells (i := .eccsece mode) rfl evenPart_mem rfl herr
    (modeLegal_iff.2 ⟨hlow, hhigh⟩) hslot hI hnsym hlen hcells

/-- Settles O43: `exec_part_of_cells` for the odd part. -/
theorem eccsecoEncodesTheOddSubBlock : Obligations.EccsecoEncodesTheOddSubBlock := by
  intro mode s I d slot ns sub ebase hlow hhigh h5 hne herr hslot hI hnsym hlen hcells
  obtain ⟨rfl, rfl, rfl, rfl⟩ := modeTable_row (k := 1) h5 hne
  exact exec_part_of_cells (i := .eccseco mode) rfl oddPart_mem rfl herr
    (modeLegal_iff.2 ⟨hlow, hhigh⟩) hslot hI hnsym hlen hcells

/-! ## `RSENC` and then `RSPUT` (R157) -/

/-- The operands of `RSENC` and `RSPUT` that name the part's slot and cells. -/
structure Part.NamedBy (p : Part) (sel : BitVec 2) (len dataBase eccBase : BitVec 8) (stride : BitVec 4) : Prop where
  slot : slotIndex sel = some p.slot
  len : len.toNat = p.len
  dataBase : dataBase.toNat = p.dataBase
  eccBase : eccBase.toNat = p.eccBase
  stride : stride.toNat = p.stride

theorem primaryPart_namedBy : primaryPart.NamedBy 0#2 10#8 0#8 10#8 1#4 := ⟨rfl, rfl, rfl, rfl, rfl⟩

theorem evenPart_namedBy (mode : BitVec 3) :
    (evenPart mode).NamedBy (if mode = 5#3 then 2#2 else 1#2) (if mode = 5#3 then 34#8 else 42#8) 20#8
      (if mode = 5#3 then 88#8 else 104#8) 2#4 := by
  constructor <;> revert mode <;> decide

theorem oddPart_namedBy (mode : BitVec 3) :
    (oddPart mode).NamedBy (if mode = 5#3 then 2#2 else 1#2) (if mode = 5#3 then 34#8 else 42#8) 21#8
      ((if mode = 5#3 then 88#8 else 104#8) + 1#8) 2#4 := by
  constructor <;> revert mode <;> decide

/-- R157 for one part: `RSENC` leaves the result of the part's data, which `RSPUT` writes to its ECC cells. -/
theorem exec_rsenc_rsput_of_exec_part {mode : BitVec 3} {i : Instr} {p : Part} {s t : State} {sel : BitVec 2}
    {len dataBase eccBase : BitVec 8} {stride : BitVec 4} (hi : passOf i = some (true, [p])) (hp : p ∈ allParts mode)
    (hname : p.NamedBy sel len dataBase eccBase stride) (hs : s.Inv) (herr : s.err = 0#4) (ht : t.err = 0#4)
    (h : exec i s = .next t) :
    ∃ u, exec (.rsenc sel len dataBase stride) s = .next u ∧ exec (.rsput eccBase stride) u = .next t := by
  obtain ⟨-, I, d, hd, rfl⟩ := (exec_part_iff hi herr).1 ⟨h, ht⟩
  have hpos : 0 < stride.toNat := hname.stride ▸ allParts_stride_pos hp
  have hlegal : strideLegal stride = true := strideLegal_iff.2 fun hzero => by simp [hzero] at hpos
  have hI : I.sound = true := hd.sound hs
  obtain ⟨hlow, hhigh⟩ := sound_nsym hI
  have hresult : (s.setResult I.nsym (I.lfsr d)).result = some (I.lfsr d) :=
    result_setResult s I.nsym _ (sound_lfsr_length d hI) hhigh
  have hrun : resultRun ((s.setResult I.nsym (I.lfsr d)).complete 0#16) eccBase.toNat stride.toNat =
      .ok (I.lfsr d) := by
    refine resultRun_eq_ok.2 ⟨hpos.ne', fun hzero => ?_, ?_, hresult⟩
    · simp [show I.nsym = 0#5 from hzero] at hlow
    · rw [State.complete_rlen, State.setResult_rlen, hd.nsym, hname.eccBase, hname.stride]
      exact allParts_eccRun_inRange hp
  have herr' : ((s.setResult I.nsym (I.lfsr d)).complete 0#16).err = 0#4 := herr
  refine ⟨_, exec_rsenc_of_readRun_ok (d := d) herr hname.slot hlegal hd.slot ?_, ?_⟩
  · rw [hname.dataBase, hname.stride, hname.len, hd.data]
  · rw [exec_rsput_of_resultRun_ok herr' hrun, hname.eccBase, hname.stride]
    rfl

/-- Settles O47: `exec_rsenc_rsput_of_exec_part` for each of the three parts. -/
theorem passPartIsRsencThenRsput : Obligations.PassPartIsRsencThenRsput := fun mode _ _ hs herr ht =>
  ⟨exec_rsenc_rsput_of_exec_part (mode := mode) rfl primaryPart_mem primaryPart_namedBy hs herr ht,
    exec_rsenc_rsput_of_exec_part rfl evenPart_mem (evenPart_namedBy mode) hs herr ht,
    exec_rsenc_rsput_of_exec_part rfl oddPart_mem (oddPart_namedBy mode) hs herr ht⟩

/-! ## Two parts commute (R158) -/

/-- What a cell holds after a run was written depends on what that cell held before. -/
theorem Memory.read_writeRun_congr {m n : Memory} {a : Nat} (h : m.read a = n.read a) (base stride : Nat)
    (vs : List Sym) : (m.writeRun base stride vs).read a = (n.writeRun base stride vs).read a := by
  induction vs generalizing m n base with
  | nil => exact h
  | cons v vs ih => exact ih (by rw [Memory.read_write, Memory.read_write, h]) _

/-- A cell that the second part does not write holds the same if the second part comes first. -/
theorem read_written_comm {p q : Part} {s : State} {I J : Encoder} {d e : List Sym} (hq : q.Encodes s J e)
    (hq' : q.Encodes (p.written s I d) J e) {a : Nat} (ha : ¬ q.IsEcc a) :
    (q.written (p.written s I d) J e).cw.read a = (p.written (q.written s J e) I d).cw.read a :=
  calc (q.written (p.written s I d) J e).cw.read a
      = (p.written s I d).cw.read a := hq'.read_written_of_not_isEcc ha
    _ = (p.written (q.written s J e) I d).cw.read a :=
        Memory.read_writeRun_congr (hq.read_written_of_not_isEcc ha).symm _ _ _

/-- The commands of R158 each run one part of the mode. -/
theorem exists_part_of_mem {mode : BitVec 3} {i : Instr} (hi : i ∈ [Instr.eccpri, .eccsece mode, .eccseco mode]) :
    ∃ p ∈ allParts mode, passOf i = some (true, [p]) := by
  simp only [List.mem_cons, List.not_mem_nil, or_false] at hi
  rcases hi with rfl | rfl | rfl
  · exact ⟨primaryPart, primaryPart_mem, rfl⟩
  · exact ⟨evenPart mode, evenPart_mem, rfl⟩
  · exact ⟨oddPart mode, oddPart_mem, rfl⟩

/-- Settles O51: neither part writes what the other reads or writes, and sound buffers that read the same are the
same. -/
theorem passPartsCommute : Obligations.PassPartsCommute := by
  intro mode s s1 s2 a b ha hb hs herr h1 herr1 h2 herr2
  obtain ⟨p, hp, hpa⟩ := exists_part_of_mem ha
  obtain ⟨q, hq, hqb⟩ := exists_part_of_mem hb
  obtain ⟨hlegala, I, d, hd, rfl⟩ := (exec_part_iff hpa herr).1 ⟨h1, herr1⟩
  obtain ⟨hlegalb, J, e, he', rfl⟩ := (exec_part_iff hqb herr1).1 ⟨h2, herr2⟩
  have he'' : q.Encodes (p.written s I d) J e := he'.congr rfl fun _ _ => rfl
  have he : q.Encodes s J e := (encodes_written_iff hp hq hd).1 he''
  have hd'' : p.Encodes (q.written s J e) I d := (encodes_written_iff hq hp he).2 hd
  have hd' : p.Encodes ((q.written s J e).complete 0#16) I d := hd''.congr rfl fun _ _ => rfl
  obtain ⟨hu1, herru1⟩ := (exec_part_iff hqb herr).2 ⟨hlegalb, J, e, he, rfl⟩
  obtain ⟨hu2, herru2⟩ := (exec_part_iff hpa herru1).2 ⟨hlegala, I, d, hd', rfl⟩
  refine ⟨_, _, hu1, herru1, hu2, herru2, ?_⟩
  refine Memory.ext_of_wf (exec_inv (exec_inv hs hu1) hu2).cw (exec_inv (exec_inv hs h1) h2).cw fun c => ?_
  by_cases hpq : p = q
  · subst hpq
    obtain ⟨rfl, rfl⟩ := hd.unique he
    rfl
  · by_cases hc : q.IsEcc c
    · exact read_written_comm hd hd'' fun hpc => allParts_isEcc_not_isEcc hp hq hpq hpc hc
    · exact (read_written_comm he he'' hc).symm

end Sys2Proof.Machine

/-! Two facts about an encode for the laws of a whole pass (41_encode.md R132): one changed data symbol changes the
result, and an encoded block vanishes at the roots of the generator polynomial. -/

namespace Sys2Proof.Machine

/-! ## A changed data symbol changes the result -/

/-- Adding the same list can be undone. -/
theorem zipWith_xor_right_cancel {a b c : List Sym} (ha : a.length = c.length) (hb : b.length = c.length)
    (h : List.zipWith (· ^^^ ·) a c = List.zipWith (· ^^^ ·) b c) : a = b := by
  refine List.ext_getElem (ha.trans hb.symm) fun k hka hkb => ?_
  have hk := congrArg (·[k]?) h
  simpa [List.getElem?_zipWith, hka, hkb, ← ha] using hk

/-- Multiplying by the same non-zero symbol can be undone. -/
theorem Tables.PowersOf.gfmul_right_cancel {t : Tables} {poly : BitVec 8} (h : t.PowersOf poly) {a b c : Sym}
    (hc : c ≠ 0#6) (heq : t.gfmul a c = t.gfmul b c) : a = b := by
  have hzero : t.gfmul (a ^^^ b) c = 0#6 := by rw [h.xor_gfmul, heq, BitVec.xor_self]
  by_contra hne
  exact h.gfmul_ne_zero (fun hab => hne (BitVec.xor_eq_zero_iff.1 hab)) hc hzero

section
variable {I : Encoder} (h : I.sound = true)
include h

/-- The lowest tap is not 0 (R108). -/
theorem sound_taps_eq_cons : ∃ g gs, I.taps = g :: gs ∧ g ≠ 0#6 := by
  have hfirst := sound_gen_first h
  have hlen := sound_taps_length h
  have hpos := (sound_nsym h).1
  rw [sound_gen_eq_taps_append h] at hfirst
  cases htaps : I.taps with
  | nil =>
    rw [htaps, List.length_nil] at hlen
    omega
  | cons g gs =>
    rw [htaps] at hfirst
    exact ⟨g, gs, rfl, fun hg => hfirst (congrArg some hg)⟩

/-- One step of a register with the top cell `u`. -/
theorem shift_concat {r : List Sym} {u : Sym} (hr : (r ++ [u]).length = I.nsym.toNat) (x : Sym) :
    I.shift (r ++ [u]) x = List.zipWith (· ^^^ ·) (0#6 :: r) (I.taps.map (I.gfmul (u ^^^ x))) := by
  have hlen : (0#6 :: r).length = (I.taps.map (I.gfmul (u ^^^ x))).length := by
    rw [List.length_map, sound_taps_length h, ← hr]
    simp
  have happend := List.zipWith_append (f := (· ^^^ · : Sym → Sym → Sym)) (l₁' := [u]) (l₂' := []) hlen
  rw [shift_eq, List.getLastD_concat]
  simpa using happend

/-- A step can be undone but for the sum of the top cell and the data symbol: the lowest cell gives this sum, because
the lowest tap is not 0, and the sum gives the cells below the top. -/
theorem shift_concat_cancel {r r' : List Sym} {u u' x x' : Sym} (hr : (r ++ [u]).length = I.nsym.toNat)
    (hr' : (r' ++ [u']).length = I.nsym.toNat) (heq : I.shift (r ++ [u]) x = I.shift (r' ++ [u']) x') :
    r = r' ∧ u ^^^ x = u' ^^^ x' := by
  obtain ⟨g, gs, htaps, hg⟩ := sound_taps_eq_cons h
  have hlen := sound_taps_length h
  rw [shift_concat h hr, shift_concat h hr', htaps] at heq
  simp only [List.map_cons, List.zipWith_cons_cons, BitVec.zero_xor, List.cons.injEq] at heq
  obtain ⟨hlow, hrest⟩ := heq
  have hsum : u ^^^ x = u' ^^^ x' := (sound_powersOf h).gfmul_right_cancel hg hlow
  rw [hsum] at hrest
  simp only [htaps, List.length_cons, List.length_append, List.length_nil] at hlen hr hr'
  refine ⟨zipWith_xor_right_cancel ?_ ?_ hrest, hsum⟩ <;> rw [List.length_map] <;> omega

/-- A register as the cells below the top and the top cell. -/
theorem exists_eq_concat {r : List Sym} (hr : r.length = I.nsym.toNat) : ∃ l u, r = l ++ [u] := by
  have hpos := (sound_nsym h).1
  obtain rfl | ⟨l, u, rfl⟩ := List.eq_nil_or_concat r
  · rw [List.length_nil] at hr
    omega
  · exact ⟨l, u, List.concat_eq_append⟩

theorem shift_left_cancel {r : List Sym} {x y : Sym} (hr : r.length = I.nsym.toNat)
    (heq : I.shift r x = I.shift r y) : x = y := by
  obtain ⟨l, u, rfl⟩ := exists_eq_concat h hr
  obtain ⟨-, hsum⟩ := shift_concat_cancel h hr hr heq
  exact (BitVec.xor_right_inj u).1 hsum

theorem shift_right_cancel {r r' : List Sym} {x : Sym} (hr : r.length = I.nsym.toNat)
    (hr' : r'.length = I.nsym.toNat) (heq : I.shift r x = I.shift r' x) : r = r' := by
  obtain ⟨l, u, rfl⟩ := exists_eq_concat h hr
  obtain ⟨l', u', rfl⟩ := exists_eq_concat h hr'
  obtain ⟨rfl, hsum⟩ := shift_concat_cancel h hr hr' heq
  rw [(BitVec.xor_left_inj x).1 hsum]

theorem foldl_shift_right_cancel {d r r' : List Sym} (hr : r.length = I.nsym.toNat) (hr' : r'.length = I.nsym.toNat)
    (heq : d.foldl I.shift r = d.foldl I.shift r') : r = r' := by
  have hgen : I.nsym.toNat ≤ I.gen.length := by rw [sound_gen_length h]; omega
  induction d generalizing r r' with
  | nil => exact heq
  | cons x d ih => exact shift_right_cancel h hr hr' (ih (shift_length x hgen hr) (shift_length x hgen hr') heq)

/-- Encodes that differ in one data symbol differ. -/
theorem lfsr_append_cons_cancel {a b : List Sym} {x y : Sym} (heq : I.lfsr (a ++ x :: b) = I.lfsr (a ++ y :: b)) :
    x = y := by
  have hgen : I.nsym.toNat ≤ I.gen.length := by rw [sound_gen_length h]; omega
  have ha := sound_lfsr_length a h
  simp only [Encoder.lfsr, List.foldl_append, List.foldl_cons] at heq
  exact shift_left_cancel h ha
    (foldl_shift_right_cancel h (shift_length x hgen ha) (shift_length y hgen ha) heq)

theorem getElem?_of_lfsr_set {d : List Sym} {k : Nat} {v : Sym} (hk : k < d.length)
    (heq : I.lfsr (d.set k v) = I.lfsr d) : d[k]? = some v := by
  have hsplit : d = d.take k ++ d[k] :: d.drop (k + 1) := by simp
  rw [List.set_eq_take_append_cons_drop, if_pos hk] at heq
  conv at heq => rhs; rw [hsplit]
  rw [List.getElem?_eq_getElem hk, lfsr_append_cons_cancel h heq]

end

/-! ## An encoded block vanishes at the roots -/

namespace Tables.PowersOf
variable {t : Tables} {poly : BitVec 8} (h : t.PowersOf poly)
include h

theorem evalAt_polyAdd (a b : List Sym) (x : Sym) : t.evalAt (polyAdd a b) x = t.evalAt a x ^^^ t.evalAt b x := by
  induction a generalizing b with
  | nil =>
    have hb : polyAdd [] b = b := by simp [polyAdd]
    rw [hb]
    exact BitVec.zero_xor.symm
  | cons c a ih =>
    cases b with
    | nil =>
      have ha : polyAdd (c :: a) [] = c :: a := by simp [polyAdd]
      rw [ha]
      exact BitVec.xor_zero.symm
    | cons e b =>
      have hadd : polyAdd (c :: a) (e :: b) = (c ^^^ e) :: polyAdd a b := rfl
      rw [hadd, evalAt_cons, evalAt_cons, evalAt_cons, ih, h.xor_gfmul]
      ac_rfl

theorem evalAt_map_gfmul (c : Sym) (g : List Sym) (x : Sym) :
    t.evalAt (g.map (t.gfmul c)) x = t.gfmul c (t.evalAt g x) := by
  induction g with
  | nil => exact (gfmul_zero t c).symm
  | cons a g ih => rw [List.map_cons, evalAt_cons, evalAt_cons, ih, h.gfmul_xor, h.gfmul_assoc]

end Tables.PowersOf

section
variable {I : Encoder} (h : I.sound = true)
include h

/-- The value of a product is the product of the values. -/
theorem evalAt_polyMul (q g : List Sym) (x : Sym) :
    I.evalAt (I.polyMul q g) x = I.gfmul (I.evalAt q x) (I.evalAt g x) := by
  have hp := sound_powersOf h
  induction q with
  | nil => exact (zero_gfmul I.toTables _).symm
  | cons c q ih =>
    by_cases hq : q = []
    · have hone : I.evalAt [c] x = c := by
        show I.gfmul 0#6 x ^^^ c = c
        rw [zero_gfmul, BitVec.zero_xor]
      rw [hq, polyMul_singleton, hone, hp.evalAt_map_gfmul]
    · rw [polyMul_cons I c hq, hp.evalAt_polyAdd, hp.evalAt_map_gfmul, evalAt_cons, BitVec.xor_zero, ih, evalAt_cons,
        hp.xor_gfmul, hp.gfmul_right_comm, BitVec.xor_comm]

/-- R159 for one block: the syndromes of a multiple of the generator polynomial are 0. -/
theorem syndrome_eq_zero {q c : List Sym} (hc : I.polyMul q I.gen = c.reverse) {j : Nat} (hj : j < I.nsym.toNat) :
    I.syndrome c j = 0#6 := by
  have hblock := blockAt_reverse I c.reverse (I.alogMod (I.root.toNat + j))
  rw [List.reverse_reverse] at hblock
  rw [Encoder.syndrome, hblock, ← hc, evalAt_polyMul h, sound_gen_root h hj, gfmul_zero]

end

end Sys2Proof.Machine

/-! The pass commands on all three parts, `ECCALL` and `ECCCHK` (42_ecc_pass.md R155, R156), and R156's two laws. -/

namespace Sys2Proof.Machine

/-! ## The input and the result of a whole pass -/

/-- The inputs of the three parts of a mode; one encoder serves the even and the odd part (20_memory.md R53). -/
structure PassInput (mode : BitVec 3) (s : State) (P I : Encoder) (dp de dd : List Sym) : Prop where
  primary : primaryPart.Encodes s P dp
  even : (evenPart mode).Encodes s I de
  odd : (oddPart mode).Encodes s I dd

/-- The ECC cells of the three parts hold the results of the data. -/
structure PassHolds (mode : BitVec 3) (m : Memory) (P I : Encoder) (dp de dd : List Sym) : Prop where
  primary : primaryPart.HoldsEcc m (P.lfsr dp)
  even : (evenPart mode).HoldsEcc m (I.lfsr de)
  odd : (oddPart mode).HoldsEcc m (I.lfsr dd)

/-- What the three parts leave when they write. -/
def passWritten (mode : BitVec 3) (s : State) (P I : Encoder) (dp de dd : List Sym) : State :=
  (oddPart mode).written ((evenPart mode).written (primaryPart.written s P dp) I de) I dd

section
variable {mode : BitVec 3}

theorem primaryPart_ne_evenPart : primaryPart ≠ evenPart mode := fun heq => by cases congrArg Part.stride heq

theorem primaryPart_ne_oddPart : primaryPart ≠ oddPart mode := fun heq => by cases congrArg Part.stride heq

theorem evenPart_ne_oddPart : evenPart mode ≠ oddPart mode := fun heq => by cases congrArg Part.dataBase heq

/-- Three parts that complete one after another. -/
theorem runParts_allParts {w : Bool} {s s1 s2 s3 : State} {b1 b2 b3 : Bool}
    (h1 : runPart w primaryPart s = .ok (s1, b1)) (h2 : runPart w (evenPart mode) s1 = .ok (s2, b2))
    (h3 : runPart w (oddPart mode) s2 = .ok (s3, b3)) :
    runParts w (allParts mode) s = .ok (s3, b1 && (b2 && b3)) := by
  have hodd : runParts w [oddPart mode] s2 = .ok (s3, b3) :=
    runParts_cons.2 ⟨s3, b3, true, h3, runParts_nil.2 ⟨rfl, rfl⟩, (Bool.and_true b3).symm⟩
  have heven : runParts w [evenPart mode, oddPart mode] s1 = .ok (s3, b2 && b3) :=
    runParts_cons.2 ⟨s2, b2, b3, h2, hodd, rfl⟩
  exact runParts_cons.2 ⟨s1, b1, b2 && b3, h1, heven, rfl⟩

variable {s : State} {P I : Encoder} {dp de dd : List Sym}

namespace PassInput
variable (h : PassInput mode s P I dp de dd)
include h

theorem congr {t : State} (hslots : t.slots = s.slots) (hcw : t.cw = s.cw) : PassInput mode t P I dp de dd :=
  ⟨h.primary.congr hslots fun _ _ => by rw [hcw], h.even.congr hslots fun _ _ => by rw [hcw],
    h.odd.congr hslots fun _ _ => by rw [hcw]⟩

theorem ready {p : Part} (hp : p ∈ allParts mode) : partReady s p = true := by
  rcases mem_allParts.1 hp with rfl | rfl | rfl
  · exact h.primary.ready
  · exact h.even.ready
  · exact h.odd.ready

/-- A part that writes keeps the input of all three. -/
theorem written {p : Part} (hp : p ∈ allParts mode) {J : Encoder} {e : List Sym} (hJ : p.Encodes s J e) :
    PassInput mode (p.written s J e) P I dp de dd :=
  ⟨(encodes_written_iff hp primaryPart_mem hJ).2 h.primary, (encodes_written_iff hp evenPart_mem hJ).2 h.even,
    (encodes_written_iff hp oddPart_mem hJ).2 h.odd⟩

theorem afterPrimary : PassInput mode (primaryPart.written s P dp) P I dp de dd := h.written primaryPart_mem h.primary

theorem afterEven : PassInput mode ((evenPart mode).written (primaryPart.written s P dp) I de) P I dp de dd :=
  h.afterPrimary.written evenPart_mem h.afterPrimary.even

theorem passWritten : PassInput mode (passWritten mode s P I dp de dd) P I dp de dd :=
  h.afterEven.written oddPart_mem h.afterEven.odd

theorem read_passWritten {a : Nat} (ha : ∀ p ∈ allParts mode, ¬ p.IsEcc a) :
    (Machine.passWritten mode s P I dp de dd).cw.read a = s.cw.read a :=
  (h.afterEven.odd.read_written_of_not_isEcc (ha _ oddPart_mem)).trans
    ((h.afterPrimary.even.read_written_of_not_isEcc (ha _ evenPart_mem)).trans
      (h.primary.read_written_of_not_isEcc (ha _ primaryPart_mem)))

theorem runParts_write : runParts true (allParts mode) s = .ok (Machine.passWritten mode s P I dp de dd, true) :=
  runParts_allParts (runPart_write_iff.2 ⟨rfl, P, dp, h.primary, rfl⟩)
    (runPart_write_iff.2 ⟨rfl, I, de, h.afterPrimary.even, rfl⟩)
    (runPart_write_iff.2 ⟨rfl, I, dd, h.afterEven.odd, rfl⟩)

theorem holds_passWritten (hP : P.sound = true) (hI : I.sound = true) :
    PassHolds mode (Machine.passWritten mode s P I dp de dd).cw P I dp de dd where
  primary :=
    holdsEcc_written_of_ne oddPart_mem primaryPart_mem h.afterEven.odd primaryPart_ne_oddPart.symm
      (holdsEcc_written_of_ne evenPart_mem primaryPart_mem h.afterPrimary.even primaryPart_ne_evenPart.symm
        (h.primary.holdsEcc_written hP Nat.one_pos))
  even :=
    holdsEcc_written_of_ne oddPart_mem evenPart_mem h.afterEven.odd evenPart_ne_oddPart.symm
      (h.afterPrimary.even.holdsEcc_written hI Nat.two_pos)
  odd := h.afterEven.odd.holdsEcc_written hI Nat.two_pos

end PassInput

/-- The three parts that write, whole. -/
theorem passInput_of_runParts {t : State} {b : Bool} (hrun : runParts true (allParts mode) s = .ok (t, b)) :
    ∃ P I dp de dd, PassInput mode s P I dp de dd ∧ t = passWritten mode s P I dp de dd := by
  obtain ⟨s1, _, _, hprimary, hrest, -⟩ := runParts_cons.1 hrun
  obtain ⟨s2, _, _, heven, hrest, -⟩ := runParts_cons.1 hrest
  obtain ⟨s3, _, _, hodd, hnil, -⟩ := runParts_cons.1 hrest
  obtain ⟨-, P, dp, hP, rfl⟩ := runPart_write_iff.1 hprimary
  obtain ⟨-, I, de, hI, rfl⟩ := runPart_write_iff.1 heven
  obtain ⟨-, J, dd, hJ, rfl⟩ := runPart_write_iff.1 hodd
  obtain ⟨rfl, -⟩ := runParts_nil.1 hnil
  have hI' := (encodes_written_iff primaryPart_mem evenPart_mem hP).1 hI
  have hJ' := (encodes_written_iff primaryPart_mem oddPart_mem hP).1
    ((encodes_written_iff evenPart_mem oddPart_mem hI).1 hJ)
  obtain rfl : I = J := Option.some.inj (hI'.slot.symm.trans hJ'.slot)
  exact ⟨P, I, dp, de, dd, ⟨hP, hI', hJ'⟩, rfl⟩

/-! ## `ECCALL` -/

/-- `ECCALL`, whole (R155). -/
theorem exec_eccall_iff {t : State} (herr : s.err = 0#4) :
    exec (.eccall mode) s = .next t ∧ t.err = 0#4 ↔ modeLegal mode = true ∧
      ∃ P I dp de dd, PassInput mode s P I dp de dd ∧ t = (passWritten mode s P I dp de dd).complete 0#16 := by
  rw [exec_writingPass_iff (i := .eccall mode) rfl herr]
  refine and_congr_right fun _ => ⟨?_, ?_⟩
  · rintro ⟨u, b, hu, rfl⟩
    obtain ⟨-, hrun⟩ := passParts_eq_ok.1 hu
    obtain ⟨P, I, dp, de, dd, h, rfl⟩ := passInput_of_runParts hrun
    exact ⟨P, I, dp, de, dd, h, rfl⟩
  · rintro ⟨P, I, dp, de, dd, h, rfl⟩
    exact ⟨_, true, passParts_eq_ok.2 ⟨fun _ hp => h.ready hp, h.runParts_write⟩, rfl⟩

/-- Settles O48: the parts compose, since a response is no input of a part. -/
theorem eccallEqualsTheThreeParts : Obligations.EccallEqualsTheThreeParts := by
  intro mode s s1 s2 s3 herr h1 herr1 h2 herr2 h3 herr3
  obtain ⟨-, P, dp, hP, rfl⟩ := (exec_part_iff (i := .eccpri) rfl herr).1 ⟨h1, herr1⟩
  obtain ⟨hmode, I, de, hI, rfl⟩ := (exec_part_iff (i := .eccsece mode) rfl herr1).1 ⟨h2, herr2⟩
  obtain ⟨-, J, dd, hJ, rfl⟩ := (exec_part_iff (i := .eccseco mode) rfl herr2).1 ⟨h3, herr3⟩
  obtain rfl : I = J := Option.some.inj (hI.slot.symm.trans hJ.slot)
  have hI' : (evenPart mode).Encodes (primaryPart.written s P dp) I de := hI.congr rfl fun _ _ => rfl
  have hJ' : (oddPart mode).Encodes ((evenPart mode).written (primaryPart.written s P dp) I de) I dd :=
    hJ.congr rfl fun _ _ => rfl
  have hinput : PassInput mode s P I dp de dd :=
    ⟨hP, (encodes_written_iff primaryPart_mem evenPart_mem hP).1 hI',
      (encodes_written_iff primaryPart_mem oddPart_mem hP).1
        ((encodes_written_iff evenPart_mem oddPart_mem hI').1 hJ')⟩
  exact ((exec_eccall_iff herr).2 ⟨hmode, P, I, dp, de, dd, hinput, rfl⟩).1

/-- What `ECCALL` leaves on a sound state: the same inputs, their results in the ECC cells, and the odd part's in
`RES`. -/
theorem exec_eccall_leaves {t : State} (hs : s.Inv) (herr : s.err = 0#4) (h : exec (.eccall mode) s = .next t)
    (ht : t.err = 0#4) :
    modeLegal mode = true ∧ ∃ P I dp de dd, P.sound = true ∧ I.sound = true ∧ PassInput mode t P I dp de dd ∧
      PassHolds mode t.cw P I dp de dd ∧ t.setResult I.nsym (I.lfsr dd) = t := by
  obtain ⟨hmode, P, I, dp, de, dd, hinput, rfl⟩ := (exec_eccall_iff herr).1 ⟨h, ht⟩
  have hP := hinput.primary.sound hs
  have hI := hinput.even.sound hs
  exact ⟨hmode, P, I, dp, de, dd, hP, hI, hinput.passWritten.congr rfl rfl, hinput.holds_passWritten hP hI, rfl⟩

/-! ## `ECCCHK` -/

/-- A part that compares, on written ECC cells (R157). -/
theorem exists_runPart_compare {p : Part} (hp : p ∈ allParts mode) {d : List Sym} (h : p.Encodes s I d)
    (hI : I.sound = true) (hwritten : ∀ a, p.IsEcc a → s.cw.read a ≠ none) :
    ∃ b, runPart false p s = .ok (s.setResult I.nsym (I.lfsr d), b) ∧ (b = true ↔ p.HoldsEcc s.cw (I.lfsr d)) := by
  obtain ⟨e, he⟩ := exists_readRun_eq_ok (allParts_eccRun_inRange hp) fun j hj => hwritten _ ⟨j, hj, rfl⟩
  exact ⟨_, runPart_compare.2 ⟨I, d, e, h.encoder, h.data, by rw [h.nsym, he], rfl, rfl⟩,
    eccEqual_iff_holdsEcc (h.lfsr_length hI) he⟩

/-- `ECCCHK` on written ECC cells (R156). -/
theorem PassInput.exec_eccchk (h : PassInput mode s P I dp de dd) (hP : P.sound = true) (hI : I.sound = true)
    (hwritten : ∀ p ∈ allParts mode, ∀ a, p.IsEcc a → s.cw.read a ≠ none) (herr : s.err = 0#4)
    (hmode : modeLegal mode = true) :
    ∃ b, exec (.eccchk mode) s = .next (((s.setResult I.nsym (I.lfsr dd)).setMatch b).complete (bitData b)) ∧
      (b = true ↔ PassHolds mode s.cw P I dp de dd) := by
  have h1 : PassInput mode (s.setResult P.nsym (P.lfsr dp)) P I dp de dd := h.congr rfl rfl
  have h2 : PassInput mode (s.setResult I.nsym (I.lfsr de)) P I dp de dd := h.congr rfl rfl
  obtain ⟨bp, hprimary, hbp⟩ := exists_runPart_compare (mode := mode) primaryPart_mem h.primary hP
    (hwritten _ primaryPart_mem)
  obtain ⟨be, heven, hbe⟩ := exists_runPart_compare evenPart_mem h1.even hI (hwritten _ evenPart_mem)
  obtain ⟨bo, hodd, hbo⟩ := exists_runPart_compare oddPart_mem h2.odd hI (hwritten _ oddPart_mem)
  have hpass := passParts_eq_ok.2 ⟨fun _ hp => h.ready hp, runParts_allParts hprimary heven hodd⟩
  refine ⟨bp && (be && bo), ?_, ?_⟩
  · refine command_ok herr ?_
    simp only [hmode, hpass]
    rfl
  · rw [Bool.and_eq_true, Bool.and_eq_true, hbp, hbe, hbo]
    exact ⟨fun ⟨hp, he, ho⟩ => ⟨hp, he, ho⟩, fun ⟨hp, he, ho⟩ => ⟨hp, he, ho⟩⟩

/-- ECC cells that hold a result are written. -/
theorem Part.HoldsEcc.read_ne_none {p : Part} {m : Memory} {r : List Sym} (h : p.HoldsEcc m r)
    (hlen : r.length = p.nsym.toNat) {a : Nat} (ha : p.IsEcc a) : m.read a ≠ none := by
  obtain ⟨j, hj, rfl⟩ := ha
  rw [h j hj, List.getElem?_eq_getElem (by omega)]
  nofun

/-- After a pass all ECC cells are written. -/
theorem PassHolds.read_ne_none (h : PassHolds mode s.cw P I dp de dd) (hin : PassInput mode s P I dp de dd)
    (hP : P.sound = true) (hI : I.sound = true) {p : Part} (hp : p ∈ allParts mode) {a : Nat} (ha : p.IsEcc a) :
    s.cw.read a ≠ none := by
  rcases mem_allParts.1 hp with rfl | rfl | rfl
  · exact h.primary.read_ne_none (hin.primary.lfsr_length hP) ha
  · exact h.even.read_ne_none (hin.even.lfsr_length hI) ha
  · exact h.odd.read_ne_none (hin.odd.lfsr_length hI) ha

end

/-- Settles O49: `ECCALL` leaves the inputs and their results, so every comparison holds and `RES` stays. -/
theorem eccchkMatchesAfterEccall : Obligations.EccchkMatchesAfterEccall := by
  intro mode s t hs herr h ht
  obtain ⟨hmode, P, I, dp, de, dd, hP, hI, hinput, hholds, hres⟩ := exec_eccall_leaves hs herr h ht
  obtain ⟨b, hexec, hb⟩ :=
    hinput.exec_eccchk hP hI (fun _ hp _ ha => hholds.read_ne_none hinput hP hI hp ha) ht hmode
  rw [hexec, hres, hb.2 hholds]
  rfl

/-! ## One changed cell (R156) -/

section
variable {mode : BitVec 3} {p : Part} {s : State} {I : Encoder} {d : List Sym} {a : Nat} {v : Sym}

theorem Memory.read_write_ne_none {m : Memory} {b : Nat} (h : m.read b ≠ none) : (m.write a v).read b ≠ none := by
  rw [Memory.read_write]
  split
  · nofun
  · exact h

/-- A part whose data is written is ready after a store too. -/
theorem Part.Encodes.exists_write (h : p.Encodes s I d) :
    ∃ e, p.Encodes { s with cw := s.cw.write a v } I e := by
  obtain ⟨hrange, hlen, hread⟩ := readRun_eq_ok.1 h.data
  obtain ⟨e, he⟩ := exists_readRun_eq_ok (m := s.cw.write a v) hrange fun j hj => Memory.read_write_ne_none (by
    rw [hread j hj, List.getElem?_eq_getElem (by omega)]
    nofun)
  exact ⟨e, h.encoder, he⟩

/-- Two results that the same ECC cells hold are equal. -/
theorem Part.HoldsEcc.unique {m : Memory} {r r' : List Sym} (h : p.HoldsEcc m r) (h' : p.HoldsEcc m r')
    (hlen : r.length = p.nsym.toNat) (hlen' : r'.length = p.nsym.toNat) : r = r' := by
  refine List.ext_getElem? fun k => ?_
  by_cases hk : k < p.nsym.toNat
  · have hcell := (h (p.nsym.toNat - 1 - k) (by omega)).symm.trans (h' (p.nsym.toNat - 1 - k) (by omega))
    rwa [show p.nsym.toNat - 1 - (p.nsym.toNat - 1 - k) = k by omega] at hcell
  · rw [List.getElem?_eq_none (by omega), List.getElem?_eq_none (by omega)]

variable {e : List Sym} (hp : p ∈ allParts mode) (h : p.Encodes s I d)
  (h' : p.Encodes { s with cw := s.cw.write a v } I e)
include hp h h'

/-- A store to an ECC cell changes no data symbol. -/
theorem encodes_write_of_isEcc (ha : p.IsEcc a) : e = d := by
  refine (h.unique (h'.congr (t := s) rfl fun b hb => ?_)).2
  exact (Memory.read_write_ne _ _ (by rintro rfl; exact allParts_isEcc_not_isData hp hp ha hb)).symm

/-- A store to a data cell changes one data symbol. -/
theorem encodes_write_of_isData {k : Nat} (hk : k < p.len) (ha : a = p.dataBase + k * p.stride) : e = d.set k v := by
  subst ha
  refine List.ext_getElem? fun j => ?_
  have hd := h.length
  have he := h'.length
  by_cases hj : j < p.len
  · have hcell : p.dataBase + j * p.stride = p.dataBase + k * p.stride ↔ k = j := by
      rw [Nat.add_left_cancel_iff, Nat.mul_left_inj (allParts_stride_pos hp).ne', eq_comm]
    rw [← h'.read hj, Memory.read_write, h.read hj, List.getElem?_set]
    simp only [hcell, hd, hk, if_true]
  · rw [List.getElem?_eq_none (by omega), List.getElem?_eq_none (by rw [List.length_set]; omega)]

/-- If a store to a cell of a part leaves the ECC cells equal to the results, before and after, the cell held the
value before: two results that differ in one data symbol differ. -/
theorem read_eq_of_holdsEcc_write (hI : I.sound = true) (hecc : p.HoldsEcc s.cw (I.lfsr d))
    (hecc' : p.HoldsEcc (s.cw.write a v) (I.lfsr e)) (ha : p.IsData a ∨ p.IsEcc a) : s.cw.read a = some v := by
  rcases ha with hdata | ha
  · obtain ⟨k, hk, heq⟩ := id hdata
    have hset := encodes_write_of_isData hp h h' hk heq
    have hsame : p.HoldsEcc s.cw (I.lfsr e) := hecc'.congr fun b hb =>
      (Memory.read_write_ne _ _ (by rintro rfl; exact allParts_isEcc_not_isData hp hp hb hdata)).symm
    have hlfsr := hsame.unique hecc (h'.lfsr_length hI) (h.lfsr_length hI)
    rw [hset] at hlfsr
    rw [heq, h.read hk]
    exact getElem?_of_lfsr_set hI (by rwa [h.length]) hlfsr
  · obtain rfl := encodes_write_of_isEcc hp h h' ha
    obtain ⟨j, hj, rfl⟩ := ha
    rw [hecc j hj, ← hecc' j hj, Memory.read_write_self]

end

/-- Settles O50: the changed cell is a cell of one part, whose comparison `read_eq_of_holdsEcc_write` rules out. -/
theorem eccchkDetectsAnyChangedCell : Obligations.EccchkDetectsAnyChangedCell := by
  intro mode s t a v hs herr h ht ha hne
  obtain ⟨hmode, P, I, dp, de, dd, hP, hI, hinput, hholds, -⟩ := exec_eccall_leaves hs herr h ht
  obtain ⟨dp', hp'⟩ := hinput.primary.exists_write (a := a) (v := v)
  obtain ⟨de', he'⟩ := hinput.even.exists_write (a := a) (v := v)
  obtain ⟨dd', ho'⟩ := hinput.odd.exists_write (a := a) (v := v)
  have hinput' : PassInput mode { t with cw := t.cw.write a v } P I dp' de' dd' := ⟨hp', he', ho'⟩
  obtain ⟨b, hexec, hb⟩ := hinput'.exec_eccchk hP hI
    (fun _ hp _ hc => Memory.read_write_ne_none (hholds.read_ne_none hinput hP hI hp hc)) ht hmode
  have hfalse : b = false := by
    refine Bool.eq_false_iff.2 fun htrue => hne ?_
    have hholds' := hb.1 htrue
    obtain ⟨p, hp, hcell⟩ := exists_allParts_isData_or_isEcc mode ha
    rcases mem_allParts.1 hp with rfl | rfl | rfl
    · exact read_eq_of_holdsEcc_write hp hinput.primary hp' hP hholds.primary hholds'.primary hcell
    · exact read_eq_of_holdsEcc_write hp hinput.even he' hI hholds.even hholds'.even hcell
    · exact read_eq_of_holdsEcc_write hp hinput.odd ho' hI hholds.odd hholds'.odd hcell
  subst hfalse
  exact ⟨_, hexec, ht, rfl, rfl⟩

end Sys2Proof.Machine

/-! A whole pass cell by cell (42_ecc_pass.md R155, R156), and the three blocks it leaves (R159). -/

namespace Sys2Proof.Machine

/-! ## The cells -/

section
variable {mode : BitVec 3} {s : State} {P I : Encoder} {dp de dd : List Sym}

/-- The input of a pass, from the cells. -/
theorem passInput_of_cells (hPslot : s.slots[(0 : Fin 3)] = some P) (hP : P.nsym = 10#5)
    (hIslot : s.slots[Config.subSlot mode] = some I) (hI : I.nsym.toNat = (Config.subNsym mode).toNat)
    (hdp : dp.length = 10) (hprimary : ∀ j, j < 10 → s.cw.read j = dp[j]?)
    (hde : de.length = Config.subLength mode)
    (heven : ∀ j, j < Config.subLength mode → s.cw.read (20 + 2 * j) = de[j]?)
    (hdd : dd.length = Config.subLength mode)
    (hodd : ∀ j, j < Config.subLength mode → s.cw.read (21 + 2 * j) = dd[j]?) : PassInput mode s P I dp de dd where
  primary := allParts_encodes (mode := mode) primaryPart_mem hPslot hP hdp fun j hj => by
    simpa [primaryPart] using hprimary j hj
  even := allParts_encodes evenPart_mem hIslot (BitVec.eq_of_toNat_eq hI) hde fun j hj => by
    rw [← heven j hj, Nat.mul_comm]
    rfl
  odd := allParts_encodes oddPart_mem hIslot (BitVec.eq_of_toNat_eq hI) hdd fun j hj => by
    rw [← hodd j hj, Nat.mul_comm]
    rfl

/-- The result of a pass, cell by cell. -/
theorem passHolds_iff {m : Memory} :
    PassHolds mode m P I dp de dd ↔ (∀ j, j < 10 → m.read (10 + j) = (P.lfsr dp)[9 - j]?) ∧
      (∀ j, j < (Config.subNsym mode).toNat →
        m.read (Config.eccBase mode + 2 * j) = (I.lfsr de)[(Config.subNsym mode).toNat - 1 - j]?) ∧
      ∀ j, j < (Config.subNsym mode).toNat →
        m.read (Config.eccBase mode + 1 + 2 * j) = (I.lfsr dd)[(Config.subNsym mode).toNat - 1 - j]? := by
  have hprimary : primaryPart.HoldsEcc m (P.lfsr dp) ↔ ∀ j, j < 10 → m.read (10 + j) = (P.lfsr dp)[9 - j]? := by
    simp [Part.HoldsEcc, primaryPart]
  rw [← hprimary]
  simp only [Nat.mul_comm 2]
  exact ⟨fun ⟨hp, he, ho⟩ => ⟨hp, he, ho⟩, fun ⟨hp, he, ho⟩ => ⟨hp, he, ho⟩⟩

end

/-- Settles O44: `exec_eccall_iff`, and what the three parts leave. -/
theorem eccallEncodesTheWholeBuffer : Obligations.EccallEncodesTheWholeBuffer := by
  intro mode s P I dp de dd slot ns sub ebase hlow hhigh h5 hne herr hPslot hP hPnsym hIslot hI hInsym hdp hprimary hde
    heven hdd hodd
  obtain ⟨rfl, rfl, rfl, rfl⟩ := modeTable_row (k := 0) h5 hne
  have hinput := passInput_of_cells hPslot hPnsym hIslot hInsym hdp hprimary hde heven hdd hodd
  obtain ⟨hp, he, ho⟩ := passHolds_iff.1 (hinput.holds_passWritten hP hI)
  obtain ⟨hexec, -⟩ :=
    (exec_eccall_iff herr).2 ⟨modeLegal_iff.2 ⟨hlow, hhigh⟩, P, I, dp, de, dd, hinput, rfl⟩
  refine ⟨_, hexec, rfl, hp, he, ho, fun a ha => hinput.read_passWritten fun p hp hecc => ?_,
    fun k => resultCells_getElem _ _ k.isLt⟩
  have hbounds := allParts_isEcc_bounds hp hecc
  have hbase := eccBase_eq mode
  omega

/-- Settles O45: `PassInput.exec_eccchk`, whose flag says that the cells hold the results. -/
theorem eccchkComparesTheWholeBuffer : Obligations.EccchkComparesTheWholeBuffer := by
  intro mode s P I dp de dd slot ns sub ebase hlow hhigh h5 hne herr hPslot hP hPnsym hIslot hI hInsym hdp hprimary hde
    heven hdd hodd hwritten
  obtain ⟨rfl, rfl, rfl, rfl⟩ := modeTable_row (k := 0) h5 hne
  have hinput := passInput_of_cells hPslot hPnsym hIslot hInsym hdp hprimary hde heven hdd hodd
  obtain ⟨b, hexec, hb⟩ := hinput.exec_eccchk hP hI
    (fun p hp a ha => hwritten a (allParts_isEcc_bounds hp ha)) herr (modeLegal_iff.2 ⟨hlow, hhigh⟩)
  rw [complete_bitData] at hexec
  exact ⟨_, b, hexec, rfl, fun k => resultCells_getElem _ _ k.isLt, hb.trans passHolds_iff⟩

/-! ## The blocks after a pass (R159) -/

/-- The block of a part whose ECC cells hold the result of its data: all its cells, a multiple of the generator
polynomial, and its syndromes. -/
theorem exists_block {mode : BitVec 3} {p : Part} (hp : p ∈ allParts mode) {s : State} {I : Encoder} {d : List Sym}
    (h : p.Encodes s I d) (hI : I.sound = true) (hecc : p.HoldsEcc s.cw (I.lfsr d)) :
    ∃ b : List Sym, b.length = p.len + p.nsym.toNat ∧
      (∀ j, j < p.len + p.nsym.toNat → s.cw.read (p.dataBase + j * p.stride) = b[j]?) ∧
      (∃ q, I.polyMul q I.gen = b.reverse) ∧ ∀ j, j < I.nsym.toNat → I.syndrome b j = 0#6 := by
  have hlen := h.lfsr_length hI
  have hd : d ≠ [] := List.ne_nil_of_length_pos (h.length ▸ allParts_len_pos hp)
  obtain ⟨q, -, hq⟩ := exists_polyMul_gen hI hd
  have hblock : I.polyMul q I.gen = (d ++ (I.lfsr d).reverse).reverse := by simpa using hq
  refine ⟨d ++ (I.lfsr d).reverse, by simp [h.length, hlen], fun j hj => ?_, ⟨q, hblock⟩,
    fun j hj => syndrome_eq_zero hI hblock hj⟩
  by_cases hdata : j < p.len
  · rw [h.read hdata, List.getElem?_append_left (by rwa [h.length])]
  · have hcell : p.dataBase + j * p.stride = p.eccBase + (j - p.len) * p.stride := by
      rw [allParts_eccBase_eq hp, Nat.add_assoc, ← Nat.add_mul, Nat.add_sub_cancel' (by omega)]
    rw [hcell, hecc _ (by omega), List.getElem?_append_right (by rw [h.length]; omega), h.length,
      List.getElem?_reverse (by omega), hlen]

/-- Settles O52: `exists_block` for each of the three parts. -/
theorem syndromesVanishAfterEccall : Obligations.SyndromesVanishAfterEccall := by
  intro mode s t slot hs herr h ht h5 hne
  obtain ⟨-, P, I, dp, de, dd, hP, hI, hinput, hholds, -⟩ := exec_eccall_leaves hs herr h ht
  obtain ⟨cp, hcp, hreadp, hmulp, hsynp⟩ := exists_block (mode := mode) primaryPart_mem hinput.primary hP
    hholds.primary
  obtain ⟨ce, hce, hreade, hmule, hsyne⟩ := exists_block evenPart_mem hinput.even hI hholds.even
  obtain ⟨cd, hcd, hreadd, hmuld, hsynd⟩ := exists_block oddPart_mem hinput.odd hI hholds.odd
  have hslot : slot = Config.subSlot mode := by
    unfold Config.subSlot
    split
    · exact h5 ‹_›
    · exact hne ‹_›
  have hlen : Config.subLength mode + (Config.subNsym mode).toNat = 62 := by
    have hbase := eccBase_eq mode
    have hend := eccBase_add_subNsym mode
    omega
  subst hslot
  refine ⟨P, I, cp, ce, cd, hinput.primary.slot, hinput.even.slot, hcp, hce.trans hlen, hcd.trans hlen, fun j hj => ?_,
    fun j hj => ?_, fun j hj => ?_, hmulp, hmule, hmuld, hinput.primary.nsym, hinput.even.nsym, hsynp,
    fun j hj => ⟨hsyne j hj, hsynd j hj⟩⟩
  · simpa [primaryPart] using hreadp j hj
  · rw [Nat.mul_comm]
    exact hreade j (hlen ▸ hj)
  · rw [Nat.mul_comm]
    exact hreadd j (hlen ▸ hj)

end Sys2Proof.Machine

/-! The checks of the pass commands in order (42_ecc_pass.md R152 to R156, 60_exceptions.md R202): the mode, then every
part's slot, then the cells. -/

namespace Sys2Proof.Machine

/-! ## The slots -/

/-- All parts must be ready before any cell is looked at (R202). -/
theorem passParts_notBuilt {w : Bool} {p : Part} {ps : List Part} {s : State} (hp : p ∈ ps)
    (hnot : ¬ partReady s p = true) : passParts w ps s = .error .notBuilt := by
  have hall : ps.all (partReady s) = false := List.all_eq_false.2 ⟨p, hp, hnot⟩
  rw [passParts, hall]
  rfl

/-! ## The cells -/

/-- A cell that the part reads is not written: a data cell or, if the part compares, an ECC cell. -/
def Part.Misses (p : Part) (w : Bool) (m : Memory) : Prop :=
  (∃ a, p.IsData a ∧ m.read a = none) ∨ (w = false ∧ ∃ a, p.IsEcc a ∧ m.read a = none)

/-- A run in range faults for an unwritten cell only. -/
theorem readRun_error_of_inRange {m : Memory} {base stride count : Nat} {f : FaultCode}
    (hrange : runInRange base stride count = true) (hf : readRun m base stride count = .error f) : f = .unwritten := by
  unfold readRun at hf
  rw [if_pos hrange] at hf
  split at hf
  · cases hf
  · exact (Except.error.inj hf).symm

section
variable {mode : BitVec 3} {p q : Part} {w : Bool} {s : State}

/-- A part that is ready faults for an unwritten cell only. -/
theorem runPart_error_of_ready (hp : p ∈ allParts mode) (hready : partReady s p = true) {f : FaultCode}
    (hf : runPart w p s = .error f) : f = .unwritten := by
  obtain ⟨I, hI⟩ := partReady_iff.1 hready
  have hencoder := partEncoder_eq_ok.2 hI
  rcases runPart_error hf with hnot | hdata | ⟨J, hJ, -, hecc⟩
  · rw [hencoder] at hnot
    cases hnot
  · exact readRun_error_of_inRange (allParts_dataRun_inRange hp) hdata
  · rw [(partEncoder_eq_ok.1 hJ).2] at hecc
    exact readRun_error_of_inRange (allParts_eccRun_inRange hp) hecc

/-- A part does not complete if a cell that it reads is not written. -/
theorem runPart_ne_ok_of_misses (hmiss : p.Misses w s.cw) {t : State} {b : Bool} : runPart w p s ≠ .ok (t, b) := by
  have hdata {I : Encoder} {d : List Sym} (h : p.Encodes s I d) : ¬ ∃ a, p.IsData a ∧ s.cw.read a = none := by
    rintro ⟨_, ⟨j, hj, rfl⟩, hnone⟩
    rw [h.read hj, List.getElem?_eq_none_iff, h.length] at hnone
    omega
  intro hrun
  cases w with
  | true =>
    obtain ⟨-, I, d, h, -⟩ := runPart_write_iff.1 hrun
    rcases hmiss with hmiss | ⟨hw, -⟩
    · exact hdata h hmiss
    · cases hw
  | false =>
    obtain ⟨I, d, e, hI, hd, he, -, -⟩ := runPart_compare.1 hrun
    have h : p.Encodes s I d := ⟨hI, hd⟩
    obtain ⟨-, hlen, hread⟩ := readRun_eq_ok.1 he
    rcases hmiss with hmiss | ⟨-, _, ⟨j, hj, rfl⟩, hnone⟩
    · exact hdata h hmiss
    · rw [← h.nsym] at hj
      rw [hread j hj, List.getElem?_eq_none_iff, hlen] at hnone
      omega

/-- A part that completes writes no cell that a part reads. -/
theorem misses_of_runPart (hp : p ∈ allParts mode) (hq : q ∈ allParts mode) {t : State} {b : Bool}
    (hrun : runPart w p s = .ok (t, b)) (hmiss : q.Misses w s.cw) : q.Misses w t.cw := by
  cases w with
  | false =>
    obtain ⟨-, hcw⟩ := runPart_frame hrun
    rwa [hcw rfl]
  | true =>
    obtain ⟨-, I, d, h, rfl⟩ := runPart_write_iff.1 hrun
    rcases hmiss with ⟨a, ha, hnone⟩ | ⟨hw, -⟩
    · refine .inl ⟨a, ha, ?_⟩
      rwa [h.read_written_of_not_isEcc fun hecc => allParts_isEcc_not_isData hp hq hecc ha]
    · cases hw

/-- Parts that are ready, of which one reads an unwritten cell. -/
theorem runParts_unwritten {ps : List Part} (hps : ∀ p ∈ ps, p ∈ allParts mode)
    (hready : ∀ p ∈ ps, partReady s p = true) (hq : q ∈ ps) (hmiss : q.Misses w s.cw) :
    runParts w ps s = .error .unwritten := by
  induction ps generalizing s with
  | nil => cases hq
  | cons p ps ih =>
    have hp := hps p List.mem_cons_self
    rw [runParts]
    cases hrun : runPart w p s with
    | error f => rw [runPart_error_of_ready hp (hready p List.mem_cons_self) hrun]
    | ok r =>
      obtain ⟨t, b⟩ := r
      have hslots : t.slots = s.slots := (runPart_frame hrun).1.slots
      have hrest : q ∈ ps := by
        rcases List.mem_cons.1 hq with rfl | hrest
        · exact absurd hrun (runPart_ne_ok_of_misses hmiss)
        · exact hrest
      have hready' : ∀ p ∈ ps, partReady t p = true := fun p hp => by
        rw [partReady_iff, hslots, ← partReady_iff]
        exact hready p (List.mem_cons_of_mem _ hp)
      have herror := ih (fun p hp => hps p (List.mem_cons_of_mem _ hp)) hready' hrest
        (misses_of_runPart hp (hps q hq) hrun hmiss)
      simp only [herror]

theorem passParts_unwritten {ps : List Part} (hps : ∀ p ∈ ps, p ∈ allParts mode)
    (hready : ∀ p ∈ ps, partReady s p = true) (hq : q ∈ ps) (hmiss : q.Misses w s.cw) :
    passParts w ps s = .error .unwritten := by
  rw [passParts, if_pos (List.all_eq_true.2 hready)]
  exact runParts_unwritten hps hready hq hmiss

end

/-- An ECC cell of the mode is one of a part. -/
theorem exists_allParts_isEcc {mode : BitVec 3} {a : Nat}
    (ha : 10 ≤ a ∧ a < 20 ∨ Config.eccBase mode ≤ a ∧ a < 144) : ∃ p ∈ allParts mode, p.IsEcc a := by
  have hbase := eccBase_eq mode
  obtain ⟨p, hp, hdata | hecc⟩ := exists_allParts_isData_or_isEcc mode (show a < 144 by omega)
  · have hbounds := allParts_isData_bounds hp hdata
    omega
  · exact ⟨p, hp, hecc⟩

/-- An unwritten data cell, in the statements' words. -/
theorem misses_of_dataCell {p : Part} {w : Bool} {m : Memory}
    (h : ∃ j, j < p.len ∧ m.read (p.dataBase + p.stride * j) = none) : p.Misses w m := by
  obtain ⟨j, hj, hnone⟩ := h
  exact .inl ⟨_, ⟨j, hj, by rw [Nat.mul_comm]⟩, hnone⟩

/-- An unwritten ECC cell, in the statements' words. -/
theorem exists_misses_of_eccCell {mode : BitVec 3} {m : Memory} {a n : Nat}
    (hcells : ∀ j, j < n → 10 ≤ a + j ∧ a + j < 20 ∨ Config.eccBase mode ≤ a + j ∧ a + j < 144)
    (h : ∃ j, j < n ∧ m.read (a + 1 * j) = none) : ∃ p ∈ allParts mode, p.Misses false m := by
  obtain ⟨j, hj, hnone⟩ := h
  rw [Nat.one_mul] at hnone
  obtain ⟨p, hp, hecc⟩ := exists_allParts_isEcc (hcells j hj)
  exact ⟨p, hp, .inr ⟨rfl, _, hecc, hnone⟩⟩

/-! ## The pass commands' faults -/

/-- The data symbols of a sub-block (R53). -/
theorem subLength_eq (mode : BitVec 3) : Config.subLength mode = if mode = 5#3 then 34 else 42 := by
  revert mode; decide

/-- The slot and the symbol count of the mode table (R53). -/
theorem modeTable_slot {mode : BitVec 3} {slot : Fin 3} {ns : Nat} (h5 : mode = 5#3 → slot = 2 ∧ ns = 28)
    (hne : mode ≠ 5#3 → slot = 1 ∧ ns = 20) : slot = Config.subSlot mode ∧ ns = (Config.subNsym mode).toNat := by
  by_cases hmode : mode = 5#3
  · subst hmode
    exact h5 rfl
  · simpa [Config.subSlot, Config.subNsym, hmode] using hne hmode

/-- Readiness in the statements' words. -/
theorem partReady_iff_toNat {s : State} {p : Part} :
    partReady s p = true ↔ ∃ I, s.slots[p.slot] = some I ∧ I.nsym.toNat = p.nsym.toNat := by
  simp only [partReady_iff, BitVec.toNat_inj]

section
variable {mode : BitVec 3} {i : Instr} {w : Bool} {p : Part} {ps : List Part} {s : State}
  (hi : passOf i = some (w, ps)) (herr : s.err = 0#4) (hlegal : i.wellFormed = true) (hp : p ∈ ps)
include hi herr hlegal hp

theorem exec_pass_notBuilt (hnot : ¬ partReady s p = true) : faultsWith (exec i s) s .notBuilt :=
  exec_pass_faultsWith hi herr hlegal (passParts_notBuilt hp hnot)

theorem exec_pass_unwritten (hps : ∀ p ∈ ps, p ∈ allParts mode) (hready : ∀ p ∈ ps, partReady s p = true)
    (hmiss : p.Misses w s.cw) : faultsWith (exec i s) s .unwritten :=
  exec_pass_faultsWith hi herr hlegal (passParts_unwritten hps hready hp hmiss)

end

/-- Settles O46, check by check: the mode, the slots of the parts, their cells. -/
theorem passCommandsFaultInOrder : Obligations.PassCommandsFaultInOrder := by
  intro mode s slot ns herr h5 hne primaryReady secondaryReady legal missing sub
  obtain ⟨rfl, rfl⟩ := modeTable_slot h5 hne
  have hprimary : primaryReady ↔ partReady s primaryPart = true := (partReady_iff_toNat (p := primaryPart)).symm
  have heven : secondaryReady ↔ partReady s (evenPart mode) = true := (partReady_iff_toNat (p := evenPart mode)).symm
  have hodd : secondaryReady ↔ partReady s (oddPart mode) = true := (partReady_iff_toNat (p := oddPart mode)).symm
  have hmode : legal → modeLegal mode = true := modeLegal_iff.2
  have hsub : sub = Config.subLength mode := (subLength_eq mode).symm
  have hready : primaryReady → secondaryReady → ∀ p ∈ allParts mode, partReady s p = true := fun h1 h2 p hp => by
    rcases mem_allParts.1 hp with rfl | rfl | rfl
    · exact hprimary.1 h1
    · exact heven.1 h2
    · exact hodd.1 h2
  simp only [List.forall_mem_cons, List.not_mem_nil, false_implies, implies_true, and_true]
  rw [hsub]
  refine ⟨fun hbad => ?_, fun hnot => ?_, fun hlegal hnot => ?_, fun hlegal hnot => ?_, fun hr hmiss => ?_,
    fun hlegal hr hmiss => ?_, fun hlegal hr hmiss => ?_, fun hlegal h1 h2 hmiss => ?_, fun hlegal h1 h2 hmiss => ?_⟩
  · have hillegal : modeLegal mode = false := Bool.eq_false_iff.2 (mt modeLegal_iff.1 hbad)
    exact ⟨illegalOperandValueFaults (.eccsece mode) s herr hillegal,
      illegalOperandValueFaults (.eccseco mode) s herr hillegal,
      illegalOperandValueFaults (.eccall mode) s herr hillegal,
      illegalOperandValueFaults (.eccchk mode) s herr hillegal⟩
  · exact exec_pass_notBuilt (i := .eccpri) rfl herr rfl List.mem_cons_self (mt hprimary.2 hnot)
  · have hnoteven := mt heven.2 hnot
    exact ⟨exec_pass_notBuilt (i := .eccsece mode) rfl herr (hmode hlegal) List.mem_cons_self hnoteven,
      exec_pass_notBuilt (i := .eccseco mode) rfl herr (hmode hlegal) List.mem_cons_self (mt hodd.2 hnot),
      exec_pass_notBuilt (i := .eccall mode) rfl herr (hmode hlegal) evenPart_mem hnoteven,
      exec_pass_notBuilt (i := .eccchk mode) rfl herr (hmode hlegal) evenPart_mem hnoteven⟩
  · have hnotprimary := mt hprimary.2 hnot
    exact ⟨exec_pass_notBuilt (i := .eccall mode) rfl herr (hmode hlegal) primaryPart_mem hnotprimary,
      exec_pass_notBuilt (i := .eccchk mode) rfl herr (hmode hlegal) primaryPart_mem hnotprimary⟩
  · exact exec_pass_unwritten (mode := mode) (i := .eccpri) rfl herr rfl List.mem_cons_self
      (by simpa using primaryPart_mem) (by simpa using hprimary.1 hr) (misses_of_dataCell hmiss)
  · exact exec_pass_unwritten (i := .eccsece mode) rfl herr (hmode hlegal) List.mem_cons_self
      (by simpa using evenPart_mem) (by simpa using heven.1 hr) (misses_of_dataCell hmiss)
  · exact exec_pass_unwritten (i := .eccseco mode) rfl herr (hmode hlegal) List.mem_cons_self
      (by simpa using oddPart_mem) (by simpa using hodd.1 hr) (misses_of_dataCell hmiss)
  · have hpart : ∃ p ∈ allParts mode, ∀ w, p.Misses w s.cw := by
      rcases hmiss with hmiss | hmiss | hmiss
      · exact ⟨primaryPart, primaryPart_mem, fun _ => misses_of_dataCell hmiss⟩
      · exact ⟨evenPart mode, evenPart_mem, fun _ => misses_of_dataCell hmiss⟩
      · exact ⟨oddPart mode, oddPart_mem, fun _ => misses_of_dataCell hmiss⟩
    obtain ⟨p, hp, hmiss⟩ := hpart
    exact ⟨exec_pass_unwritten (i := .eccall mode) rfl herr (hmode hlegal) hp (fun _ h => h) (hready h1 h2) (hmiss _),
      exec_pass_unwritten (i := .eccchk mode) rfl herr (hmode hlegal) hp (fun _ h => h) (hready h1 h2) (hmiss _)⟩
  · have hend := eccBase_add_subNsym mode
    have hpart : ∃ p ∈ allParts mode, p.Misses false s.cw := by
      rcases hmiss with hmiss | hmiss
      · exact exists_misses_of_eccCell (fun j hj => by omega) hmiss
      · exact exists_misses_of_eccCell (fun j hj => by omega) hmiss
    obtain ⟨p, hp, hmiss⟩ := hpart
    exact exec_pass_unwritten (i := .eccchk mode) rfl herr (hmode hlegal) hp (fun _ h => h) (hready h1 h2) hmiss

end Sys2Proof.Machine

/-! Host access to the buffer and the status (43_buffer_access.md R180 to R183): what the four commands leave, and the
faults of the two that name a cell, whose address is checked first (R74). -/

namespace Sys2Proof.Machine

/-! ## `CWST` and `CWLD` -/

theorem addrLegal_eq_false {addr : BitVec 8} (h : 143 < addr.toNat) : addrLegal addr = false :=
  decide_eq_false (Nat.not_le.2 h)

theorem memRead_eq_unwritten {s : State} {a : Nat} (ha : a ≤ 143) (hnone : s.cw.read a = none) :
    memRead s a = .error .unwritten := by
  rw [memRead, if_neg (Nat.not_lt.2 ha), hnone]

/-- Settles O53: `exec_cwst_of_le` stores by `Memory.write`, whose two reading rules say which cell changes; R74's check
of the address comes first. -/
theorem cwstStoresOneCell : Obligations.CwstStoresOneCell := by
  intro addr val s herr
  refine ⟨fun hinside => ?_, fun habove => ?_⟩
  · exact ⟨_, exec_cwst_of_le herr hinside, rfl, Memory.read_write_self _ _ _, fun _ ha => Memory.read_write_ne _ _ ha⟩
  · exact illegalOperandValueFaults (.cwst addr val) s herr (addrLegal_eq_false habove)

/-- Settles O54: what `memRead` gives decides the answer: the cell's value, or the code of its first failing check. -/
theorem cwldLoadsOneCell : Obligations.CwldLoadsOneCell := by
  intro addr s herr
  refine ⟨fun v hinside hv => ?_, fun hinside hnone => ?_, fun habove => ?_⟩
  · rw [exec_cwld_of_memRead_ok herr (memRead_eq_ok.2 ⟨hinside, hv⟩), complete_symbol]
  · rw [faultsWith, exec_cwld_of_memRead_error herr (memRead_eq_unwritten hinside hnone), raise_eq]
  · exact illegalOperandValueFaults (.cwld addr) s herr (addrLegal_eq_false habove)

/-! ## `CWCLR` and `STAT` -/

theorem resCell_clearCall (s : State) (k : Nat) : s.clearCall.resCell k = none := by
  by_cases hk : k < 28
  · rw [resCell_lt _ hk, State.clearCall_res, Vector.getElem_replicate]
  · exact resCell_ge _ (Nat.not_lt.1 hk)

/-- Settles O56: the command leaves `clearCall`, in which neither the buffer nor the shift register holds a value. -/
theorem cwclrBeginsAFreshCall : Obligations.CwclrBeginsAFreshCall := by
  intro s herr
  exact ⟨s.clearCall.complete 0#16, command_ok herr rfl, rfl, Memory.read_nil, resCell_clearCall s⟩

/-- Settles O57: `STAT` runs outside the frame, so `ERR` is not looked at (`exec_stat`). -/
theorem statAnswersTheStatus : Obligations.StatAnswersTheStatus := by
  intro s
  rw [exec_stat, complete_eq]

end Sys2Proof.Machine

/-! Faults and the halted state (60_exceptions.md R200 to R205): what a fault changes, what a halted unit answers, how
it leaves that state, and which command raises which code. -/

namespace Sys2Proof.Machine

/-! ## A word issued to the unit -/

/-- The word of `STAT` is the only one that decodes to it (30_encoding.md R75). -/
theorem decode_eq_stat_iff {w : Word} : decode w = .ok .stat ↔ w = 0x14000000#32 := by
  have hword : encode .stat = 0x14000000#32 := rfl
  constructor
  · intro h
    rw [← encodeGivesBackEveryDecodedWord w .stat h, hword]
  · rintro rfl
    exact decodeReadsBackEveryEncodedCommand .stat

theorem rejectWord_of_running {s : State} (herr : s.err = 0#4) : s.rejectWord = s.raise .illegal := by
  simp [State.rejectWord, isHalted_eq_false herr]

theorem rejectWord_of_halted {s : State} (herr : s.err ≠ 0#4) : s.rejectWord = s.answerHalted := by
  simp [State.rejectWord, isHalted_eq_true herr]

section
variable {s : State} {p : PortIn} {rest : List PortIn} (hhost : s.host = p :: rest) (hrst : p.rst = false)
  (hvalid : p.cmdValid = true) (hrsp : s.rsp = none)
include hhost hrst hvalid hrsp

theorem step_of_decode_error {e : DecodeReject} (he : decode p.cmdData = .error e) :
    step s = .next (State.rejectWord { s with host := rest }) := by
  simp only [step, portCycle_issued hhost hrst hvalid hrsp, he]

/-- A word that leaves `ERR` non-zero on a unit that is not halted took a fault, whether or not it decodes. -/
theorem step_raises {t : State} (herr : s.err = 0#4) (h : step s = .next t) (ht : t.err ≠ 0#4) :
    ∃ f, t = State.raise { s with host := rest } f := by
  cases hd : decode p.cmdData with
  | error e =>
    rw [step_of_decode_error hhost hrst hvalid hrsp hd] at h
    cases h
    exact ⟨.illegal, rejectWord_of_running herr⟩
  | ok i =>
    rw [step_of_decode hhost hrst hvalid hrsp hd] at h
    cases exec_effect h with
    | completed hc => exact absurd (hc.keeps_ports.1.trans herr) ht
    | faulted f => exact ⟨f, rfl⟩
    | halted hs => exact absurd herr hs

end

/-- Settles O17: the word took a fault (`step_raises`), and `raise_eq` is all that a fault does. -/
theorem faultChangesOnlyErr : Obligations.FaultChangesOnlyErr := by
  intro s t p rest hhost hrst hvalid hrsp herr h ht
  obtain ⟨f, rfl⟩ := step_raises hhost hrst hvalid hrsp herr h ht
  exact ⟨f.code_range.1, f.code_range.2, isHalted_eq_true f.code_ne_zero, raise_eq _ f⟩

/-- Settles O18, by what the word decodes to: `STAT` runs outside the frame, the frame of every other command answers
`HALTED`, and so does a word that spells none. -/
theorem haltedUnitAnswersOnlyStat : Obligations.HaltedUnitAnswersOnlyStat := by
  intro s p rest hhost hrst hvalid hrsp herr
  by_cases hstat : p.cmdData = 0x14000000#32
  · rw [step_of_decode hhost hrst hvalid hrsp (decode_eq_stat_iff.2 hstat), exec_stat, complete_eq, if_pos hstat]
    rfl
  · rw [if_neg hstat]
    cases hd : decode p.cmdData with
    | ok i =>
      have hi : i ≠ .stat := fun e => hstat (decode_eq_stat_iff.1 (e ▸ hd))
      rw [step_of_decode hhost hrst hvalid hrsp hd]
      exact exec_halted hi herr
    | error e =>
      rw [step_of_decode_error hhost hrst hvalid hrsp hd]
      exact congrArg Host.Outcome.next (rejectWord_of_halted herr)

/-- Settles O19, by the cases of a step: a cycle that issues a word is `haltedUnitAnswersOnlyStat`, the others move
nothing of the unit but its response, and `rst` leaves the state after reset. -/
theorem onlyResetLeavesTheHaltedState : Obligations.OnlyResetLeavesTheHaltedState := by
  intro s t herr h
  refine ⟨fun hr => ?_, fun hr => ?_⟩
  · rcases step_cases h with ⟨-, e⟩ | ⟨p, rest, hhost, hcase⟩
    · cases e
      exact ⟨rfl, rfl, rfl, rfl, rfl, rfl, .inl rfl⟩
    · rw [resetNext_cons hhost] at hr
      rcases hcase with ⟨hrst, -⟩ | ⟨-, w, -, e⟩ | ⟨-, -, -, e⟩ | ⟨-, hrsp, hvalid, -⟩
      · simp [hr] at hrst
      · cases e
        split
        · exact ⟨rfl, rfl, rfl, rfl, rfl, rfl, .inr (.inl rfl)⟩
        · exact ⟨rfl, rfl, rfl, rfl, rfl, rfl, .inl rfl⟩
      · cases e
        exact ⟨rfl, rfl, rfl, rfl, rfl, rfl, .inl rfl⟩
      · rw [haltedUnitAnswersOnlyStat s p rest hhost hr hvalid hrsp herr] at h
        cases h
        refine ⟨rfl, rfl, rfl, rfl, rfl, rfl, .inr (.inr ?_)⟩
        split
        · exact .inr rfl
        · exact .inl rfl
  · obtain ⟨_, _, -, rfl⟩ := step_of_resetNext h hr
    exact ⟨rfl, reset_slots, Memory.read_nil⟩

/-! ## The faults of the shared operations -/

theorem memWrite_error {s : State} {a : Nat} {v : Sym} {f : FaultCode} (h : memWrite s a v = .error f) :
    f = .addrRange := by
  unfold memWrite at h
  split at h <;> cases h
  rfl

theorem memRead_error {s : State} {a : Nat} {f : FaultCode} (h : memRead s a = .error f) :
    f = .addrRange ∨ f = .unwritten := by
  unfold memRead at h
  split at h
  · cases h
    exact .inl rfl
  · split at h <;> cases h
    exact .inr rfl

theorem resultRun_error {s : State} {base stride : Nat} {f : FaultCode} (h : resultRun s base stride = .error f) :
    f = .badParam ∨ f = .addrRange ∨ f = .unwritten := by
  unfold resultRun at h
  split_ifs at h
  · cases h
    exact .inl rfl
  · cases h
    exact .inr (.inr rfl)
  · cases h
    exact .inr (.inl rfl)
  · split at h <;> cases h
    exact .inr (.inr rfl)

theorem tableEntry_error {I : Encoder} {t : BitVec 2} {idx : Nat} {f : FaultCode}
    (h : tableEntry I t idx = .error f) : f = .badParam ∨ f = .addrRange ∨ f = .unwritten := by
  unfold tableEntry at h
  split at h
  · split_ifs at h
    · split at h <;> cases h
      exact .inr (.inr rfl)
    · cases h
      exact .inr (.inl rfl)
  · split_ifs at h
    cases h
    exact .inr (.inl rfl)
  · split_ifs at h
    · cases h
      exact .inr (.inl rfl)
    · split at h <;> cases h
      exact .inr (.inr rfl)
  · cases h
    exact .inl rfl

section
variable {mode : BitVec 3} {w : Bool} {ps : List Part} {s : State} {f : FaultCode}

theorem partReady_congr {t : State} (hslots : t.slots = s.slots) (p : Part) : partReady t p = partReady s p := by
  rw [Bool.eq_iff_iff, partReady_iff, partReady_iff, hslots]

/-- Parts that are ready fault for an unwritten cell only: their runs lie in the buffer, and no part writes a slot. -/
theorem runParts_error (hps : ps ⊆ allParts mode) (hready : ∀ p ∈ ps, partReady s p = true)
    (h : runParts w ps s = .error f) : f = .unwritten := by
  induction ps generalizing s with
  | nil => cases h
  | cons p ps ih =>
    obtain ⟨hp, hps⟩ := List.cons_subset.1 hps
    obtain ⟨hpready, hready⟩ := List.forall_mem_cons.1 hready
    rw [runParts] at h
    cases hrun : runPart w p s with
    | error g =>
      rw [hrun] at h
      cases h
      exact runPart_error_of_ready hp hpready hrun
    | ok r =>
      obtain ⟨t, b⟩ := r
      have hslots : t.slots = s.slots := (runPart_frame hrun).1.slots
      cases hrest : runParts w ps t with
      | error g =>
        simp only [hrun, hrest] at h
        cases h
        exact ih hps (fun q hq => (partReady_congr hslots q).trans (hready q hq)) hrest
      | ok r => simp [hrun, hrest] at h

theorem passParts_error (hps : ps ⊆ allParts mode) (h : passParts w ps s = .error f) :
    f = .notBuilt ∨ f = .unwritten := by
  unfold passParts at h
  split_ifs at h with hready
  · exact .inr (runParts_error hps (List.all_eq_true.1 hready) h)
  · cases h
    exact .inl rfl

theorem writingPass_error (hps : ps ⊆ allParts mode) (h : writingPass ps s = .error f) :
    f = .notBuilt ∨ f = .unwritten := by
  unfold writingPass at h
  split at h
  · rename_i hf
    cases h
    exact passParts_error hps hf
  · cases h

end

/-! ## Which command raises which code -/

/-- R200's column "raised by", for the words that decode. -/
def raisedBy (i : Instr) : FaultCode → Bool
  | .illegal => false
  | .construction | .alreadyBuilt => (i matches .rsnew ..)
  | .badParam => (i matches .rsnew .. | .rsenc .. | .rsput .. | .rscmp .. | .tblld ..)
  | .notBuilt => (i matches .rsenc .. | .tblld .. | .eccpri | .eccsece _ | .eccseco _ | .eccall _ | .eccchk _)
  | .addrRange => (i matches .rsenc .. | .rsput .. | .rscmp .. | .cwst .. | .cwld _ | .tblld ..)
  | .unwritten => (i matches .rsenc .. | .rsput .. | .rscmp .. | .resld _ | .cwld _ | .tblld .. | .eccpri
      | .eccsece _ | .eccseco _ | .eccall _ | .eccchk _)
  | .badMode => (i matches .eccsece _ | .eccseco _ | .eccall _ | .eccchk _)

/-- A command that completes leaves `ERR` at 0: its response has `FAULT = 0`, which is `ERR` (30_encoding.md R78). -/
theorem exec_complete_err {i : Instr} {s t : State} {d : Data} (herr : s.err = 0#4)
    (h : exec i s = .next (t.complete d)) : t.err = 0#4 := by
  obtain ⟨-, -, hfault, -⟩ := responseWordHasItsForm i s _ _ h rfl
  rw [← State.complete_err t d, ← hfault herr, responseWord_fault]

section
variable {s t : State} {f : FaultCode} (herr : s.err = 0#4) (hf : t.err = f.code)
include herr hf

/-- The code a command leaves in `ERR` is one that its body faults with. -/
theorem raisedBy_of_body {i : Instr} {body : Except FaultCode (State × Data)} (h : exec i s = .next t)
    (hexec : exec i s = command s body) (hbody : ∀ g, body = .error g → raisedBy i g = true) :
    raisedBy i f = true := by
  rcases command_cases (hexec.symm.trans h) with ⟨hs, -⟩ | ⟨-, u, d, -, rfl⟩ | ⟨-, g, hg, rfl⟩
  · exact absurd herr hs
  · exact absurd (hf.symm.trans (exec_complete_err herr h)) f.code_ne_zero
  · exact FaultCode.code_injective hf ▸ hbody g hg

theorem exec_rsnew_raises {sel : BitVec 2} {nsym : BitVec 5} {root : BitVec 6} {poly : BitVec 8}
    (h : exec (.rsnew sel nsym root poly) s = .next t) : raisedBy (.rsnew sel nsym root poly) f = true := by
  refine raisedBy_of_body herr hf h rfl fun g hg => ?_
  split at hg
  · cases hg; rfl
  · split_ifs at hg
    · cases hg; rfl
    · cases hg; rfl
    · split at hg <;> cases hg
      rfl

theorem exec_rsenc_raises {sel : BitVec 2} {len base : BitVec 8} {stride : BitVec 4}
    (h : exec (.rsenc sel len base stride) s = .next t) : raisedBy (.rsenc sel len base stride) f = true := by
  refine raisedBy_of_body herr hf h rfl fun g hg => ?_
  split at hg
  · cases hg; rfl
  · split_ifs at hg
    · cases hg; rfl
    · split at hg
      · cases hg; rfl
      · split at hg
        · rename_i hrun
          cases hg
          rcases readRun_error hrun with rfl | ⟨rfl, -⟩ <;> rfl
        · cases hg

theorem exec_rsput_raises {base : BitVec 8} {stride : BitVec 4} (h : exec (.rsput base stride) s = .next t) :
    raisedBy (.rsput base stride) f = true := by
  refine raisedBy_of_body herr hf h rfl fun g hg => ?_
  split at hg
  · rename_i hr
    cases hg
    rcases resultRun_error hr with rfl | rfl | rfl <;> rfl
  · cases hg

theorem exec_rscmp_raises {base : BitVec 8} {stride : BitVec 4} (h : exec (.rscmp base stride) s = .next t) :
    raisedBy (.rscmp base stride) f = true := by
  refine raisedBy_of_body herr hf h rfl fun g hg => ?_
  split at hg
  · rename_i hr
    cases hg
    rcases resultRun_error hr with rfl | rfl | rfl <;> rfl
  · split at hg
    · rename_i hrun
      cases hg
      rcases readRun_error hrun with rfl | ⟨rfl, -⟩ <;> rfl
    · cases hg

/-- The four pass commands that write. -/
theorem exec_writingPass_raises {mode : BitVec 3} {i : Instr} {ps : List Part} (hi : passOf i = some (true, ps))
    (hps : ps ⊆ allParts mode) (h : exec i s = .next t) : raisedBy i f = true := by
  refine raisedBy_of_body herr hf h (exec_writingPass hi s) fun g hg => ?_
  have hg : (g = .badMode ∧ i.wellFormed = false) ∨ g = .notBuilt ∨ g = .unwritten := by
    split_ifs at hg with hlegal
    · cases hg
      exact .inl ⟨rfl, by simpa using hlegal⟩
    · exact .inr (writingPass_error hps hg)
  cases i with
  | eccpri =>
    rcases hg with ⟨-, hlegal⟩ | rfl | rfl
    · cases hlegal
    all_goals rfl
  | eccsece | eccseco | eccall => rcases hg with ⟨rfl, -⟩ | rfl | rfl <;> rfl
  | _ => cases hi

theorem exec_eccchk_raises {mode : BitVec 3} (h : exec (.eccchk mode) s = .next t) :
    raisedBy (.eccchk mode) f = true := by
  refine raisedBy_of_body herr hf h rfl fun g hg => ?_
  split_ifs at hg
  · cases hg; rfl
  · split at hg
    · rename_i hpass
      cases hg
      rcases passParts_error (List.Subset.refl _) hpass with rfl | rfl <;> rfl
    · cases hg

theorem exec_cwst_raises {addr : BitVec 8} {val : Sym} (h : exec (.cwst addr val) s = .next t) :
    raisedBy (.cwst addr val) f = true := by
  refine raisedBy_of_body herr hf h rfl fun g hg => ?_
  split at hg
  · rename_i hw
    cases hg
    rw [memWrite_error hw]
    rfl
  · cases hg

theorem exec_cwld_raises {addr : BitVec 8} (h : exec (.cwld addr) s = .next t) : raisedBy (.cwld addr) f = true := by
  refine raisedBy_of_body herr hf h rfl fun g hg => ?_
  split at hg
  · rename_i hr
    cases hg
    rcases memRead_error hr with rfl | rfl <;> rfl
  · cases hg

theorem exec_resld_raises {k : BitVec 5} (h : exec (.resld k) s = .next t) : raisedBy (.resld k) f = true := by
  refine raisedBy_of_body herr hf h rfl fun g hg => ?_
  split_ifs at hg
  · cases hg; rfl
  · split at hg <;> cases hg
    rfl

theorem exec_tblld_raises {sel tab : BitVec 2} {idx : BitVec 8} (h : exec (.tblld sel tab idx) s = .next t) :
    raisedBy (.tblld sel tab idx) f = true := by
  refine raisedBy_of_body herr hf h rfl fun g hg => ?_
  split at hg
  · cases hg; rfl
  · split_ifs at hg
    · cases hg; rfl
    · split at hg
      · cases hg; rfl
      · split at hg
        · rename_i he
          cases hg
          rcases tableEntry_error he with rfl | rfl | rfl <;> rfl
        · cases hg

/-- A command leaves in `ERR` only a code that R200 names it for. -/
theorem exec_raises {i : Instr} (h : exec i s = .next t) : raisedBy i f = true := by
  cases i with
  | rsnew => exact exec_rsnew_raises herr hf h
  | rsenc => exact exec_rsenc_raises herr hf h
  | rsput => exact exec_rsput_raises herr hf h
  | rscmp => exact exec_rscmp_raises herr hf h
  | eccpri => exact exec_writingPass_raises (mode := 2#3) herr hf rfl (by simp [primaryPart_mem]) h
  | eccsece => exact exec_writingPass_raises herr hf rfl (by simpa using evenPart_mem) h
  | eccseco => exact exec_writingPass_raises herr hf rfl (by simpa using oddPart_mem) h
  | eccall => exact exec_writingPass_raises herr hf rfl (List.Subset.refl _) h
  | eccchk => exact exec_eccchk_raises herr hf h
  | cwst => exact exec_cwst_raises herr hf h
  | cwld => exact exec_cwld_raises herr hf h
  | resld => exact exec_resld_raises herr hf h
  | tblld => exact exec_tblld_raises herr hf h
  | stat =>
    cases h
    exact absurd (hf.symm.trans herr) f.code_ne_zero
  | cwclr => exact raisedBy_of_body (body := .ok (s.clearCall, 0#16)) herr hf h rfl nofun

end

/-- Settles O20: each clause is `exec_raises` for its code, read off `raisedBy`. -/
theorem faultCodesAreRaisedOnlyByTheirCommands : Obligations.FaultCodesAreRaisedOnlyByTheirCommands := by
  intro i s t herr h
  have hraised (f : FaultCode) (hf : t.err = f.code) : raisedBy i f = true := exec_raises herr hf h
  refine ⟨fun hf => ?_, fun hf => ?_, fun hf => ?_, fun hf => ?_, fun hf => ?_, fun hf => ?_, fun hf => ?_,
    fun hf => ?_⟩
  · cases hraised .illegal hf
  · have hcode := hraised .construction hf
    cases i with
    | rsnew => exact ⟨_, _, _, _, rfl⟩
    | _ => cases hcode
  · have hcode := hraised .badParam hf
    cases i with
    | rsnew | rsenc | rsput | rscmp | tblld => trivial
    | _ => cases hcode
  · have hcode := hraised .notBuilt hf
    cases i with
    | rsenc | tblld | eccpri | eccsece | eccseco | eccall | eccchk => trivial
    | _ => cases hcode
  · have hcode := hraised .addrRange hf
    cases i with
    | rsenc | rsput | rscmp | cwst | cwld | tblld => trivial
    | _ => cases hcode
  · have hcode := hraised .unwritten hf
    cases i with
    | rsenc | rsput | rscmp | resld | cwld | tblld | eccpri | eccsece | eccseco | eccall | eccchk => trivial
    | _ => cases hcode
  · have hcode := hraised .badMode hf
    cases i with
    | eccsece | eccseco | eccall | eccchk => trivial
    | _ => cases hcode
  · have hcode := hraised .alreadyBuilt hf
    cases i with
    | rsnew => exact ⟨_, _, _, _, rfl⟩
    | _ => cases hcode

end Sys2Proof.Machine

/-! Reset and runs (70_reset_and_hazards.md R230, R231, R239, R240): the state after reset, what a run of any list of
words gives, and when a run passes. -/

namespace Sys2Proof.Machine

/-! ## Reset -/

theorem reset_resCell (k : Nat) : State.reset.resCell k = none := resCell_clearCall State.reset k

/-- Settles O13: the fields of `State.reset`, and `STAT` answers its `STATUS`, which is 0. -/
theorem stateAfterReset : Obligations.StateAfterReset := by
  obtain ⟨-, -, -, -, -, -, -, hstatus⟩ := statusWordFields State.reset
  refine ⟨reset_slots, reset_resCell, rfl, rfl, rfl, Memory.read_nil, hstatus, ?_⟩
  rw [statAnswersTheStatus, hstatus]
  rfl

/-- A cycle with `rst` at 1, whatever else the host drives and whatever response waits (R230). -/
theorem step_reset {s : State} {p : PortIn} {rest : List PortIn} (hhost : s.host = p :: rest) (hrst : p.rst = true) :
    step s = .next { State.reset with host := rest, taken := s.taken } := by
  simp [step, portCycle, hhost, hrst, State.takeReset]

/-- Settles O14: `rst` holds both `cmd_ready` and `rsp_valid` at 0, and the cycle is `step_reset`. -/
theorem resetHasPriority : Obligations.ResetHasPriority := by
  intro s p rest hhost hrst
  refine ⟨?_, ?_, step_reset hhost hrst⟩
  · simp [State.cmdReady, hrst]
  · simp [State.rspValid, hrst]

/-! ## No command looks at what the host will drive

The words still to come are the host's list, so a run of `ws ++ vs` can be cut after `ws` only because a command does
the same whatever that list holds. -/

/-- The state with another list of cycles that the host will drive. -/
def State.setHost (s : State) (l : List PortIn) : State := { s with host := l }

/-- What a checked operation answers, with another list of the host's in the state it leaves. -/
def answerSetHost {β : Type} (l : List PortIn) (e : Except FaultCode (State × β)) : Except FaultCode (State × β) :=
  e.map fun q => (q.1.setHost l, q.2)

section
variable (s : State) (l : List PortIn)

@[simp] theorem State.setHost_slots : (s.setHost l).slots = s.slots := rfl
@[simp] theorem State.setHost_rlen : (s.setHost l).rlen = s.rlen := rfl
@[simp] theorem State.setHost_cw : (s.setHost l).cw = s.cw := rfl
@[simp] theorem State.setHost_resCell : (s.setHost l).resCell = s.resCell := rfl
@[simp] theorem State.setHost_built : (s.setHost l).built = s.built := rfl
@[simp] theorem memRead_setHost : memRead (s.setHost l) = memRead s := rfl
@[simp] theorem resultRun_setHost : resultRun (s.setHost l) = resultRun s := rfl
@[simp] theorem partEncoder_setHost : partEncoder (s.setHost l) = partEncoder s := rfl
@[simp] theorem partReady_setHost : partReady (s.setHost l) = partReady s := rfl

theorem memWrite_setHost (a : Nat) (v : Sym) :
    memWrite (s.setHost l) a v = (memWrite s a v).map fun t => t.setHost l := by
  unfold memWrite
  split <;> rfl

theorem runPart_setHost (w : Bool) (p : Part) : runPart w p (s.setHost l) = answerSetHost l (runPart w p s) := by
  simp only [runPart, partEncoder_setHost, State.setHost_cw, State.setResult_cw]
  cases partEncoder s p with
  | error f => rfl
  | ok I =>
    cases readRun s.cw p.dataBase p.stride p.len with
    | error f => rfl
    | ok d =>
      cases w with
      | true => rfl
      | false =>
        dsimp only
        cases readRun s.cw p.eccBase p.stride I.nsym.toNat <;> rfl

theorem runParts_setHost (w : Bool) (ps : List Part) :
    runParts w ps (s.setHost l) = answerSetHost l (runParts w ps s) := by
  induction ps generalizing s with
  | nil => rfl
  | cons p ps ih =>
    rw [runParts, runParts, runPart_setHost]
    cases runPart w p s with
    | error f => rfl
    | ok q =>
      dsimp only [answerSetHost, Except.map]
      rw [ih q.1]
      cases runParts w ps q.1 <;> rfl

theorem passParts_setHost (w : Bool) (ps : List Part) :
    passParts w ps (s.setHost l) = answerSetHost l (passParts w ps s) := by
  rw [passParts, passParts, partReady_setHost, runParts_setHost]
  split <;> rfl

theorem writingPass_setHost (ps : List Part) :
    writingPass ps (s.setHost l) = answerSetHost l (writingPass ps s) := by
  rw [writingPass, writingPass, passParts_setHost]
  cases passParts true ps s <;> rfl

end

section
variable {s t : State} {l : List PortIn}

/-- The frame of a command keeps the host's list: a body that ignores it makes a command that does. -/
theorem command_setHost {body body' : Except FaultCode (State × Data)} (hbody : body' = answerSetHost l body)
    (h : command s body = .next t) : command (s.setHost l) body' = .next (t.setHost l) := by
  subst hbody
  rcases command_cases h with ⟨herr, rfl⟩ | ⟨herr, u, d, rfl, rfl⟩ | ⟨herr, f, rfl, rfl⟩
  · exact command_halted (s := s.setHost l) herr
  · exact command_ok (s := s.setHost l) herr rfl
  · exact command_error (s := s.setHost l) herr rfl

/-- A command does the same whatever the host will drive after it. -/
theorem exec_setHost {i : Instr} (h : exec i s = .next t) : exec i (s.setHost l) = .next (t.setHost l) := by
  cases i with
  | rsnew sel nsym root poly =>
    refine command_setHost ?_ h
    cases slotIndex sel with
    | none => rfl
    | some k =>
      dsimp only
      rw [State.setHost_built]
      split
      · rfl
      · split
        · rfl
        · cases construct poly nsym root <;> rfl
  | rsenc sel len base stride =>
    refine command_setHost ?_ h
    cases slotIndex sel with
    | none => rfl
    | some k =>
      simp only [State.setHost_slots, State.setHost_cw]
      split
      · rfl
      · cases s.slots[k] with
        | none => rfl
        | some I =>
          dsimp only
          cases readRun s.cw base.toNat stride.toNat len.toNat <;> rfl
  | rsput base stride =>
    refine command_setHost ?_ h
    rw [resultRun_setHost]
    cases resultRun s base.toNat stride.toNat <;> rfl
  | rscmp base stride =>
    refine command_setHost ?_ h
    simp only [resultRun_setHost, State.setHost_cw, State.setHost_rlen]
    cases resultRun s base.toNat stride.toNat with
    | error f => rfl
    | ok r =>
      dsimp only
      cases readRun s.cw base.toNat stride.toNat s.rlen.toNat <;> rfl
  | eccpri => exact command_setHost (writingPass_setHost s l [primaryPart]) h
  | eccsece mode | eccseco mode | eccall mode =>
    refine command_setHost ?_ h
    rw [writingPass_setHost]
    split <;> rfl
  | eccchk mode =>
    refine command_setHost ?_ h
    rw [passParts_setHost]
    split
    · rfl
    · cases passParts false (allParts mode) s <;> rfl
  | cwst addr val =>
    refine command_setHost ?_ h
    rw [memWrite_setHost]
    cases memWrite s addr.toNat val <;> rfl
  | cwld addr =>
    refine command_setHost ?_ h
    rw [memRead_setHost]
    cases memRead s addr.toNat <;> rfl
  | resld k =>
    refine command_setHost ?_ h
    rw [State.setHost_rlen, State.setHost_resCell]
    split
    · rfl
    · cases s.resCell k.toNat <;> rfl
  | tblld sel tab idx =>
    refine command_setHost ?_ h
    cases slotIndex sel with
    | none => rfl
    | some k =>
      simp only [State.setHost_slots]
      split
      · rfl
      · cases s.slots[k] with
        | none => rfl
        | some I =>
          dsimp only
          cases tableEntry I tab idx.toNat <;> rfl
  | stat =>
    cases h
    rfl
  | cwclr => exact command_setHost (body := .ok (s.clearCall, 0#16)) rfl h

end

/-! ## One word of a run -/

/-- `Answered s w r t`: in the two cycles of a run that issue `w` in state `s` and take its response, the host takes
`r` and the unit is left in `t`, whatever words come after. `FAULT` of `r` is the code a running unit is left with in
`ERR`, and a halted unit stays halted. -/
structure Answered (s : State) (w r : Word) (t : State) : Prop where
  run : ∀ ws, Sys2Proof.core.run 2 (s.load (w :: ws)) = .next (t.load ws)
  rsp : t.rsp = none
  taken : t.taken = s.taken ++ [r]
  running : s.err = 0#4 → r.extractLsb' 28 4 = t.err
  halted : s.err ≠ 0#4 → t.err ≠ 0#4

/-- Two steps that both have a next state are a run of two. -/
theorem core_run_two {s t u : State} (hst : step s = .next t) (htu : step t = .next u) :
    Sys2Proof.core.run 2 s = .next u := by
  have hcore : Sys2Proof.core.step = step := rfl
  simp only [Host.Core.run, hcore, hst, htu]

/-- The cycle of `exists_step_present`, on a unit that is not halted: the word runs its command or faults `ILLEGAL`. -/
theorem exists_step_present_running {s : State} (hrsp : s.rsp = none) (herr : s.err = 0#4) (w : Word) :
    ∃ (u : State) (r : Word), (∀ l, step (s.setHost (PortIn.present w :: l)) = .next (u.setHost l)) ∧
      u.rsp = some r ∧ u.taken = s.taken ∧ r.extractLsb' 28 4 = u.err := by
  cases hd : decode w with
  | ok i =>
    obtain ⟨u, r, hu, hr, -, htaken⟩ := everyCommandAnswersOneResponse i s
    obtain ⟨-, -, hfault, -⟩ := responseWordHasItsForm i s u r hu hr
    refine ⟨u, r, fun l => ?_, hr, htaken, hfault herr⟩
    rw [step_of_decode (s := s.setHost (PortIn.present w :: l)) rfl rfl rfl hrsp hd]
    exact exec_setHost (s := s) (l := l) hu
  | error e =>
    refine ⟨s.raise .illegal, responseWord 1#4 0#16, fun l => ?_, rfl, rfl, responseWord_fault _ _⟩
    rw [step_of_decode_error (s := s.setHost (PortIn.present w :: l)) rfl rfl rfl hrsp hd]
    exact congrArg Host.Outcome.next (rejectWord_of_running herr)

/-- The issue of a word to a unit with no response waiting, halted or not, whatever the host drives after it. -/
theorem exists_step_present {s : State} (hrsp : s.rsp = none) (w : Word) :
    ∃ (u : State) (r : Word), (∀ l, step (s.setHost (PortIn.present w :: l)) = .next (u.setHost l)) ∧
      u.rsp = some r ∧ u.taken = s.taken ∧ (s.err = 0#4 → r.extractLsb' 28 4 = u.err) ∧
      (s.err ≠ 0#4 → u.err ≠ 0#4) := by
  by_cases herr : s.err = 0#4
  · obtain ⟨u, r, hstep, hr, htaken, hfault⟩ := exists_step_present_running hrsp herr w
    exact ⟨u, r, hstep, hr, htaken, fun _ => hfault, fun hs => absurd herr hs⟩
  · exact ⟨s.respond (if w = 0x14000000#32 then 0#16 ++ s.status else 0x90000000#32), _,
      fun l => haltedUnitAnswersOnlyStat (s.setHost (PortIn.present w :: l)) _ l rfl rfl rfl hrsp herr, rfl, rfl,
      fun hs => absurd hs herr, fun _ => herr⟩

/-- Every word is answered: its cycle presents a response, and the next one takes it. -/
theorem exists_answered {s : State} (hrsp : s.rsp = none) (w : Word) : ∃ r t, Answered s w r t := by
  obtain ⟨u, r, hissue, hr, htaken, hrunning, hhalted⟩ := exists_step_present hrsp w
  have htake (l : List PortIn) : step (u.setHost (PortIn.take :: l)) =
      .next { u with host := l, rsp := none, taken := u.taken ++ [r] } := step_takes rfl rfl hr rfl
  exact ⟨r, { u with rsp := none, taken := u.taken ++ [r] },
    fun ws => core_run_two (hissue (PortIn.take :: hostProgram ws)) (htake (hostProgram ws)), rfl, by rw [htaken],
    hrunning, hhalted⟩

/-! ## Runs -/

/-- `Exchange s ws rs t`: a run of `ws` from `s` takes the responses `rs`, each word's its own, and leaves `t`. -/
inductive Exchange : State → List Word → List Word → State → Prop where
  | nil (s : State) : Exchange s [] [] s
  | cons {s t u : State} {w r : Word} {ws rs : List Word} (first : Answered s w r t) (rest : Exchange t ws rs u) :
      Exchange s (w :: ws) (r :: rs) u

/-- Every list of words has its exchange: no word, faulting or not, ends a run (R239). -/
theorem exists_exchange {s : State} (hrsp : s.rsp = none) (ws : List Word) : ∃ rs t, Exchange s ws rs t := by
  induction ws generalizing s with
  | nil => exact ⟨_, _, .nil s⟩
  | cons w ws ih =>
    obtain ⟨r, t, hfirst⟩ := exists_answered hrsp w
    obtain ⟨rs, u, hrest⟩ := ih hfirst.rsp
    exact ⟨_, _, .cons hfirst hrest⟩

theorem runWords_nil (s : State) : runWords s [] = .next (s.load []) := rfl

theorem Answered.runWords_cons {s t : State} {w r : Word} (h : Answered s w r t) (ws : List Word) :
    runWords s (w :: ws) = runWords t ws := by
  rw [runWords, List.length_cons, Nat.mul_succ, Nat.add_comm, core_run_add (h.run ws), runWords]

namespace Exchange
variable {s t : State} {ws rs : List Word} (h : Exchange s ws rs t)
include h

theorem length_eq : rs.length = ws.length := by
  induction h with
  | nil => rfl
  | cons _ _ ih => rw [List.length_cons, List.length_cons, ih]

theorem rsp_eq_none (hrsp : s.rsp = none) : t.rsp = none := by
  induction h with
  | nil => exact hrsp
  | cons hfirst _ ih => exact ih hfirst.rsp

theorem taken_eq : t.taken = s.taken ++ rs := by
  induction h with
  | nil => rw [List.append_nil]
  | cons hfirst _ ih => rw [ih, hfirst.taken, List.append_assoc, List.singleton_append]

/-- The run of a longer list goes on from the state its first words leave. -/
theorem runWords_append (vs : List Word) : runWords s (ws ++ vs) = runWords t vs := by
  induction h with
  | nil => rfl
  | cons hfirst _ ih => rw [List.cons_append, hfirst.runWords_cons, ih]

theorem runWords_eq : runWords s ws = .next (t.load []) := by
  rw [← runWords_nil, ← h.runWords_append [], List.append_nil]

/-- No word of a run leaves the halted state (60_exceptions.md R205). -/
theorem err_ne_zero (herr : s.err ≠ 0#4) : t.err ≠ 0#4 := by
  induction h with
  | nil => exact herr
  | cons hfirst _ ih => exact ih (hfirst.halted herr)

/-- `ERR` is 0 at the end exactly when no response reported a fault: the first fault is reported, and it sticks. -/
theorem err_eq_zero_iff (herr : s.err = 0#4) : t.err = 0#4 ↔ ∀ r ∈ rs, r.extractLsb' 28 4 = 0#4 := by
  induction h with
  | nil => simp [herr]
  | @cons s t u w r ws rs hfirst hrest ih =>
    rw [List.forall_mem_cons, hfirst.running herr]
    by_cases ht : t.err = 0#4
    · rw [ih ht, and_iff_right ht]
    · exact iff_of_false (hrest.err_ne_zero ht) fun hall => ht hall.1

end Exchange

/-- Settles O59: the exchange of `ws`, and then that of `vs` from the state it leaves. -/
theorem runAnswersEveryWordInOrder : Obligations.RunAnswersEveryWordInOrder := by
  intro s ws vs hrsp
  obtain ⟨rs, t, hws⟩ := exists_exchange hrsp ws
  obtain ⟨qs, u, hvs⟩ := exists_exchange (hws.rsp_eq_none hrsp) vs
  refine ⟨t.load [], u.load [], rs, qs, hws.runWords_eq, hws.rsp_eq_none hrsp, rfl, hws.length_eq, hws.taken_eq, ?_,
    hvs.runWords_eq, hvs.length_eq, ?_⟩
  · rw [hws.runWords_append, hvs.runWords_eq]
  · rw [State.load_taken, hvs.taken_eq, hws.taken_eq]

/-- Settles O60: the exchange from reset takes its own responses only, so `err_eq_zero_iff` is about all of them. -/
theorem runPassesExactlyWhenNoCommandFaults : Obligations.RunPassesExactlyWhenNoCommandFaults := by
  intro ws matchAt
  obtain ⟨rs, t, hws⟩ := exists_exchange (s := State.reset) rfl ws
  have htaken : t.taken = rs := hws.taken_eq
  have hfault : t.err = 0#4 ↔ ∀ w ∈ t.taken, w.extractLsb' 28 4 = 0#4 := by
    rw [htaken, hws.err_eq_zero_iff rfl]
  rw [runPasses_iff, hws.runWords_eq]
  simp only [Host.Outcome.next.injEq, exists_eq_left', State.load_err, State.load_taken, hfault]

end Sys2Proof.Machine
